-- ==== Sys2Proof/Word.lean ====
section
/-! DEFINITION. The unit of the input stream and of every buffer, and the register widths of
10_state.md rules R14 to R18. All values are unsigned (00_scope.md R9). -/

namespace Sys2Proof

/-- One byte: the input symbol (30_encoding.md R60) and the unit of every buffer (20_memory.md R40). -/
abbrev Byte := BitVec 8

/-- A term-number counter, `n.tnum` and `a.tnum` (10_state.md R14 and R17). -/
abbrev TermNo := BitVec 8

/-- A 16-bit field: `u.len`, `b.mid`, `b.mlen` (10_state.md R15 and R18). -/
abbrev Half := BitVec 16

/-- A 17-bit count: `u.pos`, `b.cnt`, `b.total` (10_state.md R15 and R18). -/
abbrev Count17 := BitVec 17

/-- The RTCM3 payload length `r.len` (10_state.md R16). -/
abbrev RtcmLen := BitVec 10

/-- The RTCM3 message type `r.mtype` (10_state.md R16). -/
abbrev RtcmType := BitVec 12

/-- An RTCM3 byte count: `r.cnt`, `r.total` (10_state.md R16). -/
abbrev RtcmCount := BitVec 11

end Sys2Proof
end

