-- ==== Sys2Proof/Config.lean ====
section
/-! DEFINITION. What a session fixes (the parameters of 00_scope.md R7), the names its values are
drawn from, and the values the spec leaves open, as constants without a body. -/

namespace Sys2Proof

/-- The active protocol `proto` (10_state.md R11). `invalid` is the source's seventh value: no rule
ever writes it (93_implementation_defined.md U1). -/
inductive Proto where
  | none | nmea | ubx | unicore | unicoreBinary | rtcm | invalid
deriving DecidableEq, Repr, Inhabited

/-- The numeric encoding of `proto`, the listing order (10_state.md R11, decision D4; log 11). -/
def Proto.code : Proto → BitVec 3
  | .none => 0
  | .nmea => 1
  | .ubx => 2
  | .unicore => 3
  | .unicoreBinary => 4
  | .rtcm => 5
  | .invalid => 6

/-- The recognised sentence type `n.stype` (10_state.md R14). -/
inductive SentenceType where
  | none | gga | rmc | ths
deriving DecidableEq, Repr, Inhabited

/-- The `kind` of a UBX event (30_encoding.md R75). -/
inductive UbxKind where
  | navHpposllh | navRelposned | ackAck | ackNak | other
deriving DecidableEq, Repr, Inhabited

/-- The response code of a Unicore command echo (43_unicore_framers.md R166). -/
inductive UnicoreResp where
  | ok | error | unknown
deriving DecidableEq, Repr, Inhabited

/-- One item of the TERM port (60_exceptions.md R204). -/
structure TermItem where
  /-- `nmea` or `unicore`. -/
  proto : Proto
  tnum : TermNo
  text : List Byte
deriving DecidableEq, Repr

/-- The three buffers (20_memory.md R40): the payload buffer and the two term buffers. -/
inductive BufferName where
  | payload | nmeaTerm | uniTerm
deriving DecidableEq, Repr

/-- The parameters of 00_scope.md R7, fixed for the life of a session (10_state.md R23; log 3). -/
structure Params where
  /-- `PAYLOAD_CAP`, bytes the payload buffer holds. -/
  payloadCap : Nat
  /-- `NMEA_TERM_CAP`, characters the NMEA term buffer holds. -/
  nmeaTermCap : Nat
  /-- `UNI_TERM_CAP`, characters the Unicore-ASCII term buffer holds. -/
  uniTermCap : Nat
  /-- `UNIB_LEN_OFF`, offset of the message length in the Unicore-binary header. -/
  unibLenOff : Nat
  /-- `UNIB_ID_OFF`, offset of the message id in the Unicore-binary header. -/
  unibIdOff : Nat
  /-- `UNIB_TRAILER_LEN`, bytes consumed after the Unicore-binary payload. -/
  unibTrailerLen : Nat
deriving DecidableEq, Repr

/-- `UNIB_HDR_LEN`, fixed by the source (00_scope.md R7). -/
def Config.unibHdrLen : Nat := 24

/-- The values of this hardware, the defaults of 00_scope.md R7. -/
def Config.defaultParams : Params where
  payloadCap := 1029
  nmeaTermCap := 20
  uniTermCap := 32
  unibLenOff := 6
  unibIdOff := 4
  unibTrailerLen := 4

/-- The constraints of 00_scope.md R7. That the two header fields lie inside the header is read
from 43_unicore_framers.md R173, "indices below 24" (DEDUCED, log 3). -/
def Params.ok (p : Params) : Bool :=
  decide (24 ≤ p.payloadCap ∧ 7 ≤ p.nmeaTermCap ∧ 7 ≤ p.uniTermCap ∧
    p.unibLenOff + 1 < Config.unibHdrLen ∧ p.unibIdOff + 1 < Config.unibHdrLen ∧
    (p.unibTrailerLen = 0 ∨ p.unibTrailerLen = 4))

/-- `unicore_resp` of 43_unicore_framers.md R166: a total function of the TERM items of the
sentence, of which the spec assumes nothing (decision D19, U4). A free value (log 8). -/
opaque Config.unicoreResp : List TermItem → UnicoreResp

/-- What a buffer holds at an index that no rule has written: "any value" (93 U3). A free value (log 5). -/
opaque Config.powerOnByte : BufferName → Nat → Byte

end Sys2Proof
end

