-- ==== Sys2Proof/Syntax.lean ====
section
/-! DEFINITION. The step operations of the operation map (30_encoding.md R81, opcode_table.json) and
the state contexts they are decoded in (R80). -/

namespace Sys2Proof

/-- The idle-detection state `sync` (10_state.md R13). -/
inductive Sync where
  /-- no start byte is held -/
  | sIdle
  /-- the last byte was `0xB5` -/
  | sUbx1
  /-- the last byte was `0xAA` -/
  | sUni1
  /-- the last two bytes were `0xAA 0x44` -/
  | sUni2
deriving DecidableEq, Repr, Inhabited

/-- The state contexts of 30_encoding.md R80. -/
inductive Context where
  | sync (held : Sync)
  | nmea
  | unicore
  | ubxP0 | ubxP1 | ubxP2 | ubxP3 | ubxPayload | ubxCkA | ubxCkB
  | unibHdr | unibBody
  | rtcmC1 | rtcmC2 | rtcmBody
deriving DecidableEq, Repr

/-- A step operation with the byte it consumes (00_scope.md R6). An operation that one byte value
selects carries no byte; a dispatcher operation that the map lists for several sync contexts carries
the held sync state, so that every row of opcode_table.json is one form (log 26). -/
inductive Instr where
  /-- `D.START_NMEA`, 40_dispatcher.md R101 -/
  | dStartNmea (held : Sync)
  /-- `D.UBX_SYNC1`, 40_dispatcher.md R102 -/
  | dUbxSync1 (held : Sync)
  /-- `D.UBX_CONFIRM`, 40_dispatcher.md R103 -/
  | dUbxConfirm
  /-- `D.UNI_SYNC1`, 40_dispatcher.md R104 -/
  | dUniSync1 (held : Sync)
  /-- `D.UNI_SYNC2`, 40_dispatcher.md R108 -/
  | dUniSync2
  /-- `D.UNIB_CONFIRM`, 40_dispatcher.md R105 -/
  | dUnibConfirm
  /-- `D.START_RTCM`, 40_dispatcher.md R106 -/
  | dStartRtcm (held : Sync)
  /-- `D.DISCARD`, 40_dispatcher.md R109 -/
  | dDiscard (held : Sync) (b : Byte)
  /-- `N.CHAR`, 41_nmea.md R121 -/
  | nChar (b : Byte)
  /-- `N.COMMA`, 41_nmea.md R122 -/
  | nComma
  /-- `N.STAR`, 41_nmea.md R123 -/
  | nStar
  /-- `N.CR`, 41_nmea.md R124 -/
  | nCr
  /-- `U.CLASS`, 42_ubx.md R142 -/
  | uClass (b : Byte)
  /-- `U.ID`, 42_ubx.md R143 -/
  | uId (b : Byte)
  /-- `U.LEN_LO`, 42_ubx.md R144 -/
  | uLenLo (b : Byte)
  /-- `U.LEN_HI`, 42_ubx.md R145 -/
  | uLenHi (b : Byte)
  /-- `U.PAYLOAD`, 42_ubx.md R146 -/
  | uPayload (b : Byte)
  /-- `U.CK_A`, 42_ubx.md R147 -/
  | uCkA (b : Byte)
  /-- `U.CK_B`, 42_ubx.md R148 -/
  | uCkB (b : Byte)
  /-- `A.CHAR`, 43_unicore_framers.md R161 -/
  | aChar (b : Byte)
  /-- `A.COLON`, 43_unicore_framers.md R162 -/
  | aColon
  /-- `A.COMMA`, 43_unicore_framers.md R163 -/
  | aComma
  /-- `A.STAR`, 43_unicore_framers.md R164 -/
  | aStar
  /-- `A.CR`, 43_unicore_framers.md R165 -/
  | aCr
  /-- `B.HEADER`, 43_unicore_framers.md R171 -/
  | bHeader (b : Byte)
  /-- `B.BODY`, 43_unicore_framers.md R172 -/
  | bBody (b : Byte)
  /-- `R.LEN_HI`, 44_rtcm3.md R181 -/
  | rLenHi (b : Byte)
  /-- `R.LEN_LO`, 44_rtcm3.md R182 -/
  | rLenLo (b : Byte)
  /-- `R.BODY`, 44_rtcm3.md R183 -/
  | rBody (b : Byte)
deriving DecidableEq, Repr

/-- The 29 operation names of the map (30_encoding.md R81), without operands. -/
inductive Op where
  | dStartNmea | dUbxSync1 | dUbxConfirm | dUniSync1 | dUniSync2 | dUnibConfirm | dStartRtcm | dDiscard
  | nChar | nComma | nStar | nCr
  | uClass | uId | uLenLo | uLenHi | uPayload | uCkA | uCkB
  | aChar | aColon | aComma | aStar | aCr
  | bHeader | bBody
  | rLenHi | rLenLo | rBody
deriving DecidableEq, Repr

/-- The operation an instruction is a form of. -/
def Instr.op : Instr → Op
  | .dStartNmea _ => .dStartNmea
  | .dUbxSync1 _ => .dUbxSync1
  | .dUbxConfirm => .dUbxConfirm
  | .dUniSync1 _ => .dUniSync1
  | .dUniSync2 => .dUniSync2
  | .dUnibConfirm => .dUnibConfirm
  | .dStartRtcm _ => .dStartRtcm
  | .dDiscard _ _ => .dDiscard
  | .nChar _ => .nChar
  | .nComma => .nComma
  | .nStar => .nStar
  | .nCr => .nCr
  | .uClass _ => .uClass
  | .uId _ => .uId
  | .uLenLo _ => .uLenLo
  | .uLenHi _ => .uLenHi
  | .uPayload _ => .uPayload
  | .uCkA _ => .uCkA
  | .uCkB _ => .uCkB
  | .aChar _ => .aChar
  | .aColon => .aColon
  | .aComma => .aComma
  | .aStar => .aStar
  | .aCr => .aCr
  | .bHeader _ => .bHeader
  | .bBody _ => .bBody
  | .rLenHi _ => .rLenHi
  | .rLenLo _ => .rLenLo
  | .rBody _ => .rBody

end Sys2Proof
end

