-- ==== Sys2Proof/WellFormed.lean ====
section
/-! DEFINITION. Which operand values an operation can carry: exactly those the operation map gives it
(30_encoding.md R81). A byte that an earlier row of the same context takes is no operand of the
context's last row. -/

namespace Sys2Proof

/-- `D.UBX_SYNC1` has no row in context `S_UNI2`, where 0xB5 is `D.UNIB_CONFIRM` (40_dispatcher.md R102). -/
def wfUbxSync1 (held : Sync) : Bool :=
  match held with
  | .sIdle | .sUbx1 | .sUni1 => true
  | .sUni2 => false

/-- A discarded byte is none of the start bytes and does not continue the held sequence (40_dispatcher.md R109). -/
def wfDiscard (held : Sync) (b : Byte) : Bool :=
  b != 0x24 && b != 0xB5 && b != 0xAA && b != 0xD3 &&
  match held with
  | .sIdle => true
  | .sUbx1 => b != 0x62
  | .sUni1 => b != 0x44
  | .sUni2 => true

/-- A term character of an NMEA sentence is none of the three delimiters (41_nmea.md R121, R128). -/
def wfNmeaChar (b : Byte) : Bool :=
  b != 0x2C && b != 0x2A && b != 0x0D

/-- A plain term character of a Unicore sentence is no delimiter and no colon (43_unicore_framers.md R161). -/
def wfUniChar (b : Byte) : Bool :=
  b != 0x2C && b != 0x2A && b != 0x0D && b != 0x3A

/-- Well-formed instructions: the forms the operation map can produce. -/
def Instr.wf : Instr → Bool
  | .dStartNmea _ => true
  | .dUbxSync1 held => wfUbxSync1 held
  | .dUbxConfirm => true
  | .dUniSync1 _ => true
  | .dUniSync2 => true
  | .dUnibConfirm => true
  | .dStartRtcm _ => true
  | .dDiscard held b => wfDiscard held b
  | .nChar b => wfNmeaChar b
  | .nComma => true
  | .nStar => true
  | .nCr => true
  | .uClass _ => true
  | .uId _ => true
  | .uLenLo _ => true
  | .uLenHi _ => true
  | .uPayload _ => true
  | .uCkA _ => true
  | .uCkB _ => true
  | .aChar b => wfUniChar b
  | .aColon => true
  | .aComma => true
  | .aStar => true
  | .aCr => true
  | .bHeader _ => true
  | .bBody _ => true
  | .rLenHi _ => true
  | .rLenLo _ => true
  | .rBody _ => true

end Sys2Proof
end

