-- ==== Sys2Proof/Decode.lean ====
section
/-! DEFINITION. Decoding (30_encoding.md R80 and R81): the operation a byte selects in a context, the
operation map itself as a table, the encoder, and the reading of a table word that the host asks for. -/

namespace Sys2Proof

/-- 40_dispatcher.md R100: a byte examined as if nothing were held. `held` is what was held when it
arrived; it rides along in the operation. -/
def examine (held : Sync) (b : Byte) : Instr :=
  if b = 0x24 then .dStartNmea held
  else if b = 0xB5 then .dUbxSync1 held
  else if b = 0xAA then .dUniSync1 held
  else if b = 0xD3 then .dStartRtcm held
  else .dDiscard held b

/-- 40_dispatcher.md R100 and R111: continuing the held sequence has priority, and a byte that does
not continue it is examined in the same step. -/
def decodeIdle (held : Sync) (b : Byte) : Instr :=
  match held with
  | .sIdle => examine held b
  | .sUbx1 => if b = 0x62 then .dUbxConfirm else examine held b
  | .sUni1 => if b = 0x44 then .dUniSync2 else examine held b
  | .sUni2 => if b = 0xB5 then .dUnibConfirm else examine held b

/-- The delimiters of context NMEA (41_nmea.md R128). -/
def decodeNmea (b : Byte) : Instr :=
  if b = 0x2C then .nComma
  else if b = 0x2A then .nStar
  else if b = 0x0D then .nCr
  else .nChar b

/-- The delimiters of context UNICORE (43_unicore_framers.md R161 to R165). -/
def decodeUnicore (b : Byte) : Instr :=
  if b = 0x2C then .aComma
  else if b = 0x2A then .aStar
  else if b = 0x0D then .aCr
  else if b = 0x3A then .aColon
  else .aChar b

/-- The step operation a byte selects in a context (30_encoding.md R80 and R81). Total: the last row
of every context matches any byte, so no byte is rejected (R82). -/
def decode (c : Context) (b : Byte) : Instr :=
  match c with
  | .sync held => decodeIdle held b
  | .nmea => decodeNmea b
  | .unicore => decodeUnicore b
  | .ubxP0 => .uClass b
  | .ubxP1 => .uId b
  | .ubxP2 => .uLenLo b
  | .ubxP3 => .uLenHi b
  | .ubxPayload => .uPayload b
  | .ubxCkA => .uCkA b
  | .ubxCkB => .uCkB b
  | .unibHdr => .bHeader b
  | .unibBody => .bBody b
  | .rtcmC1 => .rLenHi b
  | .rtcmC2 => .rLenLo b
  | .rtcmBody => .rBody b

/-- The encoding of an instruction: the context it stands in and the byte (00_scope.md R6,
30_encoding.md R81). -/
def encode : Instr → Context × Byte
  | .dStartNmea held => (.sync held, 0x24)
  | .dUbxSync1 held => (.sync held, 0xB5)
  | .dUbxConfirm => (.sync .sUbx1, 0x62)
  | .dUniSync1 held => (.sync held, 0xAA)
  | .dUniSync2 => (.sync .sUni1, 0x44)
  | .dUnibConfirm => (.sync .sUni2, 0xB5)
  | .dStartRtcm held => (.sync held, 0xD3)
  | .dDiscard held b => (.sync held, b)
  | .nChar b => (.nmea, b)
  | .nComma => (.nmea, 0x2C)
  | .nStar => (.nmea, 0x2A)
  | .nCr => (.nmea, 0x0D)
  | .uClass b => (.ubxP0, b)
  | .uId b => (.ubxP1, b)
  | .uLenLo b => (.ubxP2, b)
  | .uLenHi b => (.ubxP3, b)
  | .uPayload b => (.ubxPayload, b)
  | .uCkA b => (.ubxCkA, b)
  | .uCkB b => (.ubxCkB, b)
  | .aChar b => (.unicore, b)
  | .aColon => (.unicore, 0x3A)
  | .aComma => (.unicore, 0x2C)
  | .aStar => (.unicore, 0x2A)
  | .aCr => (.unicore, 0x0D)
  | .bHeader b => (.unibHdr, b)
  | .bBody b => (.unibBody, b)
  | .rLenHi b => (.rtcmC1, b)
  | .rLenLo b => (.rtcmC2, b)
  | .rBody b => (.rtcmBody, b)

/-- One row of the operation map: within its context the row applies to the bytes `b` with
`(b & mask) = value`, and the first row that applies is taken (30_encoding.md R81). -/
structure Row where
  ctx : Context
  value : Byte
  mask : Byte
  op : Op
deriving DecidableEq, Repr

/-- The row applies to the byte. -/
def Row.applies (r : Row) (b : Byte) : Bool := (b &&& r.mask) == r.value

/-- opcode_table.json, the rows of the group Idle, in the order of the table. -/
def rowsIdle : List Row := [
  ⟨.sync .sIdle, 0x24, 0xFF, .dStartNmea⟩,
  ⟨.sync .sIdle, 0xB5, 0xFF, .dUbxSync1⟩,
  ⟨.sync .sIdle, 0xAA, 0xFF, .dUniSync1⟩,
  ⟨.sync .sIdle, 0xD3, 0xFF, .dStartRtcm⟩,
  ⟨.sync .sIdle, 0x00, 0x00, .dDiscard⟩]

/-- opcode_table.json, the rows of the group Ubx1, in the order of the table. -/
def rowsUbx1 : List Row := [
  ⟨.sync .sUbx1, 0x62, 0xFF, .dUbxConfirm⟩,
  ⟨.sync .sUbx1, 0x24, 0xFF, .dStartNmea⟩,
  ⟨.sync .sUbx1, 0xB5, 0xFF, .dUbxSync1⟩,
  ⟨.sync .sUbx1, 0xAA, 0xFF, .dUniSync1⟩,
  ⟨.sync .sUbx1, 0xD3, 0xFF, .dStartRtcm⟩,
  ⟨.sync .sUbx1, 0x00, 0x00, .dDiscard⟩]

/-- opcode_table.json, the rows of the group Uni1, in the order of the table. -/
def rowsUni1 : List Row := [
  ⟨.sync .sUni1, 0x44, 0xFF, .dUniSync2⟩,
  ⟨.sync .sUni1, 0x24, 0xFF, .dStartNmea⟩,
  ⟨.sync .sUni1, 0xB5, 0xFF, .dUbxSync1⟩,
  ⟨.sync .sUni1, 0xAA, 0xFF, .dUniSync1⟩,
  ⟨.sync .sUni1, 0xD3, 0xFF, .dStartRtcm⟩,
  ⟨.sync .sUni1, 0x00, 0x00, .dDiscard⟩]

/-- opcode_table.json, the rows of the group Uni2, in the order of the table. -/
def rowsUni2 : List Row := [
  ⟨.sync .sUni2, 0xB5, 0xFF, .dUnibConfirm⟩,
  ⟨.sync .sUni2, 0x24, 0xFF, .dStartNmea⟩,
  ⟨.sync .sUni2, 0xAA, 0xFF, .dUniSync1⟩,
  ⟨.sync .sUni2, 0xD3, 0xFF, .dStartRtcm⟩,
  ⟨.sync .sUni2, 0x00, 0x00, .dDiscard⟩]

/-- opcode_table.json, the rows of the group Nmea, in the order of the table. -/
def rowsNmea : List Row := [
  ⟨.nmea, 0x2C, 0xFF, .nComma⟩,
  ⟨.nmea, 0x2A, 0xFF, .nStar⟩,
  ⟨.nmea, 0x0D, 0xFF, .nCr⟩,
  ⟨.nmea, 0x00, 0x00, .nChar⟩]

/-- opcode_table.json, the rows of the group Ubx, in the order of the table. -/
def rowsUbx : List Row := [
  ⟨.ubxP0, 0x00, 0x00, .uClass⟩,
  ⟨.ubxP1, 0x00, 0x00, .uId⟩,
  ⟨.ubxP2, 0x00, 0x00, .uLenLo⟩,
  ⟨.ubxP3, 0x00, 0x00, .uLenHi⟩,
  ⟨.ubxPayload, 0x00, 0x00, .uPayload⟩,
  ⟨.ubxCkA, 0x00, 0x00, .uCkA⟩,
  ⟨.ubxCkB, 0x00, 0x00, .uCkB⟩]

/-- opcode_table.json, the rows of the group Unicore, in the order of the table. -/
def rowsUnicore : List Row := [
  ⟨.unicore, 0x2C, 0xFF, .aComma⟩,
  ⟨.unicore, 0x2A, 0xFF, .aStar⟩,
  ⟨.unicore, 0x0D, 0xFF, .aCr⟩,
  ⟨.unicore, 0x3A, 0xFF, .aColon⟩,
  ⟨.unicore, 0x00, 0x00, .aChar⟩]

/-- opcode_table.json, the rows of the group UnicoreBinary, in the order of the table. -/
def rowsUnicoreBinary : List Row := [
  ⟨.unibHdr, 0x00, 0x00, .bHeader⟩,
  ⟨.unibBody, 0x00, 0x00, .bBody⟩]

/-- opcode_table.json, the rows of the group Rtcm, in the order of the table. -/
def rowsRtcm : List Row := [
  ⟨.rtcmC1, 0x00, 0x00, .rLenHi⟩,
  ⟨.rtcmC2, 0x00, 0x00, .rLenLo⟩,
  ⟨.rtcmBody, 0x00, 0x00, .rBody⟩]

/-- The operation map, 43 rows, transcribed from opcode_table.json. -/
def opcodeTable : List Row :=
  rowsIdle ++ rowsUbx1 ++ rowsUni1 ++ rowsUni2 ++ rowsNmea ++ rowsUbx ++ rowsUnicore ++ rowsUnicoreBinary ++ rowsRtcm

/-- The operation the map gives a byte in a context: the first row of the context that applies. -/
def lookupOp (c : Context) (b : Byte) : Option Op :=
  (opcodeTable.find? fun r => decide (r.ctx = c) && r.applies b).map (·.op)

/-- The context a bare byte is read in where none is given: that of the first row of the table that
selects exactly this byte, and the idle context for a byte that no row selects (DESIGN CHOICE, log 2). -/
def tableContext (b : Byte) : Context :=
  match opcodeTable.find? fun r => r.mask == 0xFF && r.value == b with
  | some r => r.ctx
  | none => .sync .sIdle

/-- The instruction the decoder reads from a word of opcode_table.json, which is one byte and names
no context (log 2). `none` for a word that is not one byte: every step consumes exactly one
(30_encoding.md R60). -/
def decodeTableWord (nbits w : Nat) : Option Instr :=
  if nbits = 8 ∧ w < 256 then
    some (decode (tableContext (BitVec.ofNat 8 w)) (BitVec.ofNat 8 w))
  else none

end Sys2Proof
end

