-- ==== Sys2Proof/Machine/Operands.lean ====
section
/-! DEFINITION. Field assembly and classification (30_encoding.md R75 to R79), the saturating term
number (R85) and the message identities the block distinguishes. -/

namespace Sys2Proof.Machine

/-- `hexval(c)`, 30_encoding.md R78; lower case is accepted (decision D13, log 17). -/
def hexval (c : Byte) : Option Byte :=
  if 0x30 ≤ c ∧ c ≤ 0x39 then some (c - 0x30)
  else if 0x41 ≤ c ∧ c ≤ 0x46 then some (c - 0x41 + 10)
  else if 0x61 ≤ c ∧ c ≤ 0x66 then some (c - 0x61 + 10)
  else none

/-- `min(tnum + 1, 255)`, 30_encoding.md R85 (decision D5, log 12). -/
def satInc (t : TermNo) : TermNo := if t = 255 then 255 else t + 1

/-- `u.len[7:0] <- b`, 42_ubx.md R144. -/
def setLenLo (len : Half) (b : Byte) : Half := len.extractLsb' 8 8 ++ b

/-- `u.len[15:8] <- b`, 42_ubx.md R145. -/
def setLenHi (len : Half) (b : Byte) : Half := b ++ len.extractLsb' 0 8

/-- `r.len[9:8] <- b[1:0]`, 44_rtcm3.md R181. -/
def setRtcmLenHi (len : RtcmLen) (b : Byte) : RtcmLen := b.extractLsb' 0 2 ++ len.extractLsb' 0 8

/-- `r.len[7:0] <- b`, 44_rtcm3.md R182. -/
def setRtcmLenLo (len : RtcmLen) (b : Byte) : RtcmLen := len.extractLsb' 8 2 ++ b

/-- `r.total = 6 + r.len`, the length law 44_rtcm3.md R184. -/
def rtcmTotal (len : RtcmLen) : RtcmCount := 6 + len.setWidth 11

/-- `{p0[7:0], p1[7:4]}`, the RTCM3 message type, 30_encoding.md R77 and 44_rtcm3.md R186. -/
def rtcmType (p0 p1 : Byte) : RtcmType := p0 ++ p1.extractLsb' 4 4

/-- `{hi, lo}`, a little-endian field of the Unicore-binary header, 30_encoding.md R79. -/
def half (lo hi : Byte) : Half := hi ++ lo

/-- `b.total`, 43_unicore_framers.md R173. -/
def unibTotal (mlen : Half) (trailerLen : Nat) : Count17 :=
  BitVec.ofNat 17 (Config.unibHdrLen + mlen.toNat + trailerLen)

/-- `ubx_kind(cls, id)`, 42_ubx.md R150 and 30_encoding.md R75 (numbers from general knowledge, G1, log 23). -/
def ubxKind (cls id : Byte) : UbxKind :=
  if cls = 0x01 ∧ id = 0x14 then .navHpposllh
  else if cls = 0x01 ∧ id = 0x3C then .navRelposned
  else if cls = 0x05 ∧ id = 0x01 then .ackAck
  else if cls = 0x05 ∧ id = 0x00 then .ackNak
  else .other

/-- The ASCII codes of `command`, 41_nmea.md R127. -/
def commandText : List Byte := [0x63, 0x6F, 0x6D, 0x6D, 0x61, 0x6E, 0x64]

/-- The sentence type three characters select, 41_nmea.md R126: `GGA`, `RMC`, `THS` in upper case. -/
def sentenceType (t : List Byte) : SentenceType :=
  if t = [0x47, 0x47, 0x41] then .gga
  else if t = [0x52, 0x4D, 0x43] then .rmc
  else if t = [0x54, 0x48, 0x53] then .ths
  else .none

end Sys2Proof.Machine
end

