-- ==== Sys2Proof/Machine/State.lean ====
section
/-! DEFINITION. The whole state of one Receiver Session (10_state.md R10 to R25), its output ports
(60_exceptions.md R202 to R205), what stands at its input, its reset value, and the reasons a step can stop. -/

namespace Sys2Proof.Machine

/-- A buffer's contents: (index, byte) pairs, indices strictly rising. An index not listed holds no
value the model knows (10_state.md R19, R25; log 5). -/
abbrev Memory := List Host.Cell

/-- A term buffer with its index (10_state.md R14 and R17): `term` holds the characters, `tidx`
counts those kept. -/
structure TermBuf where
  term : Memory
  tidx : Nat
deriving DecidableEq, Repr

/-- The NMEA sub-state, prefix `n.` (10_state.md R14). -/
structure NmeaRegs extends TermBuf where
  tnum : TermNo
  ck : Byte
  star : Bool
  stype : SentenceType
deriving DecidableEq, Repr

/-- The UBX sub-state, prefix `u.` (10_state.md R15). -/
structure UbxRegs where
  pos : Count17
  cls : Byte
  id : Byte
  len : Half
  rxA : Byte
  rxB : Byte
  ckA : Byte
  ckB : Byte
deriving DecidableEq, Repr

/-- The RTCM sub-state, prefix `r.` (10_state.md R16). -/
structure RtcmRegs where
  len : RtcmLen
  mtype : RtcmType
  cnt : RtcmCount
  total : RtcmCount
deriving DecidableEq, Repr

/-- The Unicore-ASCII sub-state, prefix `a.` (10_state.md R17). `terms` is the model's own field: the
TERM items of the current sentence, the argument of `unicore_resp` (43_unicore_framers.md R166; log 8). -/
structure UniRegs extends TermBuf where
  tnum : TermNo
  ck : Byte
  star : Bool
  colon : Bool
  terms : List TermItem
deriving DecidableEq, Repr

/-- The Unicore-binary sub-state, prefix `b.` (10_state.md R18). -/
structure UnibRegs where
  cnt : Count17
  mid : Half
  mlen : Half
  total : Count17
deriving DecidableEq, Repr

/-- The `kind` of an EVT item; the source names one (60_exceptions.md R203). -/
inductive EvtKind where
  | dataParsed
deriving DecidableEq, Repr

/-- The `msg` of an EVT item, by protocol (60_exceptions.md R203). -/
inductive Msg where
  | nmea (stype : SentenceType)
  | ubx (cls id : Byte) (kind : UbxKind) (len : Half)
  | unicore (resp : UnicoreResp)
  | unicoreBinary (id len : Half)
  | rtcm (mtype : RtcmType) (len : RtcmLen) (total : RtcmCount)
deriving DecidableEq, Repr

/-- One item of the EVT port (60_exceptions.md R203). -/
structure EvtItem where
  kind : EvtKind
  proto : Proto
  msg : Msg
  frame : List Byte
deriving DecidableEq, Repr

/-- One item of the ACK port (60_exceptions.md R205). -/
structure AckItem where
  wasAck : Bool
  cls : Byte
  id : Byte
deriving DecidableEq, Repr

/-- What the owner hands to the block between steps: a byte of the stream (00_scope.md R8) or the
reset operation `init` (70_reset_and_hazards.md R231; log 1). -/
inductive Stimulus where
  | byte (b : Byte)
  | init
deriving DecidableEq, Repr

/-- One Receiver Session (10_state.md R10) with its static parameters (00_scope.md R7), its three
output ports and the stimuli it has not consumed yet. -/
structure State where
  /-- the parameters of the session (00_scope.md R7; log 3) -/
  params : Params
  /-- the active protocol (10_state.md R11) -/
  proto : Proto
  /-- the idle-detection state (10_state.md R13) -/
  sync : Sync
  n : NmeaRegs
  u : UbxRegs
  r : RtcmRegs
  a : UniRegs
  b : UnibRegs
  /-- the payload buffer (10_state.md R19) -/
  buf : Memory
  /-- its write cursor (10_state.md R19) -/
  cur : Nat
  /-- the item of the last step on the EVT port (60_exceptions.md R203; log 7) -/
  evt : Option EvtItem
  /-- the item of the last step on the TERM port (60_exceptions.md R204; log 7) -/
  termOut : Option TermItem
  /-- the item of the last step on the ACK port (60_exceptions.md R205; log 7) -/
  ack : Option AckItem
  /-- stimuli handed over and not yet consumed, oldest first (log 1) -/
  input : List Stimulus
deriving DecidableEq, Repr

/-- Reset value of `n.` (10_state.md R25, decision D7; log 4). -/
def NmeaRegs.reset : NmeaRegs :=
  { term := [], tidx := 0, tnum := 0, ck := 0, star := false, stype := .none }

/-- Reset value of `u.` (10_state.md R25, decision D7; log 4). -/
def UbxRegs.reset : UbxRegs :=
  { pos := 0, cls := 0, id := 0, len := 0, rxA := 0, rxB := 0, ckA := 0, ckB := 0 }

/-- Reset value of `r.` (10_state.md R25, decision D7; log 4). -/
def RtcmRegs.reset : RtcmRegs :=
  { len := 0, mtype := 0, cnt := 0, total := 0 }

/-- Reset value of `a.` (10_state.md R25, decision D7; log 4; `terms` log 8). -/
def UniRegs.reset : UniRegs :=
  { term := [], tidx := 0, tnum := 0, ck := 0, star := false, colon := false, terms := [] }

/-- Reset value of `b.` (10_state.md R25, decision D7; log 4). -/
def UnibRegs.reset : UnibRegs :=
  { cnt := 0, mid := 0, mlen := 0, total := 0 }

/-- The state after `init` (10_state.md R25, 70_reset_and_hazards.md R230), with the parameters of
this hardware and nothing fed yet. -/
def State.reset : State where
  params := Config.defaultParams
  proto := .none
  sync := .sIdle
  n := .reset
  u := .reset
  r := .reset
  a := .reset
  b := .reset
  buf := []
  cur := 0
  evt := none
  termOut := none
  ack := none
  input := []

/-- The reasons the machine stops with a fault. The block itself has no traps (30_encoding.md R82). -/
inductive Fault where
  /-- Raised by the step when a byte is waiting and the live position counter lies in no context of
  30_encoding.md R80 (`u.pos` above 5 + `u.len`, `r.cnt` = 0): no rule gives a next state, so the
  machine is stuck. No run from reset reaches it. Safe (log 10). -/
  | noContext
deriving DecidableEq, Repr

/-- The reasons the model gives a step no meaning. -/
inductive Refusal where
  /-- An instruction without a meaning, by its mnemonic. Raised by no arm: every operation has its
  meaning. Safe. -/
  | notModelled (mnemonic : String)
  /-- Raised by the step when a byte is waiting and `proto` is `INVALID`: "Never give it a
  behaviour" (93_implementation_defined.md U1). No run from reset reaches it. Safe (log 10). -/
  | protoInvalid
deriving DecidableEq, Repr

end Sys2Proof.Machine
end

