-- ==== Sys2Proof/Machine/Ops.lean ====
section
/-! DEFINITION. The shared operations: reading and writing a buffer, the primitives `store`, `clear`
and `tappend` (20_memory.md R44 to R46), the output ports (60_exceptions.md R202), the completion reset
`to_idle()` (40_dispatcher.md R107), which is this block's trap entry, and `init` (70_reset_and_hazards.md R230). -/

namespace Sys2Proof.Machine

/-! ## Buffers -/

/-- The byte listed at an index, if any. -/
def Memory.read (m : Memory) (i : Nat) : Option Byte :=
  match m with
  | [] => none
  | c :: rest => if c.1 = i then some c.2 else Memory.read rest i

/-- Writes one byte and keeps the indices strictly rising. -/
def Memory.write (m : Memory) (i : Nat) (v : Byte) : Memory :=
  match m with
  | [] => [(i, v)]
  | c :: rest =>
    if i < c.1 then (i, v) :: c :: rest
    else if i = c.1 then (i, v) :: rest
    else c :: Memory.write rest i v

/-- The canonical form: indices strictly rising. An unlisted index has no value, so no entry can
repeat it (log 5). -/
def Memory.wf (m : Memory) : Bool :=
  match m with
  | [] => true
  | c :: rest => (rest.all fun d => decide (c.1 < d.1)) && Memory.wf rest

/-- The byte a rule reads at an index: the listed one, and a free value where no rule has written
(93_implementation_defined.md U3; log 5). -/
def Memory.byteAt (m : Memory) (name : BufferName) (i : Nat) : Byte :=
  (m.read i).getD (Config.powerOnByte name i)

/-- `n` bytes from an index on, lowest index first (00_scope.md R9, `MemRead(addr, n)`). -/
def Memory.bytes (m : Memory) (name : BufferName) (start count : Nat) : List Byte :=
  (List.range count).map fun k => m.byteAt name (start + k)

/-- `MemRead(i, 1)` of the payload buffer (20_memory.md R48). -/
def State.bufByte (s : State) (i : Nat) : Byte := s.buf.byteAt .payload i

/-- `MemRead(0, cur)`, the snapshot an event carries (20_memory.md R48). -/
def State.frame (s : State) : List Byte := s.buf.bytes .payload 0 s.cur

/-- `store(v)`, 20_memory.md R44: append with truncation. -/
def State.store (s : State) (v : Byte) : State :=
  if s.cur < s.params.payloadCap then { s with buf := s.buf.write s.cur v, cur := s.cur + 1 } else s

/-- `clear()`, 20_memory.md R45: the bytes stay, only the cursor moves. -/
def State.clear (s : State) : State := { s with cur := 0 }

/-- `tappend(t, v)`, 20_memory.md R46: append with truncation. -/
def TermBuf.append (t : TermBuf) (cap : Nat) (v : Byte) : TermBuf :=
  if t.tidx < cap then { term := t.term.write t.tidx v, tidx := t.tidx + 1 } else t

/-- `t.term[0 .. t.tidx-1]`, the text a closed term carries (41_nmea.md R125). -/
def TermBuf.text (t : TermBuf) (name : BufferName) : List Byte := t.term.bytes name 0 t.tidx

/-- `tappend(n, b)` (41_nmea.md R121). -/
def State.tappendN (s : State) (v : Byte) : State :=
  { s with n := { s.n with toTermBuf := s.n.toTermBuf.append s.params.nmeaTermCap v } }

/-- `tappend(a, b)` (43_unicore_framers.md R161). -/
def State.tappendA (s : State) (v : Byte) : State :=
  { s with a := { s.a with toTermBuf := s.a.toTermBuf.append s.params.uniTermCap v } }

/-! ## Checksums -/

/-- The XOR fold of the NMEA checksum, skipped once `*` was seen (41_nmea.md R121). -/
def State.foldN (s : State) (v : Byte) : State :=
  { s with n := { s.n with ck := if s.n.star then s.n.ck else s.n.ck ^^^ v } }

/-- The XOR fold of the Unicore checksum under a condition (43_unicore_framers.md R161 to R163). -/
def State.foldA (s : State) (on : Bool) (v : Byte) : State :=
  { s with a := { s.a with ck := if on then s.a.ck ^^^ v else s.a.ck } }

/-- The UBX fold, 42_ubx.md R141: `ck_b` adds the new `ck_a`. -/
def State.foldU (s : State) (v : Byte) : State :=
  { s with u := { s.u with ckA := s.u.ckA + v, ckB := s.u.ckB + (s.u.ckA + v) } }

/-! ## Ports -/

/-- `emit EVT(...)` (60_exceptions.md R203). -/
def State.emitEvt (s : State) (proto : Proto) (msg : Msg) (frame : List Byte) : State :=
  { s with evt := some { kind := .dataParsed, proto := proto, msg := msg, frame := frame } }

/-- `emit TERM(...)` (60_exceptions.md R204). -/
def State.emitTerm (s : State) (item : TermItem) : State := { s with termOut := some item }

/-- `emit ACK(...)` (60_exceptions.md R205). -/
def State.emitAck (s : State) (item : AckItem) : State := { s with ack := some item }

/-- The ports carry no item (10_state.md R25; at the start of every step, log 7). -/
def State.clearPorts (s : State) : State := { s with evt := none, termOut := none, ack := none }

/-! ## Completion and reset -/

/-- `to_idle()`, 40_dispatcher.md R107 and 60_exceptions.md R207: the whole of this block's trap entry.
Nothing is saved and there is no return from it (R208). -/
def State.toIdle (s : State) : State := { s with proto := .none, sync := .sIdle }.clear

/-- `init`, 70_reset_and_hazards.md R230 and R231: every register at its reset value, no item on any
port, the buffers' contents unknown; the parameters and what stands at the input are not the block's to change. -/
def State.init (s : State) : State :=
  { State.reset with params := s.params, input := s.input }

end Sys2Proof.Machine
end

