-- ==== Sys2Proof/Machine/Context.lean ====
section
/-! DEFINITION. Which context the state stands in (30_encoding.md R80), taking one stimulus off the
input, and placing a state in a context. -/

namespace Sys2Proof.Machine

/-- The context of a UBX frame by `u.pos`, tried in the order of 30_encoding.md R80. -/
def ubxContext (pos len : Nat) : Option Context :=
  if pos = 0 then some .ubxP0
  else if pos = 1 then some .ubxP1
  else if pos = 2 then some .ubxP2
  else if pos = 3 then some .ubxP3
  else if pos < 4 + len then some .ubxPayload
  else if pos = 4 + len then some .ubxCkA
  else if pos = 5 + len then some .ubxCkB
  else none

/-- The context of an RTCM3 frame by `r.cnt` (30_encoding.md R80). -/
def rtcmContext (cnt : Nat) : Option Context :=
  if cnt = 1 then some .rtcmC1
  else if cnt = 2 then some .rtcmC2
  else if 3 ≤ cnt then some .rtcmBody
  else none

/-- The context the next byte is read in, 30_encoding.md R80. `none` where no rule applies: `proto`
is `INVALID`, or the live position counter has a value no rule gives it (log 10). -/
def State.context (s : State) : Option Context :=
  match s.proto with
  | .none => some (.sync s.sync)
  | .nmea => some .nmea
  | .unicore => some .unicore
  | .ubx => ubxContext s.u.pos.toNat s.u.len.toNat
  | .rtcm => rtcmContext s.r.cnt.toNat
  | .unicoreBinary => some (if s.b.cnt.toNat < Config.unibHdrLen then .unibHdr else .unibBody)
  | .invalid => none

/-- The state in which an operation runs: the byte is consumed and the ports are free (00_scope.md R8;
log 7). -/
def State.consume (s : State) (rest : List Stimulus) : State := { s.clearPorts with input := rest }

/-- `feed(bytes)`: the bytes join what stands at the input (00_scope.md R8). -/
def State.feed (s : State) (bytes : List Byte) : State :=
  { s with input := s.input ++ bytes.map Stimulus.byte }

/-- The state placed in a context, with nothing else changed than the registers that name the context. -/
def State.placeIn (s : State) (c : Context) : State :=
  match c with
  | .sync held => { s with proto := .none, sync := held }
  | .nmea => { s with proto := .nmea }
  | .unicore => { s with proto := .unicore }
  | .ubxP0 => { s with proto := .ubx, u := { s.u with pos := 0 } }
  | .ubxP1 => { s with proto := .ubx, u := { s.u with pos := 1 } }
  | .ubxP2 => { s with proto := .ubx, u := { s.u with pos := 2 } }
  | .ubxP3 => { s with proto := .ubx, u := { s.u with pos := 3 } }
  | .ubxPayload => { s with proto := .ubx, u := { s.u with pos := 4, len := if s.u.len = 0 then 1 else s.u.len } }
  | .ubxCkA => { s with proto := .ubx, u := { s.u with pos := 4 + s.u.len.setWidth 17 } }
  | .ubxCkB => { s with proto := .ubx, u := { s.u with pos := 5 + s.u.len.setWidth 17 } }
  | .unibHdr => { s with proto := .unicoreBinary, b := { s.b with cnt := 3 } }
  | .unibBody => { s with proto := .unicoreBinary, b := { s.b with cnt := 24 } }
  | .rtcmC1 => { s with proto := .rtcm, r := { s.r with cnt := 1 } }
  | .rtcmC2 => { s with proto := .rtcm, r := { s.r with cnt := 2 } }
  | .rtcmBody => { s with proto := .rtcm, r := { s.r with cnt := 3 } }

end Sys2Proof.Machine
end

