-- ==== Sys2Proof/Machine/Dispatcher.lean ====
section
/-! DEFINITION. The operations of the protocol dispatcher (40_dispatcher.md). None emits an item or
touches a checksum of another sub-state. What was held when the byte arrived has no further effect
(R111): it is only named, as the condition SYNC_FAIL. -/

namespace Sys2Proof.Machine

/-- `D.START_NMEA`, 40_dispatcher.md R101. -/
def execDStartNmea (_held : Sync) (s : State) : Host.Outcome State Fault Refusal :=
  .next { s.clear with
    proto := .nmea, sync := .sIdle,
    n := { s.n with tidx := 0, tnum := 0, ck := 0, star := false, stype := .none } }

/-- `D.UBX_SYNC1`, 40_dispatcher.md R102. -/
def execDUbxSync1 (_held : Sync) (s : State) : Host.Outcome State Fault Refusal :=
  .next { s with sync := .sUbx1 }

/-- `D.UBX_CONFIRM`, 40_dispatcher.md R103. -/
def execDUbxConfirm (s : State) : Host.Outcome State Fault Refusal :=
  .next { s.clear with
    proto := .ubx, sync := .sIdle,
    u := { pos := 0, cls := 0, id := 0, len := 0, rxA := 0, rxB := 0, ckA := 0, ckB := 0 } }

/-- `D.UNI_SYNC1`, 40_dispatcher.md R104. -/
def execDUniSync1 (_held : Sync) (s : State) : Host.Outcome State Fault Refusal :=
  .next { s with sync := .sUni1 }

/-- `D.UNI_SYNC2`, 40_dispatcher.md R108. -/
def execDUniSync2 (s : State) : Host.Outcome State Fault Refusal :=
  .next { s with sync := .sUni2 }

/-- `D.UNIB_CONFIRM`, 40_dispatcher.md R105: the buffer is primed with the three sync bytes. -/
def execDUnibConfirm (s : State) : Host.Outcome State Fault Refusal :=
  .next { ((s.clear.store 0xAA).store 0x44).store 0xB5 with
    proto := .unicoreBinary, sync := .sIdle,
    b := { cnt := 3, mid := 0, mlen := 0, total := 0 } }

/-- `D.START_RTCM`, 40_dispatcher.md R106: the buffer is primed with the preamble. -/
def execDStartRtcm (_held : Sync) (s : State) : Host.Outcome State Fault Refusal :=
  .next { s.clear.store 0xD3 with
    proto := .rtcm, sync := .sIdle,
    r := { cnt := 1, len := 0, total := 0, mtype := 0 } }

/-- `D.DISCARD`, 40_dispatcher.md R109. -/
def execDDiscard (_held : Sync) (_b : Byte) (s : State) : Host.Outcome State Fault Refusal :=
  .next { s with sync := .sIdle }

end Sys2Proof.Machine
end

