-- ==== Sys2Proof/Machine/Flags.lean ====
section
/-! DEFINITION. The computed conditions of 10_state.md R20 and the silent conditions of
60_exceptions.md R201. -/

namespace Sys2Proof.Machine

/-- The received text checksum equals the running one: two hexadecimal digits, the first the high
nibble (30_encoding.md R89). -/
def hexPairIs (c0 c1 ck : Byte) : Bool :=
  match hexval c0, hexval c1 with
  | some h, some l => ((h <<< 4) ||| l) == ck
  | _, _ => false

/-- `text_ck_ok(term, tidx, ck, star)`, 30_encoding.md R89 (decision D13, log 17). -/
def textCkOk (t : TermBuf) (name : BufferName) (ck : Byte) (star : Bool) : Bool :=
  star && t.tidx == 2 && hexPairIs (t.term.byteAt name 0) (t.term.byteAt name 1) ck

/-- `text_ck_ok` on the NMEA sub-state (41_nmea.md R124). -/
def State.nmeaCkOk (s : State) : Bool := textCkOk s.n.toTermBuf .nmeaTerm s.n.ck s.n.star

/-- `text_ck_ok` on the Unicore-ASCII sub-state (43_unicore_framers.md R165). -/
def State.uniCkOk (s : State) : Bool := textCkOk s.a.toTermBuf .uniTerm s.a.ck s.a.star

/-- `ubx_ck_ok`, 42_ubx.md R149. -/
def State.ubxCkOk (s : State) : Bool := s.u.rxA == s.u.ckA && s.u.rxB == s.u.ckB

/-- `ack_applies` for a checksum-valid frame, 42_ubx.md R152. -/
def State.ackApplies (s : State) : Bool :=
  (ubxKind s.u.cls s.u.id == .ackAck || ubxKind s.u.cls s.u.id == .ackNak) && decide (2 ≤ s.cur)

/-- The silent conditions by name (60_exceptions.md R201). They are recorded nowhere and have no
numeric code (R200), so they are no part of State (log 9). -/
inductive Condition where
  | ckMismatchText | ckMismatchUbx | truncatedPayload | truncatedTerm | syncFail
deriving DecidableEq, Repr

/-- `TRUNCATED` of the payload buffer: `store` would keep nothing (20_memory.md R44). -/
def State.payloadFull (s : State) : Bool := !decide (s.cur < s.params.payloadCap)

/-- A condition that holds or not, as a list. -/
def condIf (p : Bool) (c : Condition) : List Condition := if p then [c] else []

/-- The silent conditions an operation meets in a state (60_exceptions.md R201). The priming stores of
the dispatcher follow `clear()` and cannot meet `TRUNCATED`. -/
def conditions (i : Instr) (s : State) : List Condition :=
  match i with
  | .dStartNmea held => condIf (held != .sIdle) .syncFail
  | .dUbxSync1 held => condIf (held != .sIdle) .syncFail
  | .dUbxConfirm => []
  | .dUniSync1 held => condIf (held != .sIdle) .syncFail
  | .dUniSync2 => []
  | .dUnibConfirm => []
  | .dStartRtcm held => condIf (held != .sIdle) .syncFail
  | .dDiscard held _ => condIf (held != .sIdle) .syncFail
  | .nChar _ => condIf (!decide (s.n.tidx < s.params.nmeaTermCap)) .truncatedTerm
  | .nComma => []
  | .nStar => []
  | .nCr => condIf (!s.nmeaCkOk) .ckMismatchText
  | .uClass _ => []
  | .uId _ => []
  | .uLenLo _ => []
  | .uLenHi _ => []
  | .uPayload _ => condIf s.payloadFull .truncatedPayload
  | .uCkA _ => []
  | .uCkB b => condIf (!(s.u.rxA == s.u.ckA && b == s.u.ckB)) .ckMismatchUbx
  | .aChar _ => condIf (!decide (s.a.tidx < s.params.uniTermCap)) .truncatedTerm
  | .aColon => condIf (!decide (s.a.tidx < s.params.uniTermCap)) .truncatedTerm
  | .aComma => []
  | .aStar => []
  | .aCr => condIf (!s.uniCkOk) .ckMismatchText
  | .bHeader _ => condIf s.payloadFull .truncatedPayload
  | .bBody _ => condIf s.payloadFull .truncatedPayload
  | .rLenHi _ => condIf s.payloadFull .truncatedPayload
  | .rLenLo _ => condIf s.payloadFull .truncatedPayload
  | .rBody _ => condIf s.payloadFull .truncatedPayload

end Sys2Proof.Machine
end

