-- ==== Sys2Proof/Machine/UnicoreAscii.lean ====
section
/-! DEFINITION. The Unicore ASCII framer (43_unicore_framers.md, part 1). -/

namespace Sys2Proof.Machine

/-- The TERM item the open Unicore term closes to (43_unicore_framers.md R163). -/
def State.uniTermItem (s : State) : TermItem :=
  { proto := .unicore, tnum := s.a.tnum, text := s.a.toTermBuf.text .uniTerm }

/-- Emits the closed term, and remembers it for the response code (43_unicore_framers.md R163, R166). -/
def State.closeUni (s : State) : State :=
  { s with a := { s.a with terms := s.a.terms ++ [s.uniTermItem] } }.emitTerm s.uniTermItem

/-- The term number and the index of the next Unicore term (43_unicore_framers.md R163). -/
def State.nextUniTerm (s : State) : State :=
  { s with a := { s.a with tnum := satInc s.a.tnum, tidx := 0 } }

/-- What `A.COMMA` does, also as the second half of the hand-off (43_unicore_framers.md R163): the
colon region ends before the comma (decision D18, log 20). -/
def State.uniComma (s : State) : State :=
  let closed := s.closeUni
  let reopened := { closed with a := { closed.a with colon := false } }
  (reopened.foldA (!reopened.a.star) 0x2C).nextUniTerm

/-- What `A.STAR` does, also as the second half of the hand-off (43_unicore_framers.md R164). -/
def State.uniStar (s : State) : State :=
  let closed := s.closeUni
  { closed with a := { closed.a with colon := false, star := true } }.nextUniTerm

/-- `A.CHAR`, 43_unicore_framers.md R161. -/
def execAChar (b : Byte) (s : State) : Host.Outcome State Fault Refusal :=
  .next ((s.foldA (!s.a.star && !s.a.colon) b).tappendA b)

/-- `A.COLON`, 43_unicore_framers.md R162: the colon itself is folded, what follows it is not. -/
def execAColon (s : State) : Host.Outcome State Fault Refusal :=
  let folded := s.foldA (!s.a.star && !s.a.colon) 0x3A
  .next ({ folded with a := { folded.a with colon := true } }.tappendA 0x3A)

/-- `A.COMMA`, 43_unicore_framers.md R163. -/
def execAComma (s : State) : Host.Outcome State Fault Refusal := .next s.uniComma

/-- `A.STAR`, 43_unicore_framers.md R164. -/
def execAStar (s : State) : Host.Outcome State Fault Refusal := .next s.uniStar

/-- `A.CR`, 43_unicore_framers.md R165: the event when the received checksum matches, and idle either
way. The response code is the free value `unicore_resp` of the sentence's terms (R166). -/
def execACr (s : State) : Host.Outcome State Fault Refusal :=
  let checked := if s.uniCkOk then s.emitEvt .unicore (.unicore (Config.unicoreResp s.a.terms)) [] else s
  .next checked.toIdle

end Sys2Proof.Machine
end

