-- ==== Sys2Proof/Machine/Nmea.lean ====
section
/-! DEFINITION. The NMEA sentence framer (41_nmea.md): term closure, classification, the hand-off to
the Unicore ASCII framer and the four operations. -/

namespace Sys2Proof.Machine

/-- `classify`, 41_nmea.md R126: characters 2 to 4 of term 0, if at least five were kept (decision D12, log 16). -/
def State.classify (s : State) : SentenceType :=
  if 5 ≤ s.n.tidx then sentenceType (s.n.term.bytes .nmeaTerm 2 3) else .none

/-- The hand-off test, 41_nmea.md R125 and R127: term 0 is kept as exactly `command`. -/
def State.handsOff (s : State) : Bool :=
  s.n.tnum == 0 && s.n.tidx == 7 && s.n.term.bytes .nmeaTerm 0 7 == commandText

/-- `a.term[0..6] <- n.term[0..6]`, byte by byte (41_nmea.md R127). -/
def copyTerm (n a : Memory) (count : Nat) : Memory :=
  match count with
  | 0 => a
  | k + 1 => (copyTerm n a k).write k (n.byteAt .nmeaTerm k)

/-- `hand-off`, 41_nmea.md R127: the checksum is carried over and the Unicore sub-state starts with
the closed term still open. -/
def State.handOff (s : State) : State :=
  { s.clear with
    proto := .unicore,
    a := { term := copyTerm s.n.term s.a.term 7, tidx := 7, tnum := 0, ck := s.n.ck,
           star := false, colon := false, terms := [] } }

/-- `close_n()` without the hand-off, 41_nmea.md R125: the TERM item, and for term 0 the sentence type. -/
def State.closeNmea (s : State) : State :=
  let item : TermItem := { proto := .nmea, tnum := s.n.tnum, text := s.n.toTermBuf.text .nmeaTerm }
  { s with n := { s.n with stype := if s.n.tnum = 0 then s.classify else s.n.stype } }.emitTerm item

/-- The term number and the index of the next NMEA term (41_nmea.md R122). -/
def State.nextNmeaTerm (s : State) : State :=
  { s with n := { s.n with tnum := satInc s.n.tnum, tidx := 0 } }

/-- `N.CHAR`, 41_nmea.md R121. -/
def execNChar (b : Byte) (s : State) : Host.Outcome State Fault Refusal :=
  .next ((s.foldN b).tappendN b)

/-- `N.COMMA`, 41_nmea.md R122; on the hand-off the step ends in `A.COMMA` (R127). -/
def execNComma (s : State) : Host.Outcome State Fault Refusal :=
  .next (if s.handsOff then s.handOff.uniComma else (s.closeNmea.foldN 0x2C).nextNmeaTerm)

/-- `N.STAR`, 41_nmea.md R123; on the hand-off the step ends in `A.STAR` (R127). -/
def execNStar (s : State) : Host.Outcome State Fault Refusal :=
  let closed := s.closeNmea
  .next (if s.handsOff then s.handOff.uniStar
    else { closed with n := { closed.n with star := true } }.nextNmeaTerm)

/-- `N.CR`, 41_nmea.md R124: the event when the received checksum matches, and idle either way. -/
def execNCr (s : State) : Host.Outcome State Fault Refusal :=
  let checked := if s.nmeaCkOk then s.emitEvt .nmea (.nmea s.n.stype) [] else s
  .next checked.toIdle

end Sys2Proof.Machine
end

