-- ==== Sys2Proof/Machine/Rtcm.lean ====
section
/-! DEFINITION. The RTCM3 frame header decoder (44_rtcm3.md). -/

namespace Sys2Proof.Machine

/-- `R.LEN_HI`, 44_rtcm3.md R181: bits 7:2 of the byte are not examined. -/
def execRLenHi (b : Byte) (s : State) : Host.Outcome State Fault Refusal :=
  .next { s.store b with r := { s.r with len := setRtcmLenHi s.r.len b, cnt := 2 } }

/-- `R.LEN_LO`, 44_rtcm3.md R182. -/
def execRLenLo (b : Byte) (s : State) : Host.Outcome State Fault Refusal :=
  .next { s.store b with
    r := { s.r with len := setRtcmLenLo s.r.len b, total := rtcmTotal (setRtcmLenLo s.r.len b), cnt := 3 } }

/-- The completion of an RTCM3 frame, 44_rtcm3.md R183 and R186. -/
def State.rtcmComplete (s : State) : State :=
  let typed := { s with r := { s.r with mtype := rtcmType (s.bufByte 3) (s.bufByte 4) } }
  (typed.emitEvt .rtcm (.rtcm typed.r.mtype typed.r.len typed.r.total) typed.frame).toIdle

/-- `R.BODY`, 44_rtcm3.md R183: the frame completes on exactly its `r.total`-th byte (R185). -/
def execRBody (b : Byte) (s : State) : Host.Outcome State Fault Refusal :=
  let taken := { s.store b with r := { s.r with cnt := s.r.cnt + 1 } }
  .next (if taken.r.cnt = taken.r.total then taken.rtcmComplete else taken)

end Sys2Proof.Machine
end

