-- ==== Sys2Proof/Machine/Ubx.lean ====
section
/-! DEFINITION. The UBX binary frame parser (42_ubx.md). -/

namespace Sys2Proof.Machine

/-- `u.pos <- p`. -/
def State.setUbxPos (s : State) (p : Count17) : State := { s with u := { s.u with pos := p } }

/-- `U.CLASS`, 42_ubx.md R142. -/
def execUClass (b : Byte) (s : State) : Host.Outcome State Fault Refusal :=
  .next (({ s with u := { s.u with cls := b } }.foldU b).setUbxPos 1)

/-- `U.ID`, 42_ubx.md R143. -/
def execUId (b : Byte) (s : State) : Host.Outcome State Fault Refusal :=
  .next (({ s with u := { s.u with id := b } }.foldU b).setUbxPos 2)

/-- `U.LEN_LO`, 42_ubx.md R144. -/
def execULenLo (b : Byte) (s : State) : Host.Outcome State Fault Refusal :=
  .next (({ s with u := { s.u with len := setLenLo s.u.len b } }.foldU b).setUbxPos 3)

/-- `U.LEN_HI`, 42_ubx.md R145. -/
def execULenHi (b : Byte) (s : State) : Host.Outcome State Fault Refusal :=
  .next (({ s with u := { s.u with len := setLenHi s.u.len b } }.foldU b).setUbxPos 4)

/-- `U.PAYLOAD`, 42_ubx.md R146: a truncated byte is folded and counted like a kept one (decision D8, log 14). -/
def execUPayload (b : Byte) (s : State) : Host.Outcome State Fault Refusal :=
  .next (((s.store b).foldU b).setUbxPos (s.u.pos + 1))

/-- `U.CK_A`, 42_ubx.md R147. -/
def execUCkA (b : Byte) (s : State) : Host.Outcome State Fault Refusal :=
  .next ({ s with u := { s.u with rxA := b } }.setUbxPos (s.u.pos + 1))

/-- The ACK item of the frame in the buffer, 42_ubx.md R151. -/
def State.ackItem (s : State) : AckItem :=
  { wasAck := s.u.id == 0x01, cls := s.bufByte 0, id := s.bufByte 1 }

/-- The EVT and ACK items of a checksum-valid frame, 42_ubx.md R148, R151 and R152. -/
def State.ubxReport (s : State) : State :=
  let told := s.emitEvt .ubx (.ubx s.u.cls s.u.id (ubxKind s.u.cls s.u.id) s.u.len) s.frame
  if s.ackApplies then told.emitAck s.ackItem else told

/-- `U.CK_B`, 42_ubx.md R148. -/
def execUCkB (b : Byte) (s : State) : Host.Outcome State Fault Refusal :=
  let received := { s with u := { s.u with rxB := b } }
  let checked := if received.ubxCkOk then received.ubxReport else received
  .next checked.toIdle

end Sys2Proof.Machine
end

