-- ==== Sys2Proof/Machine/UnicoreBinary.lean ====
section
/-! DEFINITION. The Unicore binary framer (43_unicore_framers.md, part 2). -/

namespace Sys2Proof.Machine

/-- `store(b); b.cnt <- b.cnt + 1`, 43_unicore_framers.md R171 and R172. -/
def State.unibTake (s : State) (b : Byte) : State :=
  { s.store b with b := { s.b with cnt := s.b.cnt + 1 } }

/-- The header fields, 43_unicore_framers.md R173, at the offsets of 00_scope.md R7. -/
def State.unibReadHeader (s : State) : State :=
  let mlen := half (s.bufByte s.params.unibLenOff) (s.bufByte (s.params.unibLenOff + 1))
  { s with b := { s.b with
      mid := half (s.bufByte s.params.unibIdOff) (s.bufByte (s.params.unibIdOff + 1)),
      mlen := mlen,
      total := unibTotal mlen s.params.unibTrailerLen } }

/-- `complete`, 43_unicore_framers.md R174, if the frame's last byte has been taken. -/
def State.unibComplete (s : State) : State :=
  if s.b.cnt = s.b.total then (s.emitEvt .unicoreBinary (.unicoreBinary s.b.mid s.b.mlen) s.frame).toIdle
  else s

/-- `B.HEADER`, 43_unicore_framers.md R171. -/
def execBHeader (b : Byte) (s : State) : Host.Outcome State Fault Refusal :=
  let taken := s.unibTake b
  .next (if taken.b.cnt.toNat = Config.unibHdrLen then taken.unibReadHeader.unibComplete else taken)

/-- `B.BODY`, 43_unicore_framers.md R172. -/
def execBBody (b : Byte) (s : State) : Host.Outcome State Fault Refusal :=
  .next (s.unibTake b).unibComplete

end Sys2Proof.Machine
end

