-- ==== Sys2Proof/Machine/Dispatch.lean ====
section
/-! DEFINITION. One arm for each step operation (30_encoding.md R81). -/

namespace Sys2Proof.Machine

def exec (i : Instr) (s : State) : Host.Outcome State Fault Refusal :=
  match i with
  | .dStartNmea held => Sys2Proof.Machine.execDStartNmea held s
  | .dUbxSync1 held => Sys2Proof.Machine.execDUbxSync1 held s
  | .dUbxConfirm => Sys2Proof.Machine.execDUbxConfirm s
  | .dUniSync1 held => Sys2Proof.Machine.execDUniSync1 held s
  | .dUniSync2 => Sys2Proof.Machine.execDUniSync2 s
  | .dUnibConfirm => Sys2Proof.Machine.execDUnibConfirm s
  | .dStartRtcm held => Sys2Proof.Machine.execDStartRtcm held s
  | .dDiscard held b => Sys2Proof.Machine.execDDiscard held b s
  | .nChar b => Sys2Proof.Machine.execNChar b s
  | .nComma => Sys2Proof.Machine.execNComma s
  | .nStar => Sys2Proof.Machine.execNStar s
  | .nCr => Sys2Proof.Machine.execNCr s
  | .uClass b => Sys2Proof.Machine.execUClass b s
  | .uId b => Sys2Proof.Machine.execUId b s
  | .uLenLo b => Sys2Proof.Machine.execULenLo b s
  | .uLenHi b => Sys2Proof.Machine.execULenHi b s
  | .uPayload b => Sys2Proof.Machine.execUPayload b s
  | .uCkA b => Sys2Proof.Machine.execUCkA b s
  | .uCkB b => Sys2Proof.Machine.execUCkB b s
  | .aChar b => Sys2Proof.Machine.execAChar b s
  | .aColon => Sys2Proof.Machine.execAColon s
  | .aComma => Sys2Proof.Machine.execAComma s
  | .aStar => Sys2Proof.Machine.execAStar s
  | .aCr => Sys2Proof.Machine.execACr s
  | .bHeader b => Sys2Proof.Machine.execBHeader b s
  | .bBody b => Sys2Proof.Machine.execBBody b s
  | .rLenHi b => Sys2Proof.Machine.execRLenHi b s
  | .rLenLo b => Sys2Proof.Machine.execRLenLo b s
  | .rBody b => Sys2Proof.Machine.execRBody b s

end Sys2Proof.Machine
end

