-- ==== Sys2Proof/Machine/Step.lean ====
section
/-! DEFINITION. One step of the machine (00_scope.md R8) and the host's way to place an instruction. -/

namespace Sys2Proof.Machine

/-- The step that consumes the byte `b`, with `rest` still waiting: the context is taken from the
state, one operation is selected and performed (60_exceptions.md R206). -/
def stepByte (b : Byte) (rest : List Stimulus) (s : State) : Host.Outcome State Fault Refusal :=
  match s.context with
  | some c => exec (decode c b) (s.consume rest)
  | none => if s.proto = .invalid then .refused .protoInvalid else .fault .noContext

/-- One step: a waiting byte is consumed (00_scope.md R8), a waiting `init` is performed
(70_reset_and_hazards.md R231), and with nothing waiting nothing happens but that the ports are free (log 1). -/
def step (s : State) : Host.Outcome State Fault Refusal :=
  match s.input with
  | [] => .next s.clearPorts
  | .byte b :: rest => stepByte b rest s
  | .init :: rest => .next { s with input := rest }.init

/-- The state whose very next step runs the instruction of a table word: its byte stands first at the
input and the state stands in the context the word is read in (log 2). -/
def State.withFetchWord (s : State) (_nbits w : Nat) : State :=
  let placed := s.placeIn (tableContext (BitVec.ofNat 8 w))
  { placed with input := .byte (BitVec.ofNat 8 w) :: placed.input }

end Sys2Proof.Machine
end

