-- ==== Sys2Proof/Safety.lean ====
section
/-! DEFINITION. The invariant of the session at step boundaries, what two states must share for a step
to treat them alike, and the running of a byte stream, in the terms the claims use. -/

namespace Sys2Proof.Machine

/-- A buffer is canonical, lies inside its capacity, and lists every index below its cursor
(10_state.md R19: what a rule reads has been written). -/
def BufferOk (m : Memory) (count cap : Nat) : Prop :=
  m.wf = true ∧ count ≤ cap ∧ (∀ c ∈ m, c.1 < cap) ∧ ∀ i, i < count → (m.read i).isSome = true

/-- The framer state register: never `INVALID`, no byte held while a frame is active (10_state.md R11,
R13), and nothing in the payload buffer while no protocol that uses it is active (20_memory.md R47). -/
def FramerOk (s : State) : Prop :=
  s.proto ≠ .invalid ∧ (s.proto ≠ .none → s.sync = .sIdle) ∧
  (s.proto = .none ∨ s.proto = .nmea ∨ s.proto = .unicore → s.cur = 0)

/-- The NMEA sub-state while live: the type is `NONE` and no `*` was seen until term 0 is closed
(10_state.md R14, 41_nmea.md R126). -/
def NmeaOk (s : State) : Prop :=
  s.proto = .nmea → s.n.tnum = 0 → s.n.stype = .none ∧ s.n.star = false

/-- The Unicore-ASCII sub-state while live: term 0 is closed at every step boundary
(43_unicore_framers.md R167), and the term number counts the TERM items of the sentence. -/
def UniOk (s : State) : Prop :=
  s.proto = .unicore → 1 ≤ s.a.terms.length ∧ s.a.tnum.toNat = min s.a.terms.length 255 ∧
    ∀ t ∈ s.a.terms, t.proto = .unicore

/-- The UBX sub-state while live: the position is in the frame, the length is built up low byte first,
and the buffer holds the payload bytes taken so far, cut at the capacity (20_memory.md R47, 42_ubx.md R153). -/
def UbxOk (s : State) : Prop :=
  s.proto = .ubx → s.u.pos.toNat ≤ 5 + s.u.len.toNat ∧
    (s.u.pos.toNat ≤ 2 → s.u.len = 0) ∧ (s.u.pos.toNat = 3 → s.u.len.toNat < 256) ∧
    s.cur = min (min (s.u.pos.toNat - 4) s.u.len.toNat) s.params.payloadCap

/-- The RTCM sub-state while live: the count is inside the frame, the length law holds once the header
is in, and the buffer holds the frame from the preamble on (44_rtcm3.md R184, 20_memory.md R47). -/
def RtcmOk (s : State) : Prop :=
  s.proto = .rtcm → 1 ≤ s.r.cnt.toNat ∧
    (3 ≤ s.r.cnt.toNat → s.r.total.toNat = 6 + s.r.len.toNat ∧ s.r.cnt.toNat < s.r.total.toNat) ∧
    s.cur = min s.r.cnt.toNat s.params.payloadCap ∧ s.buf.read 0 = some 0xD3

/-- The Unicore-binary sub-state while live: the count is inside the frame, the total is that of the
announced length once the header is in, and the buffer holds the frame from the sync bytes on
(43_unicore_framers.md R170, R173, 20_memory.md R47). -/
def UnibOk (s : State) : Prop :=
  s.proto = .unicoreBinary → 3 ≤ s.b.cnt.toNat ∧
    (24 ≤ s.b.cnt.toNat → s.b.cnt.toNat < s.b.total.toNat ∧
      s.b.total.toNat = 24 + s.b.mlen.toNat + s.params.unibTrailerLen) ∧
    s.cur = min s.b.cnt.toNat s.params.payloadCap ∧
    s.buf.read 0 = some 0xAA ∧ s.buf.read 1 = some 0x44 ∧ s.buf.read 2 = some 0xB5

/-- The invariant of a session at every step boundary. -/
structure Inv (s : State) : Prop where
  params : s.params.ok = true
  buf : BufferOk s.buf s.cur s.params.payloadCap
  nterm : BufferOk s.n.term s.n.tidx s.params.nmeaTermCap
  aterm : BufferOk s.a.term s.a.tidx s.params.uniTermCap
  framer : FramerOk s
  nmea : NmeaOk s
  uni : UniOk s
  ubx : UbxOk s
  rtcm : RtcmOk s
  unib : UnibOk s

/-- Two buffers hold the same bytes below a cursor. -/
def SameBelow (m m' : Memory) (count : Nat) : Prop := ∀ i, i < count → m.read i = m'.read i

/-- Two states that no later step can tell apart: they agree on the parameters, on `proto` and `sync`,
on the ports and the input, on the payload buffer below the cursor, and on the live sub-state, its term
buffer below the index (10_state.md R21 and R19). -/
structure SameLive (s t : State) : Prop where
  params : s.params = t.params
  proto : s.proto = t.proto
  sync : s.sync = t.sync
  cur : s.cur = t.cur
  buf : SameBelow s.buf t.buf s.cur
  evt : s.evt = t.evt
  termOut : s.termOut = t.termOut
  ack : s.ack = t.ack
  input : s.input = t.input
  nmea : s.proto = .nmea →
    SameBelow s.n.term t.n.term s.n.tidx ∧ { s.n with term := [] } = { t.n with term := [] }
  uni : s.proto = .unicore →
    SameBelow s.a.term t.a.term s.a.tidx ∧ { s.a with term := [] } = { t.a with term := [] }
  ubx : s.proto = .ubx → s.u = t.u
  rtcm : s.proto = .rtcm → { s.r with mtype := 0 } = { t.r with mtype := 0 }
  unib : s.proto = .unicoreBinary → s.b = t.b

/-- Idle with nothing held and nothing waiting: where a stream can begin (10_state.md R25). -/
def Idle (s : State) : Prop := s.proto = .none ∧ s.sync = .sIdle ∧ s.cur = 0 ∧ s.input = []

/-- No port carries an item. -/
def Quiet (s : State) : Prop := s.evt = none ∧ s.termOut = none ∧ s.ack = none

/-- Feeding the bytes and running one step for each of them ends in `t` (00_scope.md R8). -/
def Runs (s : State) (bytes : List Byte) (t : State) : Prop :=
  Host.Core.run Sys2Proof.core bytes.length (s.feed bytes) = .next t

/-- After every proper non-empty part of the bytes the ports are quiet: nothing is emitted before the last byte. -/
def QuietUntilLast (s : State) (bytes : List Byte) : Prop :=
  ∀ k, 0 < k → k < bytes.length → ∃ t, Runs s (bytes.take k) t ∧ Quiet t

/-- The running XOR of a text (30_encoding.md R85). -/
def xorAll (bytes : List Byte) : Byte := bytes.foldl (· ^^^ ·) 0

/-- The UBX checksum pair of a byte range, both sums from 0 (42_ubx.md R141). -/
def ubxSums (bytes : List Byte) : Byte × Byte :=
  bytes.foldl (fun p v => (p.1 + v, p.2 + (p.1 + v))) (0, 0)

/-- The received checksum of a text sentence equals the running one (30_encoding.md R89), said with
numbers: a `*` was seen, the checksum term is two hexadecimal digits, and the first counts sixteen. -/
def ReceivedMatches (t : TermBuf) (name : BufferName) (ck : Byte) (star : Bool) : Prop :=
  star = true ∧ t.tidx = 2 ∧ ∃ h l : Byte,
    hexval (t.term.byteAt name 0) = some h ∧ hexval (t.term.byteAt name 1) = some l ∧
    ck.toNat = 16 * h.toNat + l.toNat

/-- Term 0 of the NMEA sentence is kept as exactly `command` (41_nmea.md R127). -/
abbrev KeptCommand (s : State) : Prop :=
  s.n.tnum = 0 ∧ s.n.tidx = 7 ∧ s.n.term.bytes .nmeaTerm 0 7 = commandText

/-- The sentence type that a kept text of term 0 classifies to (41_nmea.md R126). -/
def typeOfText (kept : List Byte) : SentenceType :=
  if 5 ≤ kept.length then sentenceType ((kept.drop 2).take 3) else .none

/-- The bytes of a Unicore sentence body that its checksum covers, from a point where a colon has or
has not been seen in the current term (43_unicore_framers.md R168). -/
def uniCovered (colon : Bool) (bytes : List Byte) : List Byte :=
  match bytes with
  | [] => []
  | b :: rest =>
    if b = 0x2A then []
    else if b = 0x2C then b :: uniCovered false rest
    else if colon then uniCovered true rest
    else b :: uniCovered (b == 0x3A) rest

end Sys2Proof.Machine
end

