-- ==== Sys2Proof/Certificates/Slice0/Obligations.lean ====
section
/-! DEFINITION. The statements for the provers. The record update in a result says the frame: every
register, port and byte of memory that it does not name is unchanged. -/

open Sys2Proof Sys2Proof.Machine

/-! ## Encoding and decoding -/

/-- Decoding an encoded well-formed instruction gives it back, with every operand it can carry
(30_encoding.md section 4). -/
def Obligations.DecodeEncodeAgree : Prop :=
  ∀ i : Instr, i.wf = true → decode (encode i).1 (encode i).2 = i

/-- Encoding a decoded byte gives back its context and the byte, and what is decoded is well-formed:
every byte is an instruction in every context (30_encoding.md R80, R82). -/
def Obligations.EncodeDecodeAgree : Prop :=
  ∀ (c : Context) (b : Byte), (decode c b).wf = true ∧ encode (decode c b) = (c, b)

/-- The decoder selects, in every context and for every byte, the operation of the first row of the
operation map that applies (30_encoding.md R81). -/
def Obligations.DecodeFollowsOperationMap : Prop :=
  ∀ (c : Context) (b : Byte), lookupOp c b = some (decode c b).op

/-- 40_dispatcher.md R110: in a context of an active protocol no byte selects a dispatcher operation,
the start bytes included. -/
def Obligations.ActiveProtocolIgnoresStartBytes : Prop :=
  ∀ (s : State) (c : Context) (b : Byte), s.proto ≠ .none → s.context = some c →
    (decode c b).op ∉ [Op.dStartNmea, .dUbxSync1, .dUbxConfirm, .dUniSync1, .dUniSync2, .dUnibConfirm,
      .dStartRtcm, .dDiscard]

/-- The context is found from the framer state (30_encoding.md R80). That a position no rule gives
has no context is the model's reading (log 10). -/
def Obligations.ContextFromFramerState : Prop :=
  ∀ s : State,
    (s.proto = .none → s.context = some (.sync s.sync)) ∧
    (s.proto = .nmea → s.context = some .nmea) ∧
    (s.proto = .unicore → s.context = some .unicore) ∧
    (s.proto = .ubx → ∀ p l : Nat, s.u.pos.toNat = p → s.u.len.toNat = l →
      (p = 0 → s.context = some .ubxP0) ∧ (p = 1 → s.context = some .ubxP1) ∧
      (p = 2 → s.context = some .ubxP2) ∧ (p = 3 → s.context = some .ubxP3) ∧
      (4 ≤ p → p < 4 + l → s.context = some .ubxPayload) ∧
      (p = 4 + l → s.context = some .ubxCkA) ∧ (p = 5 + l → s.context = some .ubxCkB) ∧
      (5 + l < p → s.context = none)) ∧
    (s.proto = .rtcm →
      (s.r.cnt.toNat = 0 → s.context = none) ∧ (s.r.cnt.toNat = 1 → s.context = some .rtcmC1) ∧
      (s.r.cnt.toNat = 2 → s.context = some .rtcmC2) ∧ (3 ≤ s.r.cnt.toNat → s.context = some .rtcmBody)) ∧
    (s.proto = .unicoreBinary →
      (s.b.cnt.toNat < 24 → s.context = some .unibHdr) ∧ (24 ≤ s.b.cnt.toNat → s.context = some .unibBody)) ∧
    (s.proto = .invalid → s.context = none)

/-- One byte of each family, in its context, decodes to the operation of its row (opcode_table.json). -/
def Obligations.SampleBytesDecode : Prop :=
  decode (.sync .sIdle) 0x24 = .dStartNmea .sIdle ∧
  decode (.sync .sUbx1) 0x62 = .dUbxConfirm ∧
  decode (.sync .sUni2) 0xB5 = .dUnibConfirm ∧
  decode (.sync .sIdle) 0x62 = .dDiscard .sIdle 0x62 ∧
  decode .nmea 0x2C = .nComma ∧
  decode .nmea 0x24 = .nChar 0x24 ∧
  decode .unicore 0x3A = .aColon ∧
  decode .ubxPayload 0xB5 = .uPayload 0xB5 ∧
  decode .unibHdr 0xB5 = .bHeader 0xB5 ∧
  decode .rtcmC1 0xFC = .rLenHi 0xFC

/-! ## The step -/

/-- A step with a byte waiting runs exactly the decoded operation, on the state with the byte taken
off the input and the ports free (00_scope.md R8, 60_exceptions.md R206). -/
def Obligations.StepRunsDecodedInstruction : Prop :=
  ∀ (s : State) (b : Byte) (rest : List Stimulus) (c : Context),
    s.input = .byte b :: rest → s.context = some c →
    step s = exec (decode c b) { s with input := rest, evt := none, termOut := none, ack := none }

/-- With nothing waiting a step only frees the ports: the model's choice (log 1). -/
def Obligations.StepWithoutInputWaits : Prop :=
  ∀ s : State, s.input = [] → step s = .next { s with evt := none, termOut := none, ack := none }

/-- A waiting `init` puts every register at its reset value whatever the state was, forgets the frame
in progress without an event, and changes neither the parameters nor what stands behind it
(70_reset_and_hazards.md section 1, decisions D7 and D23, log 1 and log 4). -/
def Obligations.InitResetsEverything : Prop :=
  ∀ (s : State) (rest : List Stimulus), s.input = .init :: rest →
    step s = .next
      { params := s.params, proto := .none, sync := .sIdle
        n := { term := [], tidx := 0, tnum := 0, ck := 0, star := false, stype := .none }
        u := { pos := 0, cls := 0, id := 0, len := 0, rxA := 0, rxB := 0, ckA := 0, ckB := 0 }
        r := { len := 0, mtype := 0, cnt := 0, total := 0 }
        a := { term := [], tidx := 0, tnum := 0, ck := 0, star := false, colon := false, terms := [] }
        b := { cnt := 0, mid := 0, mlen := 0, total := 0 }
        buf := [], cur := 0, evt := none, termOut := none, ack := none, input := rest }

/-- The machine stops only outside the operation map: with a byte waiting and `proto` `INVALID` it
refuses, with a byte waiting and a live position that no context covers it is stuck, and in every
other state it goes on. Where it stops is the model's choice (log 10). -/
def Obligations.StepStopsOnlyOutsideTheMap : Prop :=
  ∀ s : State,
    ((∃ b rest, s.input = .byte b :: rest) → s.proto = .invalid → step s = .refused .protoInvalid) ∧
    ((∃ b rest, s.input = .byte b :: rest) → s.proto ≠ .invalid → s.context = none →
      step s = .fault .noContext) ∧
    ((¬ ∃ b rest, s.input = .byte b :: rest) ∨ s.context ≠ none → ∃ t, step s = .next t)

/-- No step changes the parameters: the static configuration is fixed for the life of a session
(10_state.md R23). -/
def Obligations.ParametersNeverChange : Prop :=
  ∀ s t : State, step s = .next t → t.params = s.params

/-! ## Reset and the invariant -/

/-- The state after `init` with the parameters of this hardware (10_state.md R25, decision D7; the
parameters 00_scope.md R7; the input log 1). No buffer lists a byte (log 5). -/
def Obligations.ResetIsIdle : Prop :=
  let s := State.reset
  s.proto = .none ∧ s.sync = .sIdle ∧ s.cur = 0 ∧
  (s.n.tidx = 0 ∧ s.n.tnum = 0 ∧ s.n.ck = 0 ∧ s.n.star = false ∧ s.n.stype = .none) ∧
  (s.u.pos = 0 ∧ s.u.cls = 0 ∧ s.u.id = 0 ∧ s.u.len = 0 ∧ s.u.rxA = 0 ∧ s.u.rxB = 0 ∧ s.u.ckA = 0 ∧ s.u.ckB = 0) ∧
  (s.r.len = 0 ∧ s.r.mtype = 0 ∧ s.r.cnt = 0 ∧ s.r.total = 0) ∧
  (s.a.tidx = 0 ∧ s.a.tnum = 0 ∧ s.a.ck = 0 ∧ s.a.star = false ∧ s.a.colon = false) ∧
  (s.b.cnt = 0 ∧ s.b.mid = 0 ∧ s.b.mlen = 0 ∧ s.b.total = 0) ∧
  (∀ i, s.buf.read i = none ∧ s.n.term.read i = none ∧ s.a.term.read i = none) ∧
  s.evt = none ∧ s.termOut = none ∧ s.ack = none ∧ s.input = [] ∧
  s.params = { payloadCap := 1029, nmeaTermCap := 20, uniTermCap := 32, unibLenOff := 6, unibIdOff := 4, unibTrailerLen := 4 }

/-- The invariant holds after reset. -/
def Obligations.ResetMeetsInvariant : Prop := Inv State.reset

/-- Every step keeps the invariant, from every state that has it: the buffers stay canonical and
within their capacity with every index below the cursor written, `proto` never becomes `INVALID`, and
the live counters stay inside the frame (10_state.md R13, R19, R21; 20_memory.md R47; 44_rtcm3.md R184). -/
def Obligations.StepKeepsInvariant : Prop :=
  ∀ s t : State, Inv s → step s = .next t → Inv t

/-- From a state with the invariant no byte is illegal and nothing traps: every step goes on
(30_encoding.md R82). -/
def Obligations.InvariantNeverStops : Prop :=
  ∀ s : State, Inv s → ∃ t, step s = .next t

/-! ## The dispatcher -/

/-- `D.START_NMEA`, 40_dispatcher.md R101. -/
def Obligations.StartNmeaOpensSentence : Prop :=
  ∀ (held : Sync) (s : State),
    encode (.dStartNmea held) = (.sync held, 0x24) ∧
    exec (.dStartNmea held) s = .next { s with
      proto := .nmea, sync := .sIdle, cur := 0
      n := { s.n with tidx := 0, tnum := 0, ck := 0, star := false, stype := .none } } ∧
    conditions (.dStartNmea held) s = if held = .sIdle then [] else [.syncFail]

/-- `D.UBX_SYNC1`, `D.UNI_SYNC1` and `D.UNI_SYNC2`, 40_dispatcher.md R102, R104 and R108: only `sync`
changes; in `S_UNI2` the byte 0xB5 confirms instead, and outside `S_UNI1` the byte 0x44 is discarded. The
condition is SYNC_FAIL exactly when a held sequence is not continued (60_exceptions.md R201, log 9). -/
def Obligations.SyncBytesAreHeld : Prop :=
  ∀ (held : Sync) (s : State),
    (encode (.dUbxSync1 held) = (.sync held, 0xB5) ∧ ((Instr.dUbxSync1 held).wf = true ↔ held ≠ .sUni2) ∧
      exec (.dUbxSync1 held) s = .next { s with sync := .sUbx1 } ∧
      conditions (.dUbxSync1 held) s = if held = .sIdle then [] else [.syncFail]) ∧
    (encode (.dUniSync1 held) = (.sync held, 0xAA) ∧
      exec (.dUniSync1 held) s = .next { s with sync := .sUni1 } ∧
      conditions (.dUniSync1 held) s = if held = .sIdle then [] else [.syncFail]) ∧
    (encode .dUniSync2 = (.sync .sUni1, 0x44) ∧ exec .dUniSync2 s = .next { s with sync := .sUni2 }) ∧
    (conditions .dUniSync2 s = [] ∧ conditions .dUbxConfirm s = [] ∧ conditions .dUnibConfirm s = []) ∧
    decode (.sync .sUni2) 0xB5 = .dUnibConfirm ∧
    (held ≠ .sUni1 → decode (.sync held) 0x44 = .dDiscard held 0x44)

/-- `D.DISCARD`, 40_dispatcher.md R109: the byte is dropped and nothing is held. -/
def Obligations.DiscardForgetsHeldBytes : Prop :=
  ∀ (held : Sync) (b : Byte) (s : State),
    encode (.dDiscard held b) = (.sync held, b) ∧
    ((Instr.dDiscard held b).wf = true ↔ b ∉ [0x24, 0xB5, 0xAA, 0xD3] ∧
      (held = .sUbx1 → b ≠ 0x62) ∧ (held = .sUni1 → b ≠ 0x44)) ∧
    exec (.dDiscard held b) s = .next { s with sync := .sIdle } ∧
    conditions (.dDiscard held b) s = if held = .sIdle then [] else [.syncFail]

/-- `D.UBX_CONFIRM`, 40_dispatcher.md R103. That both sums start at zero is the spec's general knowledge
(G3, log 23). -/
def Obligations.UbxConfirmOpensFrame : Prop :=
  ∀ s : State,
    encode .dUbxConfirm = (.sync .sUbx1, 0x62) ∧
    exec .dUbxConfirm s = .next { s with
      proto := .ubx, sync := .sIdle, cur := 0
      u := { pos := 0, cls := 0, id := 0, len := 0, rxA := 0, rxB := 0, ckA := 0, ckB := 0 } }

/-- `D.UNIB_CONFIRM`, 40_dispatcher.md R105: the buffer is primed with the three sync bytes. The
capacity is as 00_scope.md R7 asks. That the bytes above them stay is the model's choice (log 6). -/
def Obligations.UnibConfirmPrimesBuffer : Prop :=
  ∀ s : State, 24 ≤ s.params.payloadCap → ∃ m : Memory,
    encode .dUnibConfirm = (.sync .sUni2, 0xB5) ∧
    exec .dUnibConfirm s = .next { s with
      proto := .unicoreBinary, sync := .sIdle, buf := m, cur := 3
      b := { cnt := 3, mid := 0, mlen := 0, total := 0 } } ∧
    m.read 0 = some 0xAA ∧ m.read 1 = some 0x44 ∧ m.read 2 = some 0xB5 ∧
    ∀ i, 3 ≤ i → m.read i = s.buf.read i

/-- `D.START_RTCM`, 40_dispatcher.md R106: the buffer is primed with the preamble. The capacity is as
00_scope.md R7 asks. That the bytes above it stay is the model's choice (log 6). The condition is
SYNC_FAIL exactly when something was held (60_exceptions.md R201, log 9). -/
def Obligations.StartRtcmPrimesBuffer : Prop :=
  ∀ (held : Sync) (s : State), 24 ≤ s.params.payloadCap → ∃ m : Memory,
    encode (.dStartRtcm held) = (.sync held, 0xD3) ∧
    exec (.dStartRtcm held) s = .next { s with
      proto := .rtcm, sync := .sIdle, buf := m, cur := 1
      r := { cnt := 1, len := 0, total := 0, mtype := 0 } } ∧
    m.read 0 = some 0xD3 ∧ (∀ i, 1 ≤ i → m.read i = s.buf.read i) ∧
    conditions (.dStartRtcm held) s = if held = .sIdle then [] else [.syncFail]

/-! ## The NMEA framer -/

/-- `N.CHAR`, 41_nmea.md R121: folded unless a `*` was seen, kept if it fits (decision D8, log 14). -/
def Obligations.NmeaCharFoldsAndAppends : Prop :=
  ∀ (b : Byte) (s : State),
    let ck := if s.n.star then s.n.ck else s.n.ck ^^^ b
    (s.n.tidx < s.params.nmeaTermCap → ∃ m : Memory,
      exec (.nChar b) s = .next { s with n := { s.n with ck := ck, term := m, tidx := s.n.tidx + 1 } } ∧
      (∀ i, m.read i = if i = s.n.tidx then some b else s.n.term.read i) ∧ conditions (.nChar b) s = []) ∧
    (s.params.nmeaTermCap ≤ s.n.tidx →
      exec (.nChar b) s = .next { s with n := { s.n with ck := ck } } ∧
      conditions (.nChar b) s = [.truncatedTerm])

/-- `N.COMMA` and `N.STAR` without the hand-off, 41_nmea.md R122, R123, R125 and R126: the TERM item of
the term as kept, the sentence type for term 0, the comma folded unless a `*` was seen, the next term
begun (decisions D5, D11 and D12). -/
def Obligations.NmeaDelimiterClosesTerm : Prop :=
  ∀ s : State, ¬ KeptCommand s → ∃ ty : SentenceType,
    let item : TermItem := { proto := .nmea, tnum := s.n.tnum, text := s.n.term.bytes .nmeaTerm 0 s.n.tidx }
    let num : TermNo := BitVec.ofNat 8 (min (s.n.tnum.toNat + 1) 255)
    let three := s.n.term.bytes .nmeaTerm 2 3
    exec .nComma s = .next { s with
      termOut := some item
      n := { s.n with tidx := 0, tnum := num, stype := ty, ck := if s.n.star then s.n.ck else s.n.ck ^^^ 0x2C } } ∧
    exec .nStar s = .next { s with
      termOut := some item, n := { s.n with tidx := 0, tnum := num, stype := ty, star := true } } ∧
    (s.n.tnum ≠ 0 → ty = s.n.stype) ∧
    (s.n.tnum = 0 → s.n.tidx < 5 → ty = .none) ∧
    (s.n.tnum = 0 → 5 ≤ s.n.tidx →
      (three = [0x47, 0x47, 0x41] → ty = .gga) ∧ (three = [0x52, 0x4D, 0x43] → ty = .rmc) ∧
      (three = [0x54, 0x48, 0x53] → ty = .ths) ∧
      (three ∉ [[0x47, 0x47, 0x41], [0x52, 0x4D, 0x43], [0x54, 0x48, 0x53]] → ty = .none))

/-- `N.COMMA` and `N.STAR` on the hand-off, 41_nmea.md R127 with 43_unicore_framers.md R163 and R164:
Unicore takes over in the same step with the checksum carried over, and the TERM item is tagged
UNICORE. `terms` is the model's own record of the sentence's items (log 8). -/
def Obligations.NmeaHandsOffToUnicore : Prop :=
  ∀ s : State, KeptCommand s → ∃ m : Memory,
    let item : TermItem := { proto := .unicore, tnum := 0, text := [0x63, 0x6F, 0x6D, 0x6D, 0x61, 0x6E, 0x64] }
    exec .nComma s = .next { s with
      proto := .unicore, cur := 0, termOut := some item
      a := { term := m, tidx := 0, tnum := 1, ck := s.n.ck ^^^ 0x2C, star := false, colon := false, terms := [item] } } ∧
    exec .nStar s = .next { s with
      proto := .unicore, cur := 0, termOut := some item
      a := { term := m, tidx := 0, tnum := 1, ck := s.n.ck, star := true, colon := false, terms := [item] } } ∧
    (∀ i, i < 7 → m.read i = some (item.text.getD i 0)) ∧ ∀ i, 7 ≤ i → m.read i = s.a.term.read i

/-- `N.CR`, 41_nmea.md R124: the event exactly when the received checksum matches, and idle either way
(decisions D12 and D13). -/
def Obligations.NmeaCrReportsValidSentence : Prop :=
  ∀ s : State,
    let idle := { s with proto := .none, sync := .sIdle, cur := 0 }
    (ReceivedMatches s.n.toTermBuf .nmeaTerm s.n.ck s.n.star →
      exec .nCr s = .next { idle with
        evt := some { kind := .dataParsed, proto := .nmea, msg := .nmea s.n.stype, frame := [] } } ∧
      conditions .nCr s = []) ∧
    (¬ ReceivedMatches s.n.toTermBuf .nmeaTerm s.n.ck s.n.star →
      exec .nCr s = .next idle ∧ conditions .nCr s = [.ckMismatchText])

/-- Hexadecimal digits by value, 30_encoding.md R78 (decision D13 for lower case and the rest). -/
def Obligations.HexDigitValues : Prop :=
  ∀ c : Byte,
    (0x30 ≤ c.toNat → c.toNat ≤ 0x39 → (hexval c).map BitVec.toNat = some (c.toNat - 0x30)) ∧
    (0x41 ≤ c.toNat → c.toNat ≤ 0x46 → (hexval c).map BitVec.toNat = some (c.toNat - 0x41 + 10)) ∧
    (0x61 ≤ c.toNat → c.toNat ≤ 0x66 → (hexval c).map BitVec.toNat = some (c.toNat - 0x61 + 10)) ∧
    (¬ (0x30 ≤ c.toNat ∧ c.toNat ≤ 0x39) → ¬ (0x41 ≤ c.toNat ∧ c.toNat ≤ 0x46) →
      ¬ (0x61 ≤ c.toNat ∧ c.toNat ≤ 0x66) → hexval c = none)

/-! ## The UBX parser -/

/-- `U.CLASS`, `U.ID`, `U.LEN_LO` and `U.LEN_HI`, 42_ubx.md R142 to R145, with the fold of R141 said in
numbers: both sums modulo 256, the second adding the new first. After the last the length is final and
selects the next context. -/
def Obligations.UbxHeaderBytes : Prop :=
  ∀ (b : Byte) (s : State),
    let sumA : Byte := BitVec.ofNat 8 ((s.u.ckA.toNat + b.toNat) % 256)
    let sumB : Byte := BitVec.ofNat 8 ((s.u.ckB.toNat + sumA.toNat) % 256)
    exec (.uClass b) s = .next { s with u := { s.u with cls := b, pos := 1, ckA := sumA, ckB := sumB } } ∧
    exec (.uId b) s = .next { s with u := { s.u with id := b, pos := 2, ckA := sumA, ckB := sumB } } ∧
    exec (.uLenLo b) s = .next { s with u := { s.u with
      len := BitVec.ofNat 16 (256 * (s.u.len.toNat / 256) + b.toNat), pos := 3, ckA := sumA, ckB := sumB } } ∧
    exec (.uLenHi b) s = .next { s with u := { s.u with
      len := BitVec.ofNat 16 (256 * b.toNat + s.u.len.toNat % 256), pos := 4, ckA := sumA, ckB := sumB } } ∧
    (s.proto = .ubx → ∀ t, exec (.uLenHi b) s = .next t →
      t.context = some (if t.u.len.toNat = 0 then .ubxCkA else .ubxPayload))

/-- `U.PAYLOAD`, 42_ubx.md R146 with 20_memory.md R44: kept at the cursor if it fits, folded and counted
either way (decision D8, log 14). -/
def Obligations.UbxPayloadStoresAndFolds : Prop :=
  ∀ (b : Byte) (s : State),
    let sumA : Byte := BitVec.ofNat 8 ((s.u.ckA.toNat + b.toNat) % 256)
    let sumB : Byte := BitVec.ofNat 8 ((s.u.ckB.toNat + sumA.toNat) % 256)
    let u := { s.u with pos := s.u.pos + 1, ckA := sumA, ckB := sumB }
    (s.cur < s.params.payloadCap → ∃ m : Memory,
      exec (.uPayload b) s = .next { s with buf := m, cur := s.cur + 1, u := u } ∧
      (∀ i, m.read i = if i = s.cur then some b else s.buf.read i) ∧ conditions (.uPayload b) s = []) ∧
    (s.params.payloadCap ≤ s.cur →
      exec (.uPayload b) s = .next { s with u := u } ∧ conditions (.uPayload b) s = [.truncatedPayload])

/-- `U.CK_A`, 42_ubx.md R147: recorded, not folded, not stored, not compared. -/
def Obligations.UbxFirstTrailerByteRecorded : Prop :=
  ∀ (b : Byte) (s : State),
    exec (.uCkA b) s = .next { s with u := { s.u with rxA := b, pos := s.u.pos + 1 } }

/-- `U.CK_B`, 42_ubx.md R148, R149, R151 and R152: with the computed pair received, the event with the
kept payload and, for an ACK-class frame with two kept bytes, the ACK item; otherwise nothing; idle
either way (decisions D16 and D17; the order of the trailer bytes G2). -/
def Obligations.UbxSecondTrailerByteDecides : Prop :=
  ∀ (b : Byte) (s : State),
    let idle := { s with proto := .none, sync := .sIdle, cur := 0, u := { s.u with rxB := b } }
    let told := { idle with evt := some { kind := .dataParsed, proto := .ubx, msg := .ubx s.u.cls s.u.id (ubxKind s.u.cls s.u.id) s.u.len, frame := s.buf.bytes .payload 0 s.cur } }
    let acks := s.u.cls = 0x05 ∧ (s.u.id = 0x01 ∨ s.u.id = 0x00) ∧ 2 ≤ s.cur
    (s.u.rxA = s.u.ckA → b = s.u.ckB → acks → exec (.uCkB b) s = .next { told with
      ack := some { wasAck := decide (s.u.id = 0x01), cls := s.buf.byteAt .payload 0, id := s.buf.byteAt .payload 1 } }) ∧
    (s.u.rxA = s.u.ckA → b = s.u.ckB → ¬ acks → exec (.uCkB b) s = .next told) ∧
    (s.u.rxA = s.u.ckA → b = s.u.ckB → conditions (.uCkB b) s = []) ∧
    (¬ (s.u.rxA = s.u.ckA ∧ b = s.u.ckB) →
      exec (.uCkB b) s = .next idle ∧ conditions (.uCkB b) s = [.ckMismatchUbx])

/-- The message kinds, 42_ubx.md R150 and 30_encoding.md R75 (the numbers are the spec's general
knowledge, G1). -/
def Obligations.UbxKindsByClassAndId : Prop :=
  ubxKind 0x01 0x14 = .navHpposllh ∧ ubxKind 0x01 0x3C = .navRelposned ∧
  ubxKind 0x05 0x01 = .ackAck ∧ ubxKind 0x05 0x00 = .ackNak ∧
  ∀ c i : Byte, (c, i) ∉ [((0x01 : Byte), (0x14 : Byte)), (0x01, 0x3C), (0x05, 0x01), (0x05, 0x00)] →
    ubxKind c i = .other

/-! ## The Unicore ASCII framer -/

/-- `A.CHAR` and `A.COLON`, 43_unicore_framers.md R161 and R162: folded only before a `*` and before the
term's first colon, the colon itself included; kept if it fits. -/
def Obligations.UniCharFoldsAndAppends : Prop :=
  ∀ (b : Byte) (s : State),
    let ck (v : Byte) := if s.a.star = false ∧ s.a.colon = false then s.a.ck ^^^ v else s.a.ck
    (s.a.tidx < s.params.uniTermCap → ∃ m mc : Memory,
      exec (.aChar b) s = .next { s with a := { s.a with ck := ck b, term := m, tidx := s.a.tidx + 1 } } ∧
      exec .aColon s = .next { s with
        a := { s.a with ck := ck 0x3A, colon := true, term := mc, tidx := s.a.tidx + 1 } } ∧
      (∀ i, m.read i = if i = s.a.tidx then some b else s.a.term.read i) ∧
      (∀ i, mc.read i = if i = s.a.tidx then some 0x3A else s.a.term.read i) ∧
      conditions (.aChar b) s = [] ∧ conditions .aColon s = []) ∧
    (s.params.uniTermCap ≤ s.a.tidx →
      exec (.aChar b) s = .next { s with a := { s.a with ck := ck b } } ∧
      exec .aColon s = .next { s with a := { s.a with ck := ck 0x3A, colon := true } } ∧
      conditions (.aChar b) s = [.truncatedTerm] ∧ conditions .aColon s = [.truncatedTerm])

/-- `A.COMMA` and `A.STAR`, 43_unicore_framers.md R163 and R164: the TERM item, the colon region ended,
the comma folded unless a `*` was seen (decisions D5 and D18). `terms` is the model's own (log 8). -/
def Obligations.UniDelimiterClosesTerm : Prop :=
  ∀ s : State,
    let item : TermItem := { proto := .unicore, tnum := s.a.tnum, text := s.a.term.bytes .uniTerm 0 s.a.tidx }
    let num : TermNo := BitVec.ofNat 8 (min (s.a.tnum.toNat + 1) 255)
    exec .aComma s = .next { s with
      termOut := some item
      a := { s.a with tidx := 0, tnum := num, colon := false, terms := s.a.terms ++ [item]
                      ck := if s.a.star then s.a.ck else s.a.ck ^^^ 0x2C } } ∧
    exec .aStar s = .next { s with
      termOut := some item
      a := { s.a with tidx := 0, tnum := num, colon := false, star := true, terms := s.a.terms ++ [item] } }

/-- `A.CR`, 43_unicore_framers.md R165 and R166: the event exactly when the received checksum matches,
with the free value `unicore_resp` of the sentence's items, and idle either way. Holds whatever that
value is (log 8). -/
def Obligations.UniCrReportsValidSentence : Prop :=
  ∀ s : State,
    let idle := { s with proto := .none, sync := .sIdle, cur := 0 }
    (ReceivedMatches s.a.toTermBuf .uniTerm s.a.ck s.a.star →
      exec .aCr s = .next { idle with
        evt := some { kind := .dataParsed, proto := .unicore, msg := .unicore (Config.unicoreResp s.a.terms), frame := [] } } ∧
      conditions .aCr s = []) ∧
    (¬ ReceivedMatches s.a.toTermBuf .uniTerm s.a.ck s.a.star →
      exec .aCr s = .next idle ∧ conditions .aCr s = [.ckMismatchText])

/-! ## The Unicore binary framer -/

/-- `B.HEADER`, 43_unicore_framers.md R171 and R173: the byte is stored and counted; the 24th makes the
fields be read little-endian, and completes the frame only if nothing follows the header (decisions D8
and D21; where the fields stand is the parameters', log 3). -/
def Obligations.UnibHeaderBytes : Prop :=
  ∀ (b : Byte) (s : State), s.b.cnt.toNat < 24 → ∃ (m : Memory) (cur : Nat),
    let byte (i : Nat) := (m.byteAt .payload i).toNat
    let mid : Half := BitVec.ofNat 16 (256 * byte (s.params.unibIdOff + 1) + byte s.params.unibIdOff)
    let len := 256 * byte (s.params.unibLenOff + 1) + byte s.params.unibLenOff
    let mlen : Half := BitVec.ofNat 16 len
    let total : Count17 := BitVec.ofNat 17 (24 + len + s.params.unibTrailerLen)
    let kept := { s with buf := m, cur := cur }
    (s.cur < s.params.payloadCap → cur = s.cur + 1 ∧
      (∀ i, m.read i = if i = s.cur then some b else s.buf.read i) ∧ conditions (.bHeader b) s = []) ∧
    (s.params.payloadCap ≤ s.cur → cur = s.cur ∧ m = s.buf ∧ conditions (.bHeader b) s = [.truncatedPayload]) ∧
    (s.b.cnt.toNat < 23 → exec (.bHeader b) s = .next { kept with b := { s.b with cnt := s.b.cnt + 1 } }) ∧
    (s.b.cnt.toNat = 23 → total ≠ 24 → exec (.bHeader b) s = .next { kept with
      b := { cnt := 24, mid := mid, mlen := mlen, total := total } }) ∧
    (s.b.cnt.toNat = 23 → total = 24 → exec (.bHeader b) s = .next { kept with
      b := { cnt := 24, mid := mid, mlen := mlen, total := total }
      proto := .none, sync := .sIdle, cur := 0
      evt := some { kind := .dataParsed, proto := .unicoreBinary, msg := .unicoreBinary mid mlen, frame := m.bytes .payload 0 cur } })

/-- `B.BODY`, 43_unicore_framers.md R172 and R174: stored if it fits and counted; the byte that reaches
the total completes the frame, unchecked (decisions D8 and D21). -/
def Obligations.UnibBodyBytes : Prop :=
  ∀ (b : Byte) (s : State), ∃ (m : Memory) (cur : Nat),
    let kept := { s with buf := m, cur := cur, b := { s.b with cnt := s.b.cnt + 1 } }
    (s.cur < s.params.payloadCap → cur = s.cur + 1 ∧
      (∀ i, m.read i = if i = s.cur then some b else s.buf.read i) ∧ conditions (.bBody b) s = []) ∧
    (s.params.payloadCap ≤ s.cur → cur = s.cur ∧ m = s.buf ∧ conditions (.bBody b) s = [.truncatedPayload]) ∧
    (s.b.cnt + 1 ≠ s.b.total → exec (.bBody b) s = .next kept) ∧
    (s.b.cnt + 1 = s.b.total → exec (.bBody b) s = .next { kept with
      proto := .none, sync := .sIdle, cur := 0
      evt := some { kind := .dataParsed, proto := .unicoreBinary, msg := .unicoreBinary s.b.mid s.b.mlen, frame := m.bytes .payload 0 cur } })

/-! ## The RTCM3 decoder -/

/-- `R.LEN_HI` and `R.LEN_LO`, 44_rtcm3.md R181, R182 and R184, in numbers: the byte is stored if it
fits (decision D8, log 14), bits 7:2 of the first byte are not examined, and the total is six more than
the length. -/
def Obligations.RtcmLengthBytes : Prop :=
  ∀ (b : Byte) (s : State), ∃ (m : Memory) (cur : Nat),
    let hi := 256 * (b.toNat % 4) + s.r.len.toNat % 256
    let lo := 256 * (s.r.len.toNat / 256) + b.toNat
    let kept := { s with buf := m, cur := cur }
    (s.cur < s.params.payloadCap → cur = s.cur + 1 ∧
      (∀ i, m.read i = if i = s.cur then some b else s.buf.read i) ∧
      conditions (.rLenHi b) s = [] ∧ conditions (.rLenLo b) s = []) ∧
    (s.params.payloadCap ≤ s.cur → cur = s.cur ∧ m = s.buf ∧
      conditions (.rLenHi b) s = [.truncatedPayload] ∧ conditions (.rLenLo b) s = [.truncatedPayload]) ∧
    exec (.rLenHi b) s = .next { kept with r := { s.r with len := BitVec.ofNat 10 hi, cnt := 2 } } ∧
    exec (.rLenLo b) s = .next { kept with
      r := { s.r with len := BitVec.ofNat 10 lo, total := BitVec.ofNat 11 (6 + lo), cnt := 3 } } ∧
    hi < 1024 ∧ lo < 1024

/-- `R.BODY`, 44_rtcm3.md R183, R185 and R186: stored if it fits and counted; the byte that reaches the
total completes the frame with the type of stored bytes 3 and 4 and the raw frame, unchecked (for a
payload shorter than two bytes the type is decision D20). -/
def Obligations.RtcmBodyBytes : Prop :=
  ∀ (b : Byte) (s : State), ∃ (m : Memory) (cur : Nat),
    let kept := { s with buf := m, cur := cur, r := { s.r with cnt := s.r.cnt + 1 } }
    let ty : RtcmType := BitVec.ofNat 12 (16 * (m.byteAt .payload 3).toNat + (m.byteAt .payload 4).toNat / 16)
    (s.cur < s.params.payloadCap → cur = s.cur + 1 ∧
      (∀ i, m.read i = if i = s.cur then some b else s.buf.read i) ∧ conditions (.rBody b) s = []) ∧
    (s.params.payloadCap ≤ s.cur → cur = s.cur ∧ m = s.buf ∧ conditions (.rBody b) s = [.truncatedPayload]) ∧
    (s.r.cnt + 1 ≠ s.r.total → exec (.rBody b) s = .next kept) ∧
    (s.r.cnt + 1 = s.r.total → exec (.rBody b) s = .next { kept with
      r := { s.r with cnt := s.r.cnt + 1, mtype := ty }
      proto := .none, sync := .sIdle, cur := 0
      evt := some { kind := .dataParsed, proto := .rtcm, msg := .rtcm ty s.r.len s.r.total, frame := m.bytes .payload 0 cur } })

/-! ## Rules of the whole machine -/

/-- All transitions of (`proto`, `sync`), 40_dispatcher.md R112. -/
def Obligations.TransitionTable : Prop :=
  ∀ (s t : State) (b : Byte) (rest : List Stimulus), s.input = .byte b :: rest → step s = .next t →
    (s.proto = .none → (t.proto, t.sync) =
      if s.sync = .sUbx1 ∧ b = 0x62 then (.ubx, .sIdle)
      else if s.sync = .sUni1 ∧ b = 0x44 then (.none, .sUni2)
      else if s.sync = .sUni2 ∧ b = 0xB5 then (.unicoreBinary, .sIdle)
      else if b = 0x24 then (.nmea, .sIdle)
      else if b = 0xB5 then (.none, .sUbx1)
      else if b = 0xAA then (.none, .sUni1)
      else if b = 0xD3 then (.rtcm, .sIdle)
      else (.none, .sIdle)) ∧
    (s.proto = .nmea → b = 0x0D → (t.proto, t.sync) = (.none, .sIdle)) ∧
    (s.proto = .nmea → (b = 0x2C ∨ b = 0x2A) → KeptCommand s → (t.proto, t.sync) = (.unicore, s.sync)) ∧
    (s.proto = .nmea → b ≠ 0x0D → ¬ ((b = 0x2C ∨ b = 0x2A) ∧ KeptCommand s) →
      (t.proto, t.sync) = (.nmea, s.sync)) ∧
    (s.proto = .unicore → b = 0x0D → (t.proto, t.sync) = (.none, .sIdle)) ∧
    (s.proto = .unicore → b ≠ 0x0D → (t.proto, t.sync) = (.unicore, s.sync)) ∧
    (s.proto = .ubx → s.u.pos.toNat = 5 + s.u.len.toNat → (t.proto, t.sync) = (.none, .sIdle)) ∧
    (s.proto = .ubx → s.u.pos.toNat ≠ 5 + s.u.len.toNat → (t.proto, t.sync) = (.ubx, s.sync)) ∧
    (s.proto = .rtcm → 3 ≤ s.r.cnt.toNat → s.r.cnt + 1 = s.r.total → (t.proto, t.sync) = (.none, .sIdle)) ∧
    (s.proto = .rtcm → s.r.cnt.toNat < 3 ∨ s.r.cnt + 1 ≠ s.r.total → (t.proto, t.sync) = (.rtcm, s.sync)) ∧
    (s.proto = .unicoreBinary → s.b.cnt.toNat < 23 → (t.proto, t.sync) = (.unicoreBinary, s.sync)) ∧
    (s.proto = .unicoreBinary → 23 ≤ s.b.cnt.toNat →
      (t.b.cnt = t.b.total → (t.proto, t.sync) = (.none, .sIdle)) ∧
      (t.b.cnt ≠ t.b.total → (t.proto, t.sync) = (.unicoreBinary, s.sync)))

/-- Which operation can emit what, 60_exceptions.md R209, over every operation and every state whose
ports are free. -/
def Obligations.PortsByOperation : Prop :=
  ∀ (i : Instr) (s : State), Quiet s → ∃ t, exec i s = .next t ∧
    (t.evt.isSome = true ↔
      (i = .nCr ∧ ReceivedMatches s.n.toTermBuf .nmeaTerm s.n.ck s.n.star) ∨
      (i = .aCr ∧ ReceivedMatches s.a.toTermBuf .uniTerm s.a.ck s.a.star) ∨
      (∃ b, i = .uCkB b ∧ s.u.rxA = s.u.ckA ∧ b = s.u.ckB) ∨
      (∃ b, i = .rBody b ∧ s.r.cnt + 1 = s.r.total) ∨
      (∃ b, i = .bHeader b ∧ t.b.cnt = 24 ∧ t.b.total = 24) ∨
      (∃ b, i = .bBody b ∧ s.b.cnt + 1 = s.b.total)) ∧
    (t.termOut.isSome = true ↔ i ∈ [Instr.nComma, .nStar, .aComma, .aStar]) ∧
    (t.ack.isSome = true ↔ ∃ b, i = .uCkB b ∧ s.u.rxA = s.u.ckA ∧ b = s.u.ckB ∧
      s.u.cls = 0x05 ∧ (s.u.id = 0x01 ∨ s.u.id = 0x00) ∧ 2 ≤ s.cur)

/-- An event leaves the block idle with an empty buffer, in the step of the frame's last byte, and
names the protocol that was active before (60_exceptions.md R203, R206 and R207). -/
def Obligations.EventLeavesBlockIdle : Prop :=
  ∀ (s t : State) (e : EvtItem), step s = .next t → t.evt = some e →
    (∃ b rest, s.input = .byte b :: rest ∧ t.input = rest) ∧
    e.proto = s.proto ∧ t.proto = .none ∧ t.sync = .sIdle ∧ t.cur = 0 ∧
    (e.proto = .nmea ∨ e.proto = .unicore → e.frame = [])

/-- The silent conditions do what 60_exceptions.md R201 says and no more. A mismatch emits nothing and
goes idle. A truncated byte is not kept, while the counters and sums move as for a kept byte (decision
D8, log 14) and the frame goes on, or completes where its last byte is the truncated one. A byte that
fails a held sequence acts as it does when nothing is held. -/
def Obligations.SilentConditionsOnlyDrop : Prop :=
  ∀ (i : Instr) (s t : State), i.wf = true → Quiet s → exec i s = .next t →
    let idle := { s with proto := .none, sync := .sIdle, cur := 0 }
    let completes :=
      (∃ b, i = .rBody b ∧ s.r.cnt + 1 = s.r.total) ∨ (∃ b, i = .bBody b ∧ s.b.cnt + 1 = s.b.total) ∨
      (∃ b, i = .bHeader b ∧ t.b.cnt = 24 ∧ t.b.total = 24)
    (Condition.ckMismatchText ∈ conditions i s → (i = .nCr ∨ i = .aCr) ∧ t = idle) ∧
    (Condition.ckMismatchUbx ∈ conditions i s →
      ∃ b, i = .uCkB b ∧ t = { idle with u := { s.u with rxB := b } }) ∧
    (Condition.truncatedPayload ∈ conditions i s → s.params.payloadCap ≤ s.cur ∧ ∃ counted : State,
      ((∃ b, i = .uPayload b ∧ counted = { s with u := { s.u with
          pos := s.u.pos + 1, ckA := s.u.ckA + b, ckB := s.u.ckB + (s.u.ckA + b) } }) ∨
        (∃ b, i = .rLenHi b ∧ counted = { s with r := { s.r with len := t.r.len, cnt := 2 } }) ∨
        (∃ b, i = .rLenLo b ∧ counted = { s with r := { s.r with len := t.r.len, total := t.r.total, cnt := 3 } }) ∨
        (∃ b, i = .rBody b ∧ counted = { s with r := { s.r with mtype := t.r.mtype, cnt := s.r.cnt + 1 } }) ∨
        (∃ b, i = .bHeader b ∧ counted = { s with b := { t.b with cnt := s.b.cnt + 1 } }) ∨
        (∃ b, i = .bBody b ∧ counted = { s with b := { s.b with cnt := s.b.cnt + 1 } })) ∧
      (¬ completes → t = counted) ∧
      (completes → t.evt.isSome = true ∧
        t = { counted with proto := .none, sync := .sIdle, cur := 0, evt := t.evt })) ∧
    (Condition.truncatedTerm ∈ conditions i s →
      let uniCk (v : Byte) := if s.a.star = false ∧ s.a.colon = false then s.a.ck ^^^ v else s.a.ck
      (∃ b, i = .nChar b ∧ s.params.nmeaTermCap ≤ s.n.tidx ∧
        t = { s with n := { s.n with ck := if s.n.star then s.n.ck else s.n.ck ^^^ b } }) ∨
      (∃ b, i = .aChar b ∧ s.params.uniTermCap ≤ s.a.tidx ∧ t = { s with a := { s.a with ck := uniCk b } }) ∨
      (i = .aColon ∧ s.params.uniTermCap ≤ s.a.tidx ∧
        t = { s with a := { s.a with ck := uniCk 0x3A, colon := true } })) ∧
    (Condition.syncFail ∈ conditions i s → exec i s = exec (decode (.sync .sIdle) (encode i).2) s)

/-- `proto = UNICORE` is entered only by the hand-off, never by the dispatcher, and at most once in a
sentence (43_unicore_framers.md R167, 41_nmea.md R127): it is left only to idle, and after term 0 the
term number of an NMEA sentence, which the hand-off needs zero, is never zero again (decisions D5 and D14). -/
def Obligations.UnicoreEnteredOnlyByHandOff : Prop :=
  ∀ s t : State, step s = .next t →
    (t.proto = .unicore → s.proto ≠ .unicore →
      s.proto = .nmea ∧ KeptCommand s ∧ t.evt = none ∧ t.a.tidx = 0 ∧ t.a.tnum = 1 ∧ t.a.colon = false ∧
      ((∃ rest, s.input = .byte 0x2C :: rest ∧ t.a.star = false ∧ t.a.ck = s.n.ck ^^^ 0x2C) ∨
       (∃ rest, s.input = .byte 0x2A :: rest ∧ t.a.star = true ∧ t.a.ck = s.n.ck))) ∧
    (s.proto = .unicore → t.proto = .unicore ∨ t.proto = .none) ∧
    (s.proto = .nmea → t.proto = .nmea →
      (s.n.tnum ≠ 0 → t.n.tnum ≠ 0) ∧
      (∀ b rest, s.input = .byte b :: rest → b = 0x2C ∨ b = 0x2A → t.n.tnum ≠ 0))

/-- What a sub-state holds while it is not live, and what a buffer holds at and above its cursor, is
never observable: two states that differ only there step alike (10_state.md R21 and R19). -/
def Obligations.DeadStateIsUnobservable : Prop :=
  ∀ s s' t : State, Inv s → SameLive s s' → step s = .next t → ∃ t', step s' = .next t' ∧ SameLive t t'

/-! ## Byte streams -/

/-- Any chunking of the stream gives the same result (00_scope.md R8, 20_memory.md R42). -/
def Obligations.ChunkingIsIrrelevant : Prop :=
  ∀ (s t : State) (xs ys : List Byte), s.input = [] →
    (Runs s (xs ++ ys) t ↔ ∃ m, Runs s xs m ∧ Runs m ys t)

/-- A UBX frame from idle, 30_encoding.md R71 and 42_ubx.md R141 to R153: whatever the class, the id and
the payload, nothing leaves before the last byte, the last byte returns to idle, and the event with the
payload cut at the capacity leaves exactly when the trailer is the checksum pair of the bytes between
(decisions D8, D16 and D17, log 14 and log 19; the numbers, the trailer's order and the start of the sums
are the spec's general knowledge G1 to G3, log 23). -/
def Obligations.UbxFrameReceived : Prop :=
  ∀ (s : State) (cls id x y : Byte) (payload : List Byte),
    Idle s → s.params.ok = true → payload.length < 65536 →
    let n := payload.length
    let covered := [cls, id, BitVec.ofNat 8 n, BitVec.ofNat 8 (n / 256)] ++ payload
    let frame := [0xB5, 0x62] ++ covered ++ [x, y]
    ∃ t, Runs s frame t ∧ QuietUntilLast s frame ∧ Idle t ∧ t.params = s.params ∧ t.termOut = none ∧
      ((x, y) = ubxSums covered →
        t.evt = some { kind := .dataParsed, proto := .ubx, msg := .ubx cls id (ubxKind cls id) (BitVec.ofNat 16 n), frame := payload.take s.params.payloadCap } ∧
        t.ack = if cls = 0x05 ∧ (id = 0x01 ∨ id = 0x00) ∧ 2 ≤ n
          then some { wasAck := decide (id = 0x01), cls := payload.getD 0 0, id := payload.getD 1 0 } else none) ∧
      ((x, y) ≠ ubxSums covered → t.evt = none ∧ t.ack = none)

/-- An RTCM3 frame from idle, 30_encoding.md R72 and 44_rtcm3.md R184 to R187: whatever its bytes, the
event leaves on exactly the (6 + L)-th byte with the raw frame (cut at a capacity below it, decision D8,
log 14), and nothing before. The type of a payload below two bytes is decision D20 (log 21). -/
def Obligations.RtcmFrameReceived : Prop :=
  ∀ (s : State) (hi lo p0 p1 : Byte) (rest : List Byte),
    Idle s → s.params.ok = true →
    let len := 256 * (hi.toNat % 4) + lo.toNat
    let frame := [0xD3, hi, lo, p0, p1] ++ rest
    frame.length = 6 + len →
    ∃ t, Runs s frame t ∧ QuietUntilLast s frame ∧ Idle t ∧ t.params = s.params ∧
      t.termOut = none ∧ t.ack = none ∧
      t.evt = some { kind := .dataParsed, proto := .rtcm, msg := .rtcm (BitVec.ofNat 12 (16 * p0.toNat + p1.toNat / 16)) (BitVec.ofNat 10 len) (BitVec.ofNat 11 (6 + len)), frame := frame.take s.params.payloadCap }

/-- A Unicore binary frame from idle, 30_encoding.md R74 and 43_unicore_framers.md R170 to R174: the
event leaves on exactly the byte that completes header, announced length and trailer, unchecked, and
nothing before. A frame longer than the buffer is decision D8 (log 14), the end after the trailer D21
(log 22); where the fields stand is the parameters' (00_scope.md R7), little-endian by the spec's general
knowledge G4 (log 3, log 23). -/
def Obligations.UnibFrameReceived : Prop :=
  ∀ (s : State) (header body : List Byte),
    Idle s → s.params.ok = true → header.length = 24 → header.take 3 = [0xAA, 0x44, 0xB5] →
    let byte (i : Nat) := (header.getD i 0).toNat
    let len := 256 * byte (s.params.unibLenOff + 1) + byte s.params.unibLenOff
    let mid := 256 * byte (s.params.unibIdOff + 1) + byte s.params.unibIdOff
    body.length = len + s.params.unibTrailerLen →
    let frame := header ++ body
    ∃ t, Runs s frame t ∧ QuietUntilLast s frame ∧ Idle t ∧ t.params = s.params ∧
      t.termOut = none ∧ t.ack = none ∧
      t.evt = some { kind := .dataParsed, proto := .unicoreBinary, msg := .unicoreBinary (BitVec.ofNat 16 mid) (BitVec.ofNat 16 len), frame := frame.take s.params.payloadCap }

/-- The NMEA checksum covers every byte after the `$` and before the first `*`, kept or not
(41_nmea.md R129). -/
def Obligations.NmeaChecksumCoverage : Prop :=
  ∀ (s t : State) (body : List Byte), Idle s → (0x0D : Byte) ∉ body →
    Runs s (0x24 :: body) t → t.proto = .nmea →
    t.n.ck = xorAll (body.takeWhile (· ≠ 0x2A))

/-- The Unicore checksum covers every byte after the `$` and before the first `*` but those that lie,
within one term, after its first colon (43_unicore_framers.md R168). The NMEA term buffer holds at
least eight characters, or a longer term 0 could be handed off (41_nmea.md R127). That the region ends
before its delimiter is decision D18 (log 20). -/
def Obligations.UnicoreChecksumCoverage : Prop :=
  ∀ (s t : State) (body : List Byte), Idle s → 8 ≤ s.params.nmeaTermCap → (0x0D : Byte) ∉ body →
    Runs s (0x24 :: body) t → t.proto = .unicore →
    t.a.ck = xorAll (uniCovered false body)

/-- A whole NMEA sentence from idle, 30_encoding.md R70 and 41_nmea.md R120 to R128: it returns to idle,
and the event leaves at the CR exactly when the two digits after the `*` give the XOR of the text
between, with the type of its first term (decisions D12 to D15; the term buffer holds at least eight
characters). -/
def Obligations.NmeaSentenceReceived : Prop :=
  ∀ (s : State) (body : List Byte) (c0 c1 : Byte),
    Idle s → s.params.ok = true → 8 ≤ s.params.nmeaTermCap →
    (0x0D : Byte) ∉ body → (0x2A : Byte) ∉ body →
    let first := body.takeWhile (· ≠ 0x2C)
    first ≠ commandText →
    c0 ∉ [(0x2C : Byte), 0x2A, 0x0D] → c1 ∉ [(0x2C : Byte), 0x2A, 0x0D] →
    ∃ t, Runs s (0x24 :: body ++ [0x2A, c0, c1, 0x0D]) t ∧ Idle t ∧ t.termOut = none ∧ t.ack = none ∧
      (∀ h l, hexval c0 = some h → hexval c1 = some l → 16 * h.toNat + l.toNat = (xorAll body).toNat →
        t.evt = some { kind := .dataParsed, proto := .nmea, msg := .nmea (typeOfText (first.take s.params.nmeaTermCap)), frame := [] }) ∧
      (∀ h l, hexval c0 = some h → hexval c1 = some l → 16 * h.toNat + l.toNat ≠ (xorAll body).toNat →
        t.evt = none) ∧
      (hexval c0 = none ∨ hexval c1 = none → t.evt = none)

/-! ## The host's interface -/

/-- A table word placed by `withFetchWord` is what the very next step runs (log 2): the model's own interface. -/
def Obligations.PlacedWordRuns : Prop :=
  ∀ (s : State) (w : Nat) (i : Instr), decodeTableWord 8 w = some i →
    step (s.withFetchWord 8 w) =
      exec i { s.placeIn (encode i).1 with evt := none, termOut := none, ack := none }

/-- Placing a state in a context puts it there and touches no buffer, cursor, text register, parameter,
port or stimulus: every context of the map is one a state can stand in (30_encoding.md R80, log 2). -/
def Obligations.EveryContextIsOccupied : Prop :=
  ∀ (s : State) (c : Context), (s.placeIn c).context = some c ∧
    (s.placeIn c).params = s.params ∧ (s.placeIn c).n = s.n ∧ (s.placeIn c).a = s.a ∧
    (s.placeIn c).buf = s.buf ∧ (s.placeIn c).cur = s.cur ∧ (s.placeIn c).evt = s.evt ∧
    (s.placeIn c).termOut = s.termOut ∧ (s.placeIn c).ack = s.ack ∧ (s.placeIn c).input = s.input
end

