-- ==== Sys2Proof/Laws/Memory.lean ====
section
/-! SUPPORT. The laws of a buffer: a read after a write, the canonical form, and the invariant of a
buffer with its cursor under the appending primitives (20_memory.md R44 to R46). -/

namespace Sys2Proof.Machine

/-- Read after write: the written index holds the value, every other index what it held. -/
theorem Memory.read_write (m : Memory) (i : Nat) (v : Byte) (j : Nat) :
    (m.write i v).read j = if j = i then some v else m.read j := by
  induction m with
  | nil => by_cases h : i = j <;> simp [Memory.write, Memory.read, h, eq_comm]
  | cons c rest ih =>
    unfold Memory.write
    split
    · by_cases h : i = j <;> simp [Memory.read, h, eq_comm]
    · split
      · subst i
        by_cases h : c.1 = j
        · simp [Memory.read, h]
        · have h' : ¬ j = c.1 := fun e => h e.symm
          simp [Memory.read, h, h']
      · simp only [Memory.read, ih]
        by_cases hc : c.1 = j
        · have : j ≠ i := by omega
          simp [hc, this]
        · simp [hc]

theorem Memory.read_write_same (m : Memory) (i : Nat) (v : Byte) : (m.write i v).read i = some v := by
  simp [Memory.read_write]

theorem Memory.read_write_other (m : Memory) (i : Nat) (v : Byte) (j : Nat) (h : j ≠ i) :
    (m.write i v).read j = m.read j := by
  simp [Memory.read_write, h]

/-- A write lists nothing but the written cell and what was listed. -/
theorem Memory.mem_write (m : Memory) (i : Nat) (v : Byte) (c : Host.Cell) (h : c ∈ m.write i v) :
    c = (i, v) ∨ c ∈ m := by
  induction m with
  | nil => simpa [Memory.write] using h
  | cons d rest ih =>
    unfold Memory.write at h
    split at h
    · simpa using h
    · split at h
      · rcases List.mem_cons.1 h with h | h
        · exact .inl h
        · exact .inr (List.mem_cons_of_mem _ h)
      · rcases List.mem_cons.1 h with h | h
        · exact .inr (by simp [h])
        · exact (ih h).imp id (List.mem_cons_of_mem _)

/-- A write keeps the canonical form. -/
theorem Memory.write_wf (m : Memory) (i : Nat) (v : Byte) (h : m.wf = true) : (m.write i v).wf = true := by
  induction m with
  | nil => simp [Memory.write, Memory.wf]
  | cons c rest ih =>
    simp only [Memory.wf, Bool.and_eq_true, List.all_eq_true, decide_eq_true_eq] at h
    obtain ⟨hall, hrest⟩ := h
    unfold Memory.write
    split
    · rename_i hlt
      simp only [Memory.wf, Bool.and_eq_true, List.all_eq_true, decide_eq_true_eq, List.mem_cons,
        forall_eq_or_imp]
      exact ⟨⟨hlt, fun d hd => Nat.lt_trans hlt (hall d hd)⟩, hall, hrest⟩
    · split
      · rename_i heq
        simp only [Memory.wf, Bool.and_eq_true, List.all_eq_true, decide_eq_true_eq]
        exact ⟨fun d hd => by have := hall d hd; omega, hrest⟩
      · rename_i hge hne
        simp only [Memory.wf, Bool.and_eq_true, List.all_eq_true, decide_eq_true_eq]
        refine ⟨fun d hd => ?_, ih hrest⟩
        rcases Memory.mem_write rest i v d hd with rfl | hd
        · simp; omega
        · exact hall d hd

/-- The copy of the hand-off keeps the canonical form. -/
theorem copyTerm_wf (n a : Memory) (k : Nat) (h : a.wf = true) : (copyTerm n a k).wf = true := by
  induction k with
  | zero => exact h
  | succ k ih => exact Memory.write_wf _ _ _ ih

/-- The copy of the hand-off: the first `k` indices hold the source's bytes, the others what they held. -/
theorem copyTerm_read (n a : Memory) (k j : Nat) :
    (copyTerm n a k).read j = if j < k then some (n.byteAt .nmeaTerm j) else a.read j := by
  induction k with
  | zero => simp [copyTerm]
  | succ k ih =>
    rw [copyTerm, Memory.read_write, ih]
    by_cases h : j = k
    · simp [h]
    · have : j < k + 1 ↔ j < k := by omega
      simp [h, this]

theorem mem_copyTerm (n a : Memory) (k : Nat) (c : Host.Cell) (h : c ∈ copyTerm n a k) :
    c.1 < k ∨ c ∈ a := by
  induction k with
  | zero => exact .inr h
  | succ k ih =>
    rcases Memory.mem_write _ _ _ _ h with rfl | h
    · simp
    · exact (ih h).imp (by omega) id

/-- A rule that reads a listed index reads the listed byte. -/
theorem Memory.byteAt_of_read {m : Memory} {i : Nat} {v : Byte} (name : BufferName)
    (h : m.read i = some v) : m.byteAt name i = v := by
  simp [Memory.byteAt, h]

/-- What a rule reads depends on the listed byte alone. -/
theorem Memory.byteAt_congr {m m' : Memory} {i : Nat} (name : BufferName)
    (h : m.read i = m'.read i) : m.byteAt name i = m'.byteAt name i := by
  simp [Memory.byteAt, h]

@[simp] theorem Memory.length_bytes (m : Memory) (name : BufferName) (start count : Nat) :
    (m.bytes name start count).length = count := by
  simp [Memory.bytes]

/-- A range read depends only on the listed bytes of the range. -/
theorem Memory.bytes_congr {m m' : Memory} (name : BufferName) (start count : Nat)
    (h : ∀ k, k < count → m.read (start + k) = m'.read (start + k)) :
    m.bytes name start count = m'.bytes name start count := by
  unfold Memory.bytes
  refine List.map_congr_left fun k hk => Memory.byteAt_congr name (h k (List.mem_range.1 hk))

/-- A range read of one more byte. -/
theorem Memory.bytes_succ (m : Memory) (name : BufferName) (start count : Nat) :
    m.bytes name start (count + 1) = m.bytes name start count ++ [m.byteAt name (start + count)] := by
  simp [Memory.bytes, List.range_succ]

/-- Appending a byte right after a range read from 0. -/
theorem Memory.bytes_write_append (m : Memory) (name : BufferName) (count : Nat) (v : Byte) :
    (m.write count v).bytes name 0 (count + 1) = m.bytes name 0 count ++ [v] := by
  rw [Memory.bytes_succ]
  congr 1
  · exact Memory.bytes_congr name 0 count fun k hk => Memory.read_write_other _ _ _ _ (by omega)
  · simp [Memory.byteAt, Memory.read_write]

/-- The empty buffer is canonical and lists nothing. -/
theorem BufferOk.empty (cap : Nat) : BufferOk [] 0 cap := by
  simp [BufferOk, Memory.wf]

/-- Moving the cursor down keeps a buffer's invariant. -/
theorem BufferOk.mono {m : Memory} {count cap : Nat} (h : BufferOk m count cap) (k : Nat) (hk : k ≤ count) :
    BufferOk m k cap :=
  ⟨h.1, Nat.le_trans hk h.2.1, h.2.2.1, fun i hi => h.2.2.2 i (Nat.lt_of_lt_of_le hi hk)⟩

/-- Appending below the capacity keeps a buffer's invariant. -/
theorem BufferOk.push {m : Memory} {count cap : Nat} (h : BufferOk m count cap) (v : Byte)
    (hlt : count < cap) : BufferOk (m.write count v) (count + 1) cap := by
  refine ⟨Memory.write_wf _ _ _ h.1, hlt, fun c hc => ?_, fun i hi => ?_⟩
  · rcases Memory.mem_write _ _ _ _ hc with rfl | hc
    · exact hlt
    · exact h.2.2.1 c hc
  · rw [Memory.read_write]
    split
    · rfl
    · exact h.2.2.2 i (by omega)

/-- `tappend` keeps a term buffer's invariant (20_memory.md R46). -/
theorem TermBuf.append_ok {t : TermBuf} {cap : Nat} (h : BufferOk t.term t.tidx cap) (v : Byte) :
    BufferOk (t.append cap v).term (t.append cap v).tidx cap := by
  unfold TermBuf.append
  split
  · exact h.push v ‹_›
  · exact h

/-- `store` keeps the payload buffer's invariant (20_memory.md R44). -/
theorem State.store_ok {s : State} (h : BufferOk s.buf s.cur s.params.payloadCap) (v : Byte) :
    BufferOk (s.store v).buf (s.store v).cur s.params.payloadCap := by
  unfold State.store
  split
  · exact h.push v ‹_›
  · exact h

end Sys2Proof.Machine
end

