-- ==== Sys2Proof/Laws/Operands.lean ====
section
/-! SUPPORT. The field assembly, the term number and the checksum conditions in numbers and
propositions, for the proofs that would otherwise unfold them. -/

namespace Sys2Proof.Machine

/-- `u.len` after `U.LEN_LO`, in numbers (42_ubx.md R144). -/
theorem setLenLo_eq (len : Half) (b : Byte) : setLenLo len b = BitVec.ofNat 16 (256 * (len.toNat / 256) + b.toNat) := by
  apply BitVec.eq_of_toNat_eq
  unfold setLenLo
  rw [BitVec.toNat_append]
  have hb : b.toNat < 2^8 := b.isLt
  have hl : len.toNat < 2^16 := len.isLt
  rw [← Nat.shiftLeft_add_eq_or_of_lt hb]
  simp only [BitVec.extractLsb'_toNat, Nat.shiftLeft_eq, Nat.shiftRight_eq_div_pow, BitVec.toNat_ofNat]
  omega

/-- `u.len` after `U.LEN_HI`, in numbers (42_ubx.md R145). -/
theorem setLenHi_eq (len : Half) (b : Byte) : setLenHi len b = BitVec.ofNat 16 (256 * b.toNat + len.toNat % 256) := by
  apply BitVec.eq_of_toNat_eq
  unfold setLenHi
  have hx : (len.extractLsb' 0 8).toNat < 2^8 := (len.extractLsb' 0 8).isLt
  rw [BitVec.toNat_append]
  have hb : b.toNat < 2^8 := b.isLt
  have hl : len.toNat < 2^16 := len.isLt
  rw [← Nat.shiftLeft_add_eq_or_of_lt hx]
  simp only [BitVec.extractLsb'_toNat, Nat.shiftLeft_eq, Nat.shiftRight_eq_div_pow, BitVec.toNat_ofNat]
  omega

/-- `r.len` after `R.LEN_HI`, in numbers (44_rtcm3.md R181). -/
theorem setRtcmLenHi_eq (len : RtcmLen) (b : Byte) : setRtcmLenHi len b = BitVec.ofNat 10 (256 * (b.toNat % 4) + len.toNat % 256) := by
  apply BitVec.eq_of_toNat_eq
  unfold setRtcmLenHi
  have hx : (len.extractLsb' 0 8).toNat < 2^8 := (len.extractLsb' 0 8).isLt
  rw [BitVec.toNat_append]
  have hb : b.toNat < 2^8 := b.isLt
  have hl : len.toNat < 2^10 := len.isLt
  rw [← Nat.shiftLeft_add_eq_or_of_lt hx]
  simp only [BitVec.extractLsb'_toNat, Nat.shiftLeft_eq, Nat.shiftRight_eq_div_pow, BitVec.toNat_ofNat]
  omega

/-- `r.len` after `R.LEN_LO`, in numbers (44_rtcm3.md R182). -/
theorem setRtcmLenLo_eq (len : RtcmLen) (b : Byte) : setRtcmLenLo len b = BitVec.ofNat 10 (256 * (len.toNat / 256) + b.toNat) := by
  apply BitVec.eq_of_toNat_eq
  unfold setRtcmLenLo
  rw [BitVec.toNat_append]
  have hb : b.toNat < 2^8 := b.isLt
  have hl : len.toNat < 2^10 := len.isLt
  rw [← Nat.shiftLeft_add_eq_or_of_lt hb]
  simp only [BitVec.extractLsb'_toNat, Nat.shiftLeft_eq, Nat.shiftRight_eq_div_pow, BitVec.toNat_ofNat]
  omega

/-- The length law, in numbers (44_rtcm3.md R184). -/
theorem rtcmTotal_eq (len : RtcmLen) : rtcmTotal len = BitVec.ofNat 11 (6 + len.toNat) := by
  apply BitVec.eq_of_toNat_eq
  unfold rtcmTotal
  have hl : len.toNat < 2^10 := len.isLt
  simp

/-- The message type, in numbers (44_rtcm3.md R186). -/
theorem rtcmType_eq (a b : Byte) : rtcmType a b = BitVec.ofNat 12 (16 * a.toNat + b.toNat / 16) := by
  apply BitVec.eq_of_toNat_eq
  unfold rtcmType
  have hx : (b.extractLsb' 4 4).toNat < 2^4 := (b.extractLsb' 4 4).isLt
  rw [BitVec.toNat_append]
  have hb : b.toNat < 2^8 := b.isLt
  have hl : a.toNat < 2^8 := a.isLt
  rw [← Nat.shiftLeft_add_eq_or_of_lt hx]
  simp only [BitVec.extractLsb'_toNat, Nat.shiftLeft_eq, Nat.shiftRight_eq_div_pow, BitVec.toNat_ofNat]
  omega

/-- A little-endian header field, in numbers (30_encoding.md R79). -/
theorem half_eq (lo hi : Byte) : half lo hi = BitVec.ofNat 16 (256 * hi.toNat + lo.toNat) := by
  apply BitVec.eq_of_toNat_eq
  unfold half
  rw [BitVec.toNat_append]
  have hb : lo.toNat < 2^8 := lo.isLt
  have hl : hi.toNat < 2^8 := hi.isLt
  rw [← Nat.shiftLeft_add_eq_or_of_lt hb]
  simp only [Nat.shiftLeft_eq, BitVec.toNat_ofNat]
  omega

/-- The saturating term number, in numbers (30_encoding.md R85). -/
theorem satInc_eq (t : TermNo) : satInc t = BitVec.ofNat 8 (min (t.toNat + 1) 255) := by
  unfold satInc
  have hl : t.toNat < 2^8 := t.isLt
  apply BitVec.eq_of_toNat_eq
  split
  · subst t; rfl
  · rename_i h
    have : t.toNat ≠ 255 := fun e => h (BitVec.eq_of_toNat_eq (by simpa using e))
    simp; omega

/-- A later term never has number 0 again (30_encoding.md R85). -/
theorem satInc_ne_zero (t : TermNo) : satInc t ≠ 0 := by
  intro h
  have e := congrArg BitVec.toNat (satInc_eq t)
  rw [h] at e; simp at e; omega

/-- A checksum byte modulo 256 (42_ubx.md R141). -/
theorem byte_add_eq (a b : Byte) : a + b = BitVec.ofNat 8 ((a.toNat + b.toNat) % 256) := by
  apply BitVec.eq_of_toNat_eq; simp

/-- A hexadecimal digit is below 16 (30_encoding.md R78). -/
theorem hexval_lt (c h : Byte) : hexval c = some h → h.toNat < 16 := by
  intro e
  unfold hexval at e
  have hc := c.isLt
  (repeat' split at e) <;> simp only [Option.some.injEq, reduceCtorEq] at e <;> subst e <;> simp_all [BitVec.le_def] <;> omega

/-- Two digits and the running checksum, in numbers (30_encoding.md R89). -/
theorem hexPairIs_iff (c0 c1 ck : Byte) : hexPairIs c0 c1 ck = true ↔
    ∃ h l : Byte, hexval c0 = some h ∧ hexval c1 = some l ∧ ck.toNat = 16 * h.toNat + l.toNat := by
  unfold hexPairIs
  split
  · rename_i h l h0 h1
    simp only [h0, h1, Option.some.injEq, beq_iff_eq]
    have hh := hexval_lt _ _ h0
    have hl := hexval_lt _ _ h1
    have e : (h <<< 4 ||| l) = BitVec.ofNat 8 (16 * h.toNat + l.toNat) := by
      apply BitVec.eq_of_toNat_eq
      simp only [BitVec.toNat_or, BitVec.toNat_shiftLeft, BitVec.toNat_ofNat]
      have : h.toNat <<< 4 % 2^8 = h.toNat <<< 4 := by
        rw [Nat.shiftLeft_eq]; omega
      rw [this, ← Nat.shiftLeft_add_eq_or_of_lt (by omega : l.toNat < 2^4), Nat.shiftLeft_eq]
      omega
    rw [e]
    constructor
    · rintro rfl; exact ⟨h, l, rfl, rfl, by simp; omega⟩
    · rintro ⟨_, _, rfl, rfl, e⟩; apply BitVec.eq_of_toNat_eq; simp [e]; omega
  · rename_i hno
    simp only [Bool.false_eq_true, false_iff, not_exists, not_and]
    intro h l h0 h1; exact absurd h1 (hno h l h0)

/-- `text_ck_ok` says what `ReceivedMatches` says (30_encoding.md R89). -/
theorem textCkOk_iff (t : TermBuf) (name : BufferName) (ck : Byte) (star : Bool) :
    textCkOk t name ck star = true ↔ ReceivedMatches t name ck star := by
  simp [textCkOk, ReceivedMatches, hexPairIs_iff, and_assoc]

/-- The two ACK kinds by class and id (30_encoding.md R75). -/
theorem ubxKind_ack_iff (c i : Byte) : (ubxKind c i = .ackAck ∨ ubxKind c i = .ackNak) ↔ c = 5 ∧ (i = 1 ∨ i = 0) := by
  unfold ubxKind
  (repeat' split) <;> simp_all

/-- When an ACK item goes out with a valid frame (42_ubx.md R152). -/
theorem ackApplies_iff (s : State) : s.ackApplies = true ↔ s.u.cls = 5 ∧ (s.u.id = 1 ∨ s.u.id = 0) ∧ 2 ≤ s.cur := by
  simp only [State.ackApplies, Bool.and_eq_true, Bool.or_eq_true, beq_iff_eq, decide_eq_true_eq, ubxKind_ack_iff, and_assoc]

/-- `ubx_ck_ok` (42_ubx.md R149). -/
theorem ubxCkOk_iff (s : State) : s.ubxCkOk = true ↔ s.u.rxA = s.u.ckA ∧ s.u.rxB = s.u.ckB := by
  simp [State.ubxCkOk]

/-- A running XOR from any start. -/
theorem foldl_xor (c : Byte) (xs : List Byte) : xs.foldl (· ^^^ ·) c = c ^^^ xorAll xs := by
  unfold xorAll
  induction xs generalizing c with
  | nil => simp
  | cons b xs ih => simp only [List.foldl_cons]; rw [ih (c ^^^ b), ih (0 ^^^ b)]; simp [BitVec.xor_assoc]

theorem xorAll_cons (b : Byte) (xs : List Byte) : xorAll (b :: xs) = b ^^^ xorAll xs := by
  have := foldl_xor (0 ^^^ b) xs; simpa [xorAll] using this

theorem xorAll_append (xs ys : List Byte) : xorAll (xs ++ ys) = xorAll xs ^^^ xorAll ys := by
  induction xs with
  | nil => simp [xorAll]
  | cons b xs ih => simp [xorAll_cons, ih, BitVec.xor_assoc]

/-- One more byte under the checksum pair (42_ubx.md R141). -/
theorem ubxSums_snoc (xs) (v : Byte) : ubxSums (xs ++ [v]) = ((ubxSums xs).1 + v, (ubxSums xs).2 + ((ubxSums xs).1 + v)) := by
  simp [ubxSums]

end Sys2Proof.Machine
end

