-- ==== Sys2Proof/Laws/State.lean ====
section
/-! SUPPORT. One lemma for each field under each shared update: what the update leaves and what it writes. -/

namespace Sys2Proof.Machine

@[simp] theorem State.store_params (s : State) (v : Byte) :
    (s.store v).params = s.params := by unfold State.store; split <;> rfl
@[simp] theorem State.store_proto (s : State) (v : Byte) :
    (s.store v).proto = s.proto := by unfold State.store; split <;> rfl
@[simp] theorem State.store_sync (s : State) (v : Byte) :
    (s.store v).sync = s.sync := by unfold State.store; split <;> rfl
@[simp] theorem State.store_n (s : State) (v : Byte) :
    (s.store v).n = s.n := by unfold State.store; split <;> rfl
@[simp] theorem State.store_u (s : State) (v : Byte) :
    (s.store v).u = s.u := by unfold State.store; split <;> rfl
@[simp] theorem State.store_r (s : State) (v : Byte) :
    (s.store v).r = s.r := by unfold State.store; split <;> rfl
@[simp] theorem State.store_a (s : State) (v : Byte) :
    (s.store v).a = s.a := by unfold State.store; split <;> rfl
@[simp] theorem State.store_b (s : State) (v : Byte) :
    (s.store v).b = s.b := by unfold State.store; split <;> rfl
@[simp] theorem State.store_evt (s : State) (v : Byte) :
    (s.store v).evt = s.evt := by unfold State.store; split <;> rfl
@[simp] theorem State.store_termOut (s : State) (v : Byte) :
    (s.store v).termOut = s.termOut := by unfold State.store; split <;> rfl
@[simp] theorem State.store_ack (s : State) (v : Byte) :
    (s.store v).ack = s.ack := by unfold State.store; split <;> rfl
@[simp] theorem State.store_input (s : State) (v : Byte) :
    (s.store v).input = s.input := by unfold State.store; split <;> rfl

@[simp] theorem State.clear_params (s : State) :
    (s.clear).params = s.params := rfl
@[simp] theorem State.clear_proto (s : State) :
    (s.clear).proto = s.proto := rfl
@[simp] theorem State.clear_sync (s : State) :
    (s.clear).sync = s.sync := rfl
@[simp] theorem State.clear_n (s : State) :
    (s.clear).n = s.n := rfl
@[simp] theorem State.clear_u (s : State) :
    (s.clear).u = s.u := rfl
@[simp] theorem State.clear_r (s : State) :
    (s.clear).r = s.r := rfl
@[simp] theorem State.clear_a (s : State) :
    (s.clear).a = s.a := rfl
@[simp] theorem State.clear_b (s : State) :
    (s.clear).b = s.b := rfl
@[simp] theorem State.clear_buf (s : State) :
    (s.clear).buf = s.buf := rfl
@[simp] theorem State.clear_cur (s : State) :
    (s.clear).cur = 0 := rfl
@[simp] theorem State.clear_evt (s : State) :
    (s.clear).evt = s.evt := rfl
@[simp] theorem State.clear_termOut (s : State) :
    (s.clear).termOut = s.termOut := rfl
@[simp] theorem State.clear_ack (s : State) :
    (s.clear).ack = s.ack := rfl
@[simp] theorem State.clear_input (s : State) :
    (s.clear).input = s.input := rfl

@[simp] theorem State.tappendN_params (s : State) (v : Byte) :
    (s.tappendN v).params = s.params := rfl
@[simp] theorem State.tappendN_proto (s : State) (v : Byte) :
    (s.tappendN v).proto = s.proto := rfl
@[simp] theorem State.tappendN_sync (s : State) (v : Byte) :
    (s.tappendN v).sync = s.sync := rfl
@[simp] theorem State.tappendN_n (s : State) (v : Byte) :
    (s.tappendN v).n = { s.n with toTermBuf := s.n.toTermBuf.append s.params.nmeaTermCap v } := rfl
@[simp] theorem State.tappendN_u (s : State) (v : Byte) :
    (s.tappendN v).u = s.u := rfl
@[simp] theorem State.tappendN_r (s : State) (v : Byte) :
    (s.tappendN v).r = s.r := rfl
@[simp] theorem State.tappendN_a (s : State) (v : Byte) :
    (s.tappendN v).a = s.a := rfl
@[simp] theorem State.tappendN_b (s : State) (v : Byte) :
    (s.tappendN v).b = s.b := rfl
@[simp] theorem State.tappendN_buf (s : State) (v : Byte) :
    (s.tappendN v).buf = s.buf := rfl
@[simp] theorem State.tappendN_cur (s : State) (v : Byte) :
    (s.tappendN v).cur = s.cur := rfl
@[simp] theorem State.tappendN_evt (s : State) (v : Byte) :
    (s.tappendN v).evt = s.evt := rfl
@[simp] theorem State.tappendN_termOut (s : State) (v : Byte) :
    (s.tappendN v).termOut = s.termOut := rfl
@[simp] theorem State.tappendN_ack (s : State) (v : Byte) :
    (s.tappendN v).ack = s.ack := rfl
@[simp] theorem State.tappendN_input (s : State) (v : Byte) :
    (s.tappendN v).input = s.input := rfl

@[simp] theorem State.tappendA_params (s : State) (v : Byte) :
    (s.tappendA v).params = s.params := rfl
@[simp] theorem State.tappendA_proto (s : State) (v : Byte) :
    (s.tappendA v).proto = s.proto := rfl
@[simp] theorem State.tappendA_sync (s : State) (v : Byte) :
    (s.tappendA v).sync = s.sync := rfl
@[simp] theorem State.tappendA_n (s : State) (v : Byte) :
    (s.tappendA v).n = s.n := rfl
@[simp] theorem State.tappendA_u (s : State) (v : Byte) :
    (s.tappendA v).u = s.u := rfl
@[simp] theorem State.tappendA_r (s : State) (v : Byte) :
    (s.tappendA v).r = s.r := rfl
@[simp] theorem State.tappendA_a (s : State) (v : Byte) :
    (s.tappendA v).a = { s.a with toTermBuf := s.a.toTermBuf.append s.params.uniTermCap v } := rfl
@[simp] theorem State.tappendA_b (s : State) (v : Byte) :
    (s.tappendA v).b = s.b := rfl
@[simp] theorem State.tappendA_buf (s : State) (v : Byte) :
    (s.tappendA v).buf = s.buf := rfl
@[simp] theorem State.tappendA_cur (s : State) (v : Byte) :
    (s.tappendA v).cur = s.cur := rfl
@[simp] theorem State.tappendA_evt (s : State) (v : Byte) :
    (s.tappendA v).evt = s.evt := rfl
@[simp] theorem State.tappendA_termOut (s : State) (v : Byte) :
    (s.tappendA v).termOut = s.termOut := rfl
@[simp] theorem State.tappendA_ack (s : State) (v : Byte) :
    (s.tappendA v).ack = s.ack := rfl
@[simp] theorem State.tappendA_input (s : State) (v : Byte) :
    (s.tappendA v).input = s.input := rfl

@[simp] theorem State.foldN_params (s : State) (v : Byte) :
    (s.foldN v).params = s.params := rfl
@[simp] theorem State.foldN_proto (s : State) (v : Byte) :
    (s.foldN v).proto = s.proto := rfl
@[simp] theorem State.foldN_sync (s : State) (v : Byte) :
    (s.foldN v).sync = s.sync := rfl
@[simp] theorem State.foldN_n (s : State) (v : Byte) :
    (s.foldN v).n = { s.n with ck := if s.n.star then s.n.ck else s.n.ck ^^^ v } := rfl
@[simp] theorem State.foldN_u (s : State) (v : Byte) :
    (s.foldN v).u = s.u := rfl
@[simp] theorem State.foldN_r (s : State) (v : Byte) :
    (s.foldN v).r = s.r := rfl
@[simp] theorem State.foldN_a (s : State) (v : Byte) :
    (s.foldN v).a = s.a := rfl
@[simp] theorem State.foldN_b (s : State) (v : Byte) :
    (s.foldN v).b = s.b := rfl
@[simp] theorem State.foldN_buf (s : State) (v : Byte) :
    (s.foldN v).buf = s.buf := rfl
@[simp] theorem State.foldN_cur (s : State) (v : Byte) :
    (s.foldN v).cur = s.cur := rfl
@[simp] theorem State.foldN_evt (s : State) (v : Byte) :
    (s.foldN v).evt = s.evt := rfl
@[simp] theorem State.foldN_termOut (s : State) (v : Byte) :
    (s.foldN v).termOut = s.termOut := rfl
@[simp] theorem State.foldN_ack (s : State) (v : Byte) :
    (s.foldN v).ack = s.ack := rfl
@[simp] theorem State.foldN_input (s : State) (v : Byte) :
    (s.foldN v).input = s.input := rfl

@[simp] theorem State.foldA_params (s : State) (on : Bool) (v : Byte) :
    (s.foldA on v).params = s.params := rfl
@[simp] theorem State.foldA_proto (s : State) (on : Bool) (v : Byte) :
    (s.foldA on v).proto = s.proto := rfl
@[simp] theorem State.foldA_sync (s : State) (on : Bool) (v : Byte) :
    (s.foldA on v).sync = s.sync := rfl
@[simp] theorem State.foldA_n (s : State) (on : Bool) (v : Byte) :
    (s.foldA on v).n = s.n := rfl
@[simp] theorem State.foldA_u (s : State) (on : Bool) (v : Byte) :
    (s.foldA on v).u = s.u := rfl
@[simp] theorem State.foldA_r (s : State) (on : Bool) (v : Byte) :
    (s.foldA on v).r = s.r := rfl
@[simp] theorem State.foldA_a (s : State) (on : Bool) (v : Byte) :
    (s.foldA on v).a = { s.a with ck := if on then s.a.ck ^^^ v else s.a.ck } := rfl
@[simp] theorem State.foldA_b (s : State) (on : Bool) (v : Byte) :
    (s.foldA on v).b = s.b := rfl
@[simp] theorem State.foldA_buf (s : State) (on : Bool) (v : Byte) :
    (s.foldA on v).buf = s.buf := rfl
@[simp] theorem State.foldA_cur (s : State) (on : Bool) (v : Byte) :
    (s.foldA on v).cur = s.cur := rfl
@[simp] theorem State.foldA_evt (s : State) (on : Bool) (v : Byte) :
    (s.foldA on v).evt = s.evt := rfl
@[simp] theorem State.foldA_termOut (s : State) (on : Bool) (v : Byte) :
    (s.foldA on v).termOut = s.termOut := rfl
@[simp] theorem State.foldA_ack (s : State) (on : Bool) (v : Byte) :
    (s.foldA on v).ack = s.ack := rfl
@[simp] theorem State.foldA_input (s : State) (on : Bool) (v : Byte) :
    (s.foldA on v).input = s.input := rfl

@[simp] theorem State.foldU_params (s : State) (v : Byte) :
    (s.foldU v).params = s.params := rfl
@[simp] theorem State.foldU_proto (s : State) (v : Byte) :
    (s.foldU v).proto = s.proto := rfl
@[simp] theorem State.foldU_sync (s : State) (v : Byte) :
    (s.foldU v).sync = s.sync := rfl
@[simp] theorem State.foldU_n (s : State) (v : Byte) :
    (s.foldU v).n = s.n := rfl
@[simp] theorem State.foldU_u (s : State) (v : Byte) :
    (s.foldU v).u = { s.u with ckA := s.u.ckA + v, ckB := s.u.ckB + (s.u.ckA + v) } := rfl
@[simp] theorem State.foldU_r (s : State) (v : Byte) :
    (s.foldU v).r = s.r := rfl
@[simp] theorem State.foldU_a (s : State) (v : Byte) :
    (s.foldU v).a = s.a := rfl
@[simp] theorem State.foldU_b (s : State) (v : Byte) :
    (s.foldU v).b = s.b := rfl
@[simp] theorem State.foldU_buf (s : State) (v : Byte) :
    (s.foldU v).buf = s.buf := rfl
@[simp] theorem State.foldU_cur (s : State) (v : Byte) :
    (s.foldU v).cur = s.cur := rfl
@[simp] theorem State.foldU_evt (s : State) (v : Byte) :
    (s.foldU v).evt = s.evt := rfl
@[simp] theorem State.foldU_termOut (s : State) (v : Byte) :
    (s.foldU v).termOut = s.termOut := rfl
@[simp] theorem State.foldU_ack (s : State) (v : Byte) :
    (s.foldU v).ack = s.ack := rfl
@[simp] theorem State.foldU_input (s : State) (v : Byte) :
    (s.foldU v).input = s.input := rfl

@[simp] theorem State.setUbxPos_params (s : State) (p : Count17) :
    (s.setUbxPos p).params = s.params := rfl
@[simp] theorem State.setUbxPos_proto (s : State) (p : Count17) :
    (s.setUbxPos p).proto = s.proto := rfl
@[simp] theorem State.setUbxPos_sync (s : State) (p : Count17) :
    (s.setUbxPos p).sync = s.sync := rfl
@[simp] theorem State.setUbxPos_n (s : State) (p : Count17) :
    (s.setUbxPos p).n = s.n := rfl
@[simp] theorem State.setUbxPos_u (s : State) (p : Count17) :
    (s.setUbxPos p).u = { s.u with pos := p } := rfl
@[simp] theorem State.setUbxPos_r (s : State) (p : Count17) :
    (s.setUbxPos p).r = s.r := rfl
@[simp] theorem State.setUbxPos_a (s : State) (p : Count17) :
    (s.setUbxPos p).a = s.a := rfl
@[simp] theorem State.setUbxPos_b (s : State) (p : Count17) :
    (s.setUbxPos p).b = s.b := rfl
@[simp] theorem State.setUbxPos_buf (s : State) (p : Count17) :
    (s.setUbxPos p).buf = s.buf := rfl
@[simp] theorem State.setUbxPos_cur (s : State) (p : Count17) :
    (s.setUbxPos p).cur = s.cur := rfl
@[simp] theorem State.setUbxPos_evt (s : State) (p : Count17) :
    (s.setUbxPos p).evt = s.evt := rfl
@[simp] theorem State.setUbxPos_termOut (s : State) (p : Count17) :
    (s.setUbxPos p).termOut = s.termOut := rfl
@[simp] theorem State.setUbxPos_ack (s : State) (p : Count17) :
    (s.setUbxPos p).ack = s.ack := rfl
@[simp] theorem State.setUbxPos_input (s : State) (p : Count17) :
    (s.setUbxPos p).input = s.input := rfl

@[simp] theorem State.emitEvt_params (s : State) (p : Proto) (m : Msg) (f : List Byte) :
    (s.emitEvt p m f).params = s.params := rfl
@[simp] theorem State.emitEvt_proto (s : State) (p : Proto) (m : Msg) (f : List Byte) :
    (s.emitEvt p m f).proto = s.proto := rfl
@[simp] theorem State.emitEvt_sync (s : State) (p : Proto) (m : Msg) (f : List Byte) :
    (s.emitEvt p m f).sync = s.sync := rfl
@[simp] theorem State.emitEvt_n (s : State) (p : Proto) (m : Msg) (f : List Byte) :
    (s.emitEvt p m f).n = s.n := rfl
@[simp] theorem State.emitEvt_u (s : State) (p : Proto) (m : Msg) (f : List Byte) :
    (s.emitEvt p m f).u = s.u := rfl
@[simp] theorem State.emitEvt_r (s : State) (p : Proto) (m : Msg) (f : List Byte) :
    (s.emitEvt p m f).r = s.r := rfl
@[simp] theorem State.emitEvt_a (s : State) (p : Proto) (m : Msg) (f : List Byte) :
    (s.emitEvt p m f).a = s.a := rfl
@[simp] theorem State.emitEvt_b (s : State) (p : Proto) (m : Msg) (f : List Byte) :
    (s.emitEvt p m f).b = s.b := rfl
@[simp] theorem State.emitEvt_buf (s : State) (p : Proto) (m : Msg) (f : List Byte) :
    (s.emitEvt p m f).buf = s.buf := rfl
@[simp] theorem State.emitEvt_cur (s : State) (p : Proto) (m : Msg) (f : List Byte) :
    (s.emitEvt p m f).cur = s.cur := rfl
@[simp] theorem State.emitEvt_evt (s : State) (p : Proto) (m : Msg) (f : List Byte) :
    (s.emitEvt p m f).evt = some { kind := .dataParsed, proto := p, msg := m, frame := f } := rfl
@[simp] theorem State.emitEvt_termOut (s : State) (p : Proto) (m : Msg) (f : List Byte) :
    (s.emitEvt p m f).termOut = s.termOut := rfl
@[simp] theorem State.emitEvt_ack (s : State) (p : Proto) (m : Msg) (f : List Byte) :
    (s.emitEvt p m f).ack = s.ack := rfl
@[simp] theorem State.emitEvt_input (s : State) (p : Proto) (m : Msg) (f : List Byte) :
    (s.emitEvt p m f).input = s.input := rfl

@[simp] theorem State.emitTerm_params (s : State) (x : TermItem) :
    (s.emitTerm x).params = s.params := rfl
@[simp] theorem State.emitTerm_proto (s : State) (x : TermItem) :
    (s.emitTerm x).proto = s.proto := rfl
@[simp] theorem State.emitTerm_sync (s : State) (x : TermItem) :
    (s.emitTerm x).sync = s.sync := rfl
@[simp] theorem State.emitTerm_n (s : State) (x : TermItem) :
    (s.emitTerm x).n = s.n := rfl
@[simp] theorem State.emitTerm_u (s : State) (x : TermItem) :
    (s.emitTerm x).u = s.u := rfl
@[simp] theorem State.emitTerm_r (s : State) (x : TermItem) :
    (s.emitTerm x).r = s.r := rfl
@[simp] theorem State.emitTerm_a (s : State) (x : TermItem) :
    (s.emitTerm x).a = s.a := rfl
@[simp] theorem State.emitTerm_b (s : State) (x : TermItem) :
    (s.emitTerm x).b = s.b := rfl
@[simp] theorem State.emitTerm_buf (s : State) (x : TermItem) :
    (s.emitTerm x).buf = s.buf := rfl
@[simp] theorem State.emitTerm_cur (s : State) (x : TermItem) :
    (s.emitTerm x).cur = s.cur := rfl
@[simp] theorem State.emitTerm_evt (s : State) (x : TermItem) :
    (s.emitTerm x).evt = s.evt := rfl
@[simp] theorem State.emitTerm_termOut (s : State) (x : TermItem) :
    (s.emitTerm x).termOut = some x := rfl
@[simp] theorem State.emitTerm_ack (s : State) (x : TermItem) :
    (s.emitTerm x).ack = s.ack := rfl
@[simp] theorem State.emitTerm_input (s : State) (x : TermItem) :
    (s.emitTerm x).input = s.input := rfl

@[simp] theorem State.emitAck_params (s : State) (x : AckItem) :
    (s.emitAck x).params = s.params := rfl
@[simp] theorem State.emitAck_proto (s : State) (x : AckItem) :
    (s.emitAck x).proto = s.proto := rfl
@[simp] theorem State.emitAck_sync (s : State) (x : AckItem) :
    (s.emitAck x).sync = s.sync := rfl
@[simp] theorem State.emitAck_n (s : State) (x : AckItem) :
    (s.emitAck x).n = s.n := rfl
@[simp] theorem State.emitAck_u (s : State) (x : AckItem) :
    (s.emitAck x).u = s.u := rfl
@[simp] theorem State.emitAck_r (s : State) (x : AckItem) :
    (s.emitAck x).r = s.r := rfl
@[simp] theorem State.emitAck_a (s : State) (x : AckItem) :
    (s.emitAck x).a = s.a := rfl
@[simp] theorem State.emitAck_b (s : State) (x : AckItem) :
    (s.emitAck x).b = s.b := rfl
@[simp] theorem State.emitAck_buf (s : State) (x : AckItem) :
    (s.emitAck x).buf = s.buf := rfl
@[simp] theorem State.emitAck_cur (s : State) (x : AckItem) :
    (s.emitAck x).cur = s.cur := rfl
@[simp] theorem State.emitAck_evt (s : State) (x : AckItem) :
    (s.emitAck x).evt = s.evt := rfl
@[simp] theorem State.emitAck_termOut (s : State) (x : AckItem) :
    (s.emitAck x).termOut = s.termOut := rfl
@[simp] theorem State.emitAck_ack (s : State) (x : AckItem) :
    (s.emitAck x).ack = some x := rfl
@[simp] theorem State.emitAck_input (s : State) (x : AckItem) :
    (s.emitAck x).input = s.input := rfl

@[simp] theorem State.clearPorts_params (s : State) :
    (s.clearPorts).params = s.params := rfl
@[simp] theorem State.clearPorts_proto (s : State) :
    (s.clearPorts).proto = s.proto := rfl
@[simp] theorem State.clearPorts_sync (s : State) :
    (s.clearPorts).sync = s.sync := rfl
@[simp] theorem State.clearPorts_n (s : State) :
    (s.clearPorts).n = s.n := rfl
@[simp] theorem State.clearPorts_u (s : State) :
    (s.clearPorts).u = s.u := rfl
@[simp] theorem State.clearPorts_r (s : State) :
    (s.clearPorts).r = s.r := rfl
@[simp] theorem State.clearPorts_a (s : State) :
    (s.clearPorts).a = s.a := rfl
@[simp] theorem State.clearPorts_b (s : State) :
    (s.clearPorts).b = s.b := rfl
@[simp] theorem State.clearPorts_buf (s : State) :
    (s.clearPorts).buf = s.buf := rfl
@[simp] theorem State.clearPorts_cur (s : State) :
    (s.clearPorts).cur = s.cur := rfl
@[simp] theorem State.clearPorts_evt (s : State) :
    (s.clearPorts).evt = none := rfl
@[simp] theorem State.clearPorts_termOut (s : State) :
    (s.clearPorts).termOut = none := rfl
@[simp] theorem State.clearPorts_ack (s : State) :
    (s.clearPorts).ack = none := rfl
@[simp] theorem State.clearPorts_input (s : State) :
    (s.clearPorts).input = s.input := rfl

@[simp] theorem State.toIdle_params (s : State) :
    (s.toIdle).params = s.params := rfl
@[simp] theorem State.toIdle_proto (s : State) :
    (s.toIdle).proto = .none := rfl
@[simp] theorem State.toIdle_sync (s : State) :
    (s.toIdle).sync = .sIdle := rfl
@[simp] theorem State.toIdle_n (s : State) :
    (s.toIdle).n = s.n := rfl
@[simp] theorem State.toIdle_u (s : State) :
    (s.toIdle).u = s.u := rfl
@[simp] theorem State.toIdle_r (s : State) :
    (s.toIdle).r = s.r := rfl
@[simp] theorem State.toIdle_a (s : State) :
    (s.toIdle).a = s.a := rfl
@[simp] theorem State.toIdle_b (s : State) :
    (s.toIdle).b = s.b := rfl
@[simp] theorem State.toIdle_buf (s : State) :
    (s.toIdle).buf = s.buf := rfl
@[simp] theorem State.toIdle_cur (s : State) :
    (s.toIdle).cur = 0 := rfl
@[simp] theorem State.toIdle_evt (s : State) :
    (s.toIdle).evt = s.evt := rfl
@[simp] theorem State.toIdle_termOut (s : State) :
    (s.toIdle).termOut = s.termOut := rfl
@[simp] theorem State.toIdle_ack (s : State) :
    (s.toIdle).ack = s.ack := rfl
@[simp] theorem State.toIdle_input (s : State) :
    (s.toIdle).input = s.input := rfl

@[simp] theorem State.consume_params (s : State) (rest : List Stimulus) :
    (s.consume rest).params = s.params := rfl
@[simp] theorem State.consume_proto (s : State) (rest : List Stimulus) :
    (s.consume rest).proto = s.proto := rfl
@[simp] theorem State.consume_sync (s : State) (rest : List Stimulus) :
    (s.consume rest).sync = s.sync := rfl
@[simp] theorem State.consume_n (s : State) (rest : List Stimulus) :
    (s.consume rest).n = s.n := rfl
@[simp] theorem State.consume_u (s : State) (rest : List Stimulus) :
    (s.consume rest).u = s.u := rfl
@[simp] theorem State.consume_r (s : State) (rest : List Stimulus) :
    (s.consume rest).r = s.r := rfl
@[simp] theorem State.consume_a (s : State) (rest : List Stimulus) :
    (s.consume rest).a = s.a := rfl
@[simp] theorem State.consume_b (s : State) (rest : List Stimulus) :
    (s.consume rest).b = s.b := rfl
@[simp] theorem State.consume_buf (s : State) (rest : List Stimulus) :
    (s.consume rest).buf = s.buf := rfl
@[simp] theorem State.consume_cur (s : State) (rest : List Stimulus) :
    (s.consume rest).cur = s.cur := rfl
@[simp] theorem State.consume_evt (s : State) (rest : List Stimulus) :
    (s.consume rest).evt = none := rfl
@[simp] theorem State.consume_termOut (s : State) (rest : List Stimulus) :
    (s.consume rest).termOut = none := rfl
@[simp] theorem State.consume_ack (s : State) (rest : List Stimulus) :
    (s.consume rest).ack = none := rfl
@[simp] theorem State.consume_input (s : State) (rest : List Stimulus) :
    (s.consume rest).input = rest := rfl

@[simp] theorem State.feed_params (s : State) (bytes : List Byte) :
    (s.feed bytes).params = s.params := rfl
@[simp] theorem State.feed_proto (s : State) (bytes : List Byte) :
    (s.feed bytes).proto = s.proto := rfl
@[simp] theorem State.feed_sync (s : State) (bytes : List Byte) :
    (s.feed bytes).sync = s.sync := rfl
@[simp] theorem State.feed_n (s : State) (bytes : List Byte) :
    (s.feed bytes).n = s.n := rfl
@[simp] theorem State.feed_u (s : State) (bytes : List Byte) :
    (s.feed bytes).u = s.u := rfl
@[simp] theorem State.feed_r (s : State) (bytes : List Byte) :
    (s.feed bytes).r = s.r := rfl
@[simp] theorem State.feed_a (s : State) (bytes : List Byte) :
    (s.feed bytes).a = s.a := rfl
@[simp] theorem State.feed_b (s : State) (bytes : List Byte) :
    (s.feed bytes).b = s.b := rfl
@[simp] theorem State.feed_buf (s : State) (bytes : List Byte) :
    (s.feed bytes).buf = s.buf := rfl
@[simp] theorem State.feed_cur (s : State) (bytes : List Byte) :
    (s.feed bytes).cur = s.cur := rfl
@[simp] theorem State.feed_evt (s : State) (bytes : List Byte) :
    (s.feed bytes).evt = s.evt := rfl
@[simp] theorem State.feed_termOut (s : State) (bytes : List Byte) :
    (s.feed bytes).termOut = s.termOut := rfl
@[simp] theorem State.feed_ack (s : State) (bytes : List Byte) :
    (s.feed bytes).ack = s.ack := rfl
@[simp] theorem State.feed_input (s : State) (bytes : List Byte) :
    (s.feed bytes).input = s.input ++ bytes.map Stimulus.byte := rfl

/-- `store` below the capacity writes at the cursor and advances it (20_memory.md R44). -/
theorem State.store_of_lt {s : State} (v : Byte) (h : s.cur < s.params.payloadCap) :
    s.store v = { s with buf := s.buf.write s.cur v, cur := s.cur + 1 } := by
  simp [State.store, h]

/-- `store` into a full buffer keeps everything (20_memory.md R44). -/
theorem State.store_of_full {s : State} (v : Byte) (h : ¬ s.cur < s.params.payloadCap) : s.store v = s := by
  simp [State.store, h]

/-- The cursor after `store`: one more, cut at the capacity. -/
theorem State.store_cur {s : State} (v : Byte) (h : s.cur ≤ s.params.payloadCap) :
    (s.store v).cur = min (s.cur + 1) s.params.payloadCap := by
  unfold State.store
  split
  · show s.cur + 1 = _; omega
  · omega

/-- `store` touches no index below the cursor. -/
theorem State.store_read_below {s : State} (v : Byte) (i : Nat) (h : i < s.cur) :
    (s.store v).buf.read i = s.buf.read i := by
  unfold State.store
  split
  · exact Memory.read_write_other _ _ _ _ (by omega)
  · rfl

/-- The snapshot after `store`: the byte joins it unless the buffer is full. -/
theorem State.store_frame {s : State} (v : Byte) :
    (s.store v).frame = if s.cur < s.params.payloadCap then s.frame ++ [v] else s.frame := by
  unfold State.store
  split
  · exact Memory.bytes_write_append _ _ _ _
  · rfl

@[simp] theorem TermBuf.append_tidx_of_lt {t : TermBuf} {cap : Nat} (v : Byte) (h : t.tidx < cap) :
    (t.append cap v).tidx = t.tidx + 1 := by simp [TermBuf.append, h]

@[simp] theorem TermBuf.append_term_of_lt {t : TermBuf} {cap : Nat} (v : Byte) (h : t.tidx < cap) :
    (t.append cap v).term = t.term.write t.tidx v := by simp [TermBuf.append, h]

/-- `tappend` into a full term buffer keeps it (20_memory.md R46). -/
theorem TermBuf.append_of_full {t : TermBuf} {cap : Nat} (v : Byte) (h : ¬ t.tidx < cap) : t.append cap v = t := by
  simp [TermBuf.append, h]

/-- The text of a term after `tappend`: the character joins it unless the buffer is full. -/
theorem TermBuf.append_text {t : TermBuf} {cap : Nat} (v : Byte) (name : BufferName) :
    (t.append cap v).text name = if t.tidx < cap then t.text name ++ [v] else t.text name := by
  unfold TermBuf.append
  split
  · exact Memory.bytes_write_append _ _ _ _
  · rfl

@[simp] theorem State.consume_context (s : State) (rest : List Stimulus) :
    (s.consume rest).context = s.context := rfl

@[simp] theorem State.feed_context (s : State) (bytes : List Byte) : (s.feed bytes).context = s.context := rfl

end Sys2Proof.Machine
end

