-- ==== Sys2Proof/Laws/Ops.lean ====
section
/-! SUPPORT. What the operations built from the shared updates leave unchanged, one lemma for each
field, and their spec lemmas. -/

namespace Sys2Proof.Machine

@[simp] theorem State.closeUni_params (s : State) : s.closeUni.params = s.params := rfl
@[simp] theorem State.closeUni_proto (s : State) : s.closeUni.proto = s.proto := rfl
@[simp] theorem State.closeUni_sync (s : State) : s.closeUni.sync = s.sync := rfl
@[simp] theorem State.closeUni_n (s : State) : s.closeUni.n = s.n := rfl
@[simp] theorem State.closeUni_u (s : State) : s.closeUni.u = s.u := rfl
@[simp] theorem State.closeUni_r (s : State) : s.closeUni.r = s.r := rfl
@[simp] theorem State.closeUni_b (s : State) : s.closeUni.b = s.b := rfl
@[simp] theorem State.closeUni_buf (s : State) : s.closeUni.buf = s.buf := rfl
@[simp] theorem State.closeUni_cur (s : State) : s.closeUni.cur = s.cur := rfl
@[simp] theorem State.closeUni_evt (s : State) : s.closeUni.evt = s.evt := rfl
@[simp] theorem State.closeUni_ack (s : State) : s.closeUni.ack = s.ack := rfl
@[simp] theorem State.closeUni_input (s : State) : s.closeUni.input = s.input := rfl

@[simp] theorem State.nextUniTerm_params (s : State) : s.nextUniTerm.params = s.params := rfl
@[simp] theorem State.nextUniTerm_proto (s : State) : s.nextUniTerm.proto = s.proto := rfl
@[simp] theorem State.nextUniTerm_sync (s : State) : s.nextUniTerm.sync = s.sync := rfl
@[simp] theorem State.nextUniTerm_n (s : State) : s.nextUniTerm.n = s.n := rfl
@[simp] theorem State.nextUniTerm_u (s : State) : s.nextUniTerm.u = s.u := rfl
@[simp] theorem State.nextUniTerm_r (s : State) : s.nextUniTerm.r = s.r := rfl
@[simp] theorem State.nextUniTerm_b (s : State) : s.nextUniTerm.b = s.b := rfl
@[simp] theorem State.nextUniTerm_buf (s : State) : s.nextUniTerm.buf = s.buf := rfl
@[simp] theorem State.nextUniTerm_cur (s : State) : s.nextUniTerm.cur = s.cur := rfl
@[simp] theorem State.nextUniTerm_evt (s : State) : s.nextUniTerm.evt = s.evt := rfl
@[simp] theorem State.nextUniTerm_termOut (s : State) : s.nextUniTerm.termOut = s.termOut := rfl
@[simp] theorem State.nextUniTerm_ack (s : State) : s.nextUniTerm.ack = s.ack := rfl
@[simp] theorem State.nextUniTerm_input (s : State) : s.nextUniTerm.input = s.input := rfl

@[simp] theorem State.uniComma_params (s : State) : s.uniComma.params = s.params := rfl
@[simp] theorem State.uniComma_proto (s : State) : s.uniComma.proto = s.proto := rfl
@[simp] theorem State.uniComma_sync (s : State) : s.uniComma.sync = s.sync := rfl
@[simp] theorem State.uniComma_n (s : State) : s.uniComma.n = s.n := rfl
@[simp] theorem State.uniComma_u (s : State) : s.uniComma.u = s.u := rfl
@[simp] theorem State.uniComma_r (s : State) : s.uniComma.r = s.r := rfl
@[simp] theorem State.uniComma_b (s : State) : s.uniComma.b = s.b := rfl
@[simp] theorem State.uniComma_buf (s : State) : s.uniComma.buf = s.buf := rfl
@[simp] theorem State.uniComma_cur (s : State) : s.uniComma.cur = s.cur := rfl
@[simp] theorem State.uniComma_evt (s : State) : s.uniComma.evt = s.evt := rfl
@[simp] theorem State.uniComma_ack (s : State) : s.uniComma.ack = s.ack := rfl
@[simp] theorem State.uniComma_input (s : State) : s.uniComma.input = s.input := rfl

@[simp] theorem State.uniStar_params (s : State) : s.uniStar.params = s.params := rfl
@[simp] theorem State.uniStar_proto (s : State) : s.uniStar.proto = s.proto := rfl
@[simp] theorem State.uniStar_sync (s : State) : s.uniStar.sync = s.sync := rfl
@[simp] theorem State.uniStar_n (s : State) : s.uniStar.n = s.n := rfl
@[simp] theorem State.uniStar_u (s : State) : s.uniStar.u = s.u := rfl
@[simp] theorem State.uniStar_r (s : State) : s.uniStar.r = s.r := rfl
@[simp] theorem State.uniStar_b (s : State) : s.uniStar.b = s.b := rfl
@[simp] theorem State.uniStar_buf (s : State) : s.uniStar.buf = s.buf := rfl
@[simp] theorem State.uniStar_cur (s : State) : s.uniStar.cur = s.cur := rfl
@[simp] theorem State.uniStar_evt (s : State) : s.uniStar.evt = s.evt := rfl
@[simp] theorem State.uniStar_ack (s : State) : s.uniStar.ack = s.ack := rfl
@[simp] theorem State.uniStar_input (s : State) : s.uniStar.input = s.input := rfl

@[simp] theorem State.handOff_params (s : State) : s.handOff.params = s.params := rfl
@[simp] theorem State.handOff_sync (s : State) : s.handOff.sync = s.sync := rfl
@[simp] theorem State.handOff_n (s : State) : s.handOff.n = s.n := rfl
@[simp] theorem State.handOff_u (s : State) : s.handOff.u = s.u := rfl
@[simp] theorem State.handOff_r (s : State) : s.handOff.r = s.r := rfl
@[simp] theorem State.handOff_b (s : State) : s.handOff.b = s.b := rfl
@[simp] theorem State.handOff_buf (s : State) : s.handOff.buf = s.buf := rfl
@[simp] theorem State.handOff_evt (s : State) : s.handOff.evt = s.evt := rfl
@[simp] theorem State.handOff_termOut (s : State) : s.handOff.termOut = s.termOut := rfl
@[simp] theorem State.handOff_ack (s : State) : s.handOff.ack = s.ack := rfl
@[simp] theorem State.handOff_input (s : State) : s.handOff.input = s.input := rfl

@[simp] theorem State.closeNmea_params (s : State) : s.closeNmea.params = s.params := rfl
@[simp] theorem State.closeNmea_proto (s : State) : s.closeNmea.proto = s.proto := rfl
@[simp] theorem State.closeNmea_sync (s : State) : s.closeNmea.sync = s.sync := rfl
@[simp] theorem State.closeNmea_u (s : State) : s.closeNmea.u = s.u := rfl
@[simp] theorem State.closeNmea_r (s : State) : s.closeNmea.r = s.r := rfl
@[simp] theorem State.closeNmea_a (s : State) : s.closeNmea.a = s.a := rfl
@[simp] theorem State.closeNmea_b (s : State) : s.closeNmea.b = s.b := rfl
@[simp] theorem State.closeNmea_buf (s : State) : s.closeNmea.buf = s.buf := rfl
@[simp] theorem State.closeNmea_cur (s : State) : s.closeNmea.cur = s.cur := rfl
@[simp] theorem State.closeNmea_evt (s : State) : s.closeNmea.evt = s.evt := rfl
@[simp] theorem State.closeNmea_ack (s : State) : s.closeNmea.ack = s.ack := rfl
@[simp] theorem State.closeNmea_input (s : State) : s.closeNmea.input = s.input := rfl

@[simp] theorem State.nextNmeaTerm_params (s : State) : s.nextNmeaTerm.params = s.params := rfl
@[simp] theorem State.nextNmeaTerm_proto (s : State) : s.nextNmeaTerm.proto = s.proto := rfl
@[simp] theorem State.nextNmeaTerm_sync (s : State) : s.nextNmeaTerm.sync = s.sync := rfl
@[simp] theorem State.nextNmeaTerm_u (s : State) : s.nextNmeaTerm.u = s.u := rfl
@[simp] theorem State.nextNmeaTerm_r (s : State) : s.nextNmeaTerm.r = s.r := rfl
@[simp] theorem State.nextNmeaTerm_a (s : State) : s.nextNmeaTerm.a = s.a := rfl
@[simp] theorem State.nextNmeaTerm_b (s : State) : s.nextNmeaTerm.b = s.b := rfl
@[simp] theorem State.nextNmeaTerm_buf (s : State) : s.nextNmeaTerm.buf = s.buf := rfl
@[simp] theorem State.nextNmeaTerm_cur (s : State) : s.nextNmeaTerm.cur = s.cur := rfl
@[simp] theorem State.nextNmeaTerm_evt (s : State) : s.nextNmeaTerm.evt = s.evt := rfl
@[simp] theorem State.nextNmeaTerm_termOut (s : State) : s.nextNmeaTerm.termOut = s.termOut := rfl
@[simp] theorem State.nextNmeaTerm_ack (s : State) : s.nextNmeaTerm.ack = s.ack := rfl
@[simp] theorem State.nextNmeaTerm_input (s : State) : s.nextNmeaTerm.input = s.input := rfl

@[simp] theorem State.unibReadHeader_params (s : State) : s.unibReadHeader.params = s.params := rfl
@[simp] theorem State.unibReadHeader_proto (s : State) : s.unibReadHeader.proto = s.proto := rfl
@[simp] theorem State.unibReadHeader_sync (s : State) : s.unibReadHeader.sync = s.sync := rfl
@[simp] theorem State.unibReadHeader_n (s : State) : s.unibReadHeader.n = s.n := rfl
@[simp] theorem State.unibReadHeader_u (s : State) : s.unibReadHeader.u = s.u := rfl
@[simp] theorem State.unibReadHeader_r (s : State) : s.unibReadHeader.r = s.r := rfl
@[simp] theorem State.unibReadHeader_a (s : State) : s.unibReadHeader.a = s.a := rfl
@[simp] theorem State.unibReadHeader_buf (s : State) : s.unibReadHeader.buf = s.buf := rfl
@[simp] theorem State.unibReadHeader_cur (s : State) : s.unibReadHeader.cur = s.cur := rfl
@[simp] theorem State.unibReadHeader_evt (s : State) : s.unibReadHeader.evt = s.evt := rfl
@[simp] theorem State.unibReadHeader_termOut (s : State) : s.unibReadHeader.termOut = s.termOut := rfl
@[simp] theorem State.unibReadHeader_ack (s : State) : s.unibReadHeader.ack = s.ack := rfl
@[simp] theorem State.unibReadHeader_input (s : State) : s.unibReadHeader.input = s.input := rfl

@[simp] theorem State.unibComplete_params (s : State) : s.unibComplete.params = s.params := by unfold State.unibComplete; split <;> rfl
@[simp] theorem State.unibComplete_n (s : State) : s.unibComplete.n = s.n := by unfold State.unibComplete; split <;> rfl
@[simp] theorem State.unibComplete_u (s : State) : s.unibComplete.u = s.u := by unfold State.unibComplete; split <;> rfl
@[simp] theorem State.unibComplete_r (s : State) : s.unibComplete.r = s.r := by unfold State.unibComplete; split <;> rfl
@[simp] theorem State.unibComplete_a (s : State) : s.unibComplete.a = s.a := by unfold State.unibComplete; split <;> rfl
@[simp] theorem State.unibComplete_b (s : State) : s.unibComplete.b = s.b := by unfold State.unibComplete; split <;> rfl
@[simp] theorem State.unibComplete_buf (s : State) : s.unibComplete.buf = s.buf := by unfold State.unibComplete; split <;> rfl
@[simp] theorem State.unibComplete_termOut (s : State) : s.unibComplete.termOut = s.termOut := by unfold State.unibComplete; split <;> rfl
@[simp] theorem State.unibComplete_ack (s : State) : s.unibComplete.ack = s.ack := by unfold State.unibComplete; split <;> rfl
@[simp] theorem State.unibComplete_input (s : State) : s.unibComplete.input = s.input := by unfold State.unibComplete; split <;> rfl

@[simp] theorem State.rtcmComplete_params (s : State) : s.rtcmComplete.params = s.params := rfl
@[simp] theorem State.rtcmComplete_n (s : State) : s.rtcmComplete.n = s.n := rfl
@[simp] theorem State.rtcmComplete_u (s : State) : s.rtcmComplete.u = s.u := rfl
@[simp] theorem State.rtcmComplete_a (s : State) : s.rtcmComplete.a = s.a := rfl
@[simp] theorem State.rtcmComplete_b (s : State) : s.rtcmComplete.b = s.b := rfl
@[simp] theorem State.rtcmComplete_buf (s : State) : s.rtcmComplete.buf = s.buf := rfl
@[simp] theorem State.rtcmComplete_termOut (s : State) : s.rtcmComplete.termOut = s.termOut := rfl
@[simp] theorem State.rtcmComplete_ack (s : State) : s.rtcmComplete.ack = s.ack := rfl
@[simp] theorem State.rtcmComplete_input (s : State) : s.rtcmComplete.input = s.input := rfl

@[simp] theorem State.ubxReport_params (s : State) : s.ubxReport.params = s.params := by unfold State.ubxReport; split <;> rfl
@[simp] theorem State.ubxReport_proto (s : State) : s.ubxReport.proto = s.proto := by unfold State.ubxReport; split <;> rfl
@[simp] theorem State.ubxReport_sync (s : State) : s.ubxReport.sync = s.sync := by unfold State.ubxReport; split <;> rfl
@[simp] theorem State.ubxReport_n (s : State) : s.ubxReport.n = s.n := by unfold State.ubxReport; split <;> rfl
@[simp] theorem State.ubxReport_u (s : State) : s.ubxReport.u = s.u := by unfold State.ubxReport; split <;> rfl
@[simp] theorem State.ubxReport_r (s : State) : s.ubxReport.r = s.r := by unfold State.ubxReport; split <;> rfl
@[simp] theorem State.ubxReport_a (s : State) : s.ubxReport.a = s.a := by unfold State.ubxReport; split <;> rfl
@[simp] theorem State.ubxReport_b (s : State) : s.ubxReport.b = s.b := by unfold State.ubxReport; split <;> rfl
@[simp] theorem State.ubxReport_buf (s : State) : s.ubxReport.buf = s.buf := by unfold State.ubxReport; split <;> rfl
@[simp] theorem State.ubxReport_cur (s : State) : s.ubxReport.cur = s.cur := by unfold State.ubxReport; split <;> rfl
@[simp] theorem State.ubxReport_termOut (s : State) : s.ubxReport.termOut = s.termOut := by unfold State.ubxReport; split <;> rfl
@[simp] theorem State.ubxReport_input (s : State) : s.ubxReport.input = s.input := by unfold State.ubxReport; split <;> rfl

@[simp] theorem State.unibTake_params (s : State) (v : Byte) : (s.unibTake v).params = s.params := by simp [State.unibTake]
@[simp] theorem State.unibTake_proto (s : State) (v : Byte) : (s.unibTake v).proto = s.proto := by simp [State.unibTake]
@[simp] theorem State.unibTake_sync (s : State) (v : Byte) : (s.unibTake v).sync = s.sync := by simp [State.unibTake]
@[simp] theorem State.unibTake_n (s : State) (v : Byte) : (s.unibTake v).n = s.n := by simp [State.unibTake]
@[simp] theorem State.unibTake_u (s : State) (v : Byte) : (s.unibTake v).u = s.u := by simp [State.unibTake]
@[simp] theorem State.unibTake_r (s : State) (v : Byte) : (s.unibTake v).r = s.r := by simp [State.unibTake]
@[simp] theorem State.unibTake_a (s : State) (v : Byte) : (s.unibTake v).a = s.a := by simp [State.unibTake]
@[simp] theorem State.unibTake_evt (s : State) (v : Byte) : (s.unibTake v).evt = s.evt := by simp [State.unibTake]
@[simp] theorem State.unibTake_termOut (s : State) (v : Byte) : (s.unibTake v).termOut = s.termOut := by simp [State.unibTake]
@[simp] theorem State.unibTake_ack (s : State) (v : Byte) : (s.unibTake v).ack = s.ack := by simp [State.unibTake]
@[simp] theorem State.unibTake_input (s : State) (v : Byte) : (s.unibTake v).input = s.input := by simp [State.unibTake]

/-- Every operation answers a next state: no meaning stops (30_encoding.md R82). -/
theorem exec_next (i : Instr) (s : State) : ∃ t, exec i s = .next t := by
  cases i <;> exact ⟨_, rfl⟩

/-- The state an operation leads to. -/
def after (i : Instr) (s : State) : State :=
  match exec i s with
  | .next t => t
  | _ => s

/-- `exec` answers exactly that state. -/
theorem exec_after (i : Instr) (s : State) : exec i s = .next (after i s) := by
  obtain ⟨t, h⟩ := exec_next i s
  simp [after, h]

/-! The spec lemma of each meaning: the state it leads to, in the terms of the shared operations. -/

theorem after_dStartNmea (held : Sync) (s : State) :
    after (.dStartNmea held) s = { s.clear with
      proto := .nmea, sync := .sIdle, n := { s.n with tidx := 0, tnum := 0, ck := 0, star := false, stype := .none } } := rfl

theorem after_dUbxSync1 (held : Sync) (s : State) :
    after (.dUbxSync1 held) s = { s with sync := .sUbx1 } := rfl

theorem after_dUbxConfirm (s : State) :
    after .dUbxConfirm s = { s.clear with
      proto := .ubx, sync := .sIdle, u := { pos := 0, cls := 0, id := 0, len := 0, rxA := 0, rxB := 0, ckA := 0, ckB := 0 } } := rfl

theorem after_dUniSync1 (held : Sync) (s : State) :
    after (.dUniSync1 held) s = { s with sync := .sUni1 } := rfl

theorem after_dUniSync2 (s : State) :
    after .dUniSync2 s = { s with sync := .sUni2 } := rfl

theorem after_dUnibConfirm (s : State) :
    after .dUnibConfirm s = { ((s.clear.store 0xAA).store 0x44).store 0xB5 with
      proto := .unicoreBinary, sync := .sIdle, b := { cnt := 3, mid := 0, mlen := 0, total := 0 } } := rfl

theorem after_dStartRtcm (held : Sync) (s : State) :
    after (.dStartRtcm held) s = { s.clear.store 0xD3 with
      proto := .rtcm, sync := .sIdle, r := { cnt := 1, len := 0, total := 0, mtype := 0 } } := rfl

theorem after_dDiscard (held : Sync) (b : Byte) (s : State) :
    after (.dDiscard held b) s = { s with sync := .sIdle } := rfl

theorem after_nChar (b : Byte) (s : State) :
    after (.nChar b) s = (s.foldN b).tappendN b := rfl

theorem after_nComma (s : State) :
    after .nComma s = if s.handsOff then s.handOff.uniComma else (s.closeNmea.foldN 0x2C).nextNmeaTerm := rfl

theorem after_nStar (s : State) :
    after .nStar s = if s.handsOff then s.handOff.uniStar
      else { s.closeNmea with n := { s.closeNmea.n with star := true } }.nextNmeaTerm := rfl

theorem after_nCr (s : State) :
    after .nCr s = (if s.nmeaCkOk then s.emitEvt .nmea (.nmea s.n.stype) [] else s).toIdle := rfl

theorem after_uClass (b : Byte) (s : State) :
    after (.uClass b) s = ({ s with u := { s.u with cls := b } }.foldU b).setUbxPos 1 := rfl

theorem after_uId (b : Byte) (s : State) :
    after (.uId b) s = ({ s with u := { s.u with id := b } }.foldU b).setUbxPos 2 := rfl

theorem after_uLenLo (b : Byte) (s : State) :
    after (.uLenLo b) s = ({ s with u := { s.u with len := setLenLo s.u.len b } }.foldU b).setUbxPos 3 := rfl

theorem after_uLenHi (b : Byte) (s : State) :
    after (.uLenHi b) s = ({ s with u := { s.u with len := setLenHi s.u.len b } }.foldU b).setUbxPos 4 := rfl

theorem after_uPayload (b : Byte) (s : State) :
    after (.uPayload b) s = ((s.store b).foldU b).setUbxPos (s.u.pos + 1) := rfl

theorem after_uCkA (b : Byte) (s : State) :
    after (.uCkA b) s = { s with u := { s.u with rxA := b } }.setUbxPos (s.u.pos + 1) := rfl

theorem after_uCkB (b : Byte) (s : State) :
    after (.uCkB b) s = (if ({ s with u := { s.u with rxB := b } } : State).ubxCkOk
      then { s with u := { s.u with rxB := b } }.ubxReport else { s with u := { s.u with rxB := b } }).toIdle := rfl

theorem after_aChar (b : Byte) (s : State) :
    after (.aChar b) s = (s.foldA (!s.a.star && !s.a.colon) b).tappendA b := rfl

theorem after_aColon (s : State) :
    after .aColon s = { s.foldA (!s.a.star && !s.a.colon) 0x3A with
      a := { (s.foldA (!s.a.star && !s.a.colon) 0x3A).a with colon := true } }.tappendA 0x3A := rfl

theorem after_aComma (s : State) :
    after .aComma s = s.uniComma := rfl

theorem after_aStar (s : State) :
    after .aStar s = s.uniStar := rfl

theorem after_aCr (s : State) :
    after .aCr s = (if s.uniCkOk then s.emitEvt .unicore (.unicore (Config.unicoreResp s.a.terms)) [] else s).toIdle := rfl

theorem after_bHeader (b : Byte) (s : State) :
    after (.bHeader b) s = if (s.unibTake b).b.cnt.toNat = Config.unibHdrLen
      then (s.unibTake b).unibReadHeader.unibComplete else s.unibTake b := rfl

theorem after_bBody (b : Byte) (s : State) :
    after (.bBody b) s = (s.unibTake b).unibComplete := rfl

theorem after_rLenHi (b : Byte) (s : State) :
    after (.rLenHi b) s = { s.store b with r := { s.r with len := setRtcmLenHi s.r.len b, cnt := 2 } } := rfl

theorem after_rLenLo (b : Byte) (s : State) :
    after (.rLenLo b) s = { s.store b with
      r := { s.r with len := setRtcmLenLo s.r.len b, total := rtcmTotal (setRtcmLenLo s.r.len b), cnt := 3 } } := rfl

theorem after_rBody (b : Byte) (s : State) :
    after (.rBody b) s = if s.r.cnt + 1 = s.r.total
      then State.rtcmComplete { s.store b with r := { s.r with cnt := s.r.cnt + 1 } }
      else { s.store b with r := { s.r with cnt := s.r.cnt + 1 } } := rfl

/-- The hand-off test says that term 0 is kept as `command`. -/
theorem handsOff_iff (s : State) : s.handsOff = true ↔ KeptCommand s := by
  simp [State.handsOff, KeptCommand, and_assoc]

/-- What a step that goes on can be: it waited, performed `init`, or ran the decoded operation. -/
theorem step_cases {s t : State} (h : step s = .next t) :
    (s.input = [] ∧ t = s.clearPorts) ∨
    (∃ rest, s.input = .init :: rest ∧ t = ({ s with input := rest } : State).init) ∨
    (∃ b rest c, s.input = .byte b :: rest ∧ s.context = some c ∧ t = after (decode c b) (s.consume rest)) := by
  unfold step at h
  split at h
  · cases h; exact .inl ⟨‹_›, rfl⟩
  · rename_i b rest hi
    unfold stepByte at h
    split at h
    · rw [exec_after] at h
      cases h
      exact .inr (.inr ⟨b, rest, _, hi, ‹_›, rfl⟩)
    · split at h <;> cases h
  · cases h; exact .inr (.inl ⟨_, ‹_›, rfl⟩)

/-- A step with a byte waiting in a context runs the decoded operation. -/
theorem step_byte {s : State} {b : Byte} {rest : List Stimulus} {c : Context}
    (hi : s.input = .byte b :: rest) (hc : s.context = some c) :
    step s = .next (after (decode c b) (s.consume rest)) := by
  simp [step, hi, stepByte, hc, exec_after]

end Sys2Proof.Machine
end

