-- ==== Sys2Proof/Laws/PerInstr.lean ====
section
/-! SUPPORT. The family of statements about the instruction as syntax: every well-formed form of every
operation is a row of the operation map (opcode_table.json). -/

namespace Sys2Proof.Laws.InTable

/-- Every well-formed form of the instruction stands in the operation map: some row of its context
names its operation and applies to its byte (30_encoding.md R81). -/
def Statement (i : Instr) : Prop :=
  i.wf = true → ∃ r ∈ opcodeTable, r.ctx = (encode i).1 ∧ r.op = i.op ∧ r.applies (encode i).2 = true

/-- The last row of a context applies to any byte. -/
theorem any_applies (c : Context) (o : Op) (b : Byte) : Row.applies ⟨c, 0, 0, o⟩ b = true := by
  simp [Row.applies]

theorem dStartNmea (held : Sync) : Statement (.dStartNmea held) := by
  unfold Statement; cases held <;> decide

theorem dUbxSync1 (held : Sync) : Statement (.dUbxSync1 held) := by
  unfold Statement; cases held <;> decide

theorem dUniSync1 (held : Sync) : Statement (.dUniSync1 held) := by
  unfold Statement; cases held <;> decide

theorem dStartRtcm (held : Sync) : Statement (.dStartRtcm held) := by
  unfold Statement; cases held <;> decide

theorem dDiscard (held : Sync) (b : Byte) : Statement (.dDiscard held b) := fun _ =>
  ⟨⟨.sync held, 0, 0, .dDiscard⟩, by cases held <;> decide, rfl, rfl, any_applies _ _ _⟩

theorem dUbxConfirm : Statement .dUbxConfirm := by
  unfold Statement; decide

theorem dUniSync2 : Statement .dUniSync2 := by
  unfold Statement; decide

theorem dUnibConfirm : Statement .dUnibConfirm := by
  unfold Statement; decide

theorem nComma : Statement .nComma := by
  unfold Statement; decide

theorem nStar : Statement .nStar := by
  unfold Statement; decide

theorem nCr : Statement .nCr := by
  unfold Statement; decide

theorem nChar (b : Byte) : Statement (.nChar b) := fun _ =>
  ⟨⟨.nmea, 0, 0, .nChar⟩, by decide, rfl, rfl, any_applies _ _ _⟩

theorem uClass (b : Byte) : Statement (.uClass b) := fun _ =>
  ⟨⟨.ubxP0, 0, 0, .uClass⟩, by decide, rfl, rfl, any_applies _ _ _⟩

theorem uId (b : Byte) : Statement (.uId b) := fun _ =>
  ⟨⟨.ubxP1, 0, 0, .uId⟩, by decide, rfl, rfl, any_applies _ _ _⟩

theorem uLenLo (b : Byte) : Statement (.uLenLo b) := fun _ =>
  ⟨⟨.ubxP2, 0, 0, .uLenLo⟩, by decide, rfl, rfl, any_applies _ _ _⟩

theorem uLenHi (b : Byte) : Statement (.uLenHi b) := fun _ =>
  ⟨⟨.ubxP3, 0, 0, .uLenHi⟩, by decide, rfl, rfl, any_applies _ _ _⟩

theorem uPayload (b : Byte) : Statement (.uPayload b) := fun _ =>
  ⟨⟨.ubxPayload, 0, 0, .uPayload⟩, by decide, rfl, rfl, any_applies _ _ _⟩

theorem uCkA (b : Byte) : Statement (.uCkA b) := fun _ =>
  ⟨⟨.ubxCkA, 0, 0, .uCkA⟩, by decide, rfl, rfl, any_applies _ _ _⟩

theorem uCkB (b : Byte) : Statement (.uCkB b) := fun _ =>
  ⟨⟨.ubxCkB, 0, 0, .uCkB⟩, by decide, rfl, rfl, any_applies _ _ _⟩

theorem aComma : Statement .aComma := by
  unfold Statement; decide

theorem aStar : Statement .aStar := by
  unfold Statement; decide

theorem aCr : Statement .aCr := by
  unfold Statement; decide

theorem aColon : Statement .aColon := by
  unfold Statement; decide

theorem aChar (b : Byte) : Statement (.aChar b) := fun _ =>
  ⟨⟨.unicore, 0, 0, .aChar⟩, by decide, rfl, rfl, any_applies _ _ _⟩

theorem bHeader (b : Byte) : Statement (.bHeader b) := fun _ =>
  ⟨⟨.unibHdr, 0, 0, .bHeader⟩, by decide, rfl, rfl, any_applies _ _ _⟩

theorem bBody (b : Byte) : Statement (.bBody b) := fun _ =>
  ⟨⟨.unibBody, 0, 0, .bBody⟩, by decide, rfl, rfl, any_applies _ _ _⟩

theorem rLenHi (b : Byte) : Statement (.rLenHi b) := fun _ =>
  ⟨⟨.rtcmC1, 0, 0, .rLenHi⟩, by decide, rfl, rfl, any_applies _ _ _⟩

theorem rLenLo (b : Byte) : Statement (.rLenLo b) := fun _ =>
  ⟨⟨.rtcmC2, 0, 0, .rLenLo⟩, by decide, rfl, rfl, any_applies _ _ _⟩

theorem rBody (b : Byte) : Statement (.rBody b) := fun _ =>
  ⟨⟨.rtcmBody, 0, 0, .rBody⟩, by decide, rfl, rfl, any_applies _ _ _⟩

end Sys2Proof.Laws.InTable
end

