-- ==== Sys2Proof/Laws/Step.lean ====
section
/-! SUPPORT. The step and streams: what the input has to do with an operation, and a stream run byte
by byte. -/

namespace Sys2Proof.Machine

/-- `store` as one update of the buffer and the cursor, with the buffer's invariant (20_memory.md R44). -/
theorem State.store_eq (s : State) (b : Byte) (h : BufferOk s.buf s.cur s.params.payloadCap) : ∃ m k, s.store b = { s with buf := m, cur := k } ∧
    BufferOk m k s.params.payloadCap ∧ k = min (s.cur + 1) s.params.payloadCap ∧ ∀ i, i < s.cur → m.read i = s.buf.read i := by
  refine ⟨(s.store b).buf, (s.store b).cur, ?_, State.store_ok h b, State.store_cur b h.2.1, fun i => State.store_read_below b i⟩
  unfold State.store; split <;> rfl

/-- `B.HEADER` before the 24th byte only takes the byte (43_unicore_framers.md R171). -/
theorem after_bHeader_of_lt (b) (s : State) (h : s.b.cnt.toNat < 23) : after (.bHeader b) s = s.unibTake b := by
  have : ¬ (s.unibTake b).b.cnt.toNat = Config.unibHdrLen := by
    have : (s.unibTake b).b.cnt = s.b.cnt + 1 := rfl
    rw [this]; simp [Config.unibHdrLen]; omega
  rw [after_bHeader, if_neg this]

/-- `B.HEADER` on the 24th byte reads the header (43_unicore_framers.md R171). -/
theorem after_bHeader_of_last (b) (s : State) (h : s.b.cnt.toNat = 23) : after (.bHeader b) s = (s.unibTake b).unibReadHeader.unibComplete := by
  have : (s.unibTake b).b.cnt.toNat = Config.unibHdrLen := by
    have : (s.unibTake b).b.cnt = s.b.cnt + 1 := rfl
    rw [this]; simp [Config.unibHdrLen]; omega
  rw [after_bHeader, if_pos this]

theorem State.store_withInput (s : State) (x : List Stimulus) (v : Byte) : ({ s with input := x } : State).store v = { s.store v with input := x } := by
  unfold State.store; split <;> rfl

theorem State.unibTake_withInput (s : State) (x : List Stimulus) (v : Byte) : ({ s with input := x } : State).unibTake v = { s.unibTake v with input := x } := by
  unfold State.unibTake; rw [State.store_withInput]

theorem State.unibComplete_withInput (s : State) (x : List Stimulus) : ({ s with input := x } : State).unibComplete = { s.unibComplete with input := x } := by
  unfold State.unibComplete; dsimp only; split <;> rfl

/-- No operation reads or writes what stands at the input: it commutes with replacing it. -/
theorem after_withInput (i : Instr) (s : State) (x : List Stimulus) : after i { s with input := x } = { after i s with input := x } := by
  cases i
  case nComma => rw [after_nComma, after_nComma]; rw [show State.handsOff { s with input := x } = s.handsOff from rfl]; split <;> rfl
  case nStar => rw [after_nStar, after_nStar]; rw [show State.handsOff { s with input := x } = s.handsOff from rfl]; split <;> rfl
  case nCr => rw [after_nCr, after_nCr]; rw [show State.nmeaCkOk { s with input := x } = s.nmeaCkOk from rfl]; split <;> rfl
  case aCr => rw [after_aCr, after_aCr]; rw [show State.uniCkOk { s with input := x } = s.uniCkOk from rfl]; split <;> rfl
  case uPayload b => rw [after_uPayload, after_uPayload, State.store_withInput]; rfl
  case bBody b => rw [after_bBody, after_bBody, State.unibTake_withInput, State.unibComplete_withInput]
  case uCkB b =>
    rw [after_uCkB, after_uCkB]
    have report (r : State) : ({ r with input := x } : State).ubxReport = { r.ubxReport with input := x } := by
      unfold State.ubxReport
      rw [show State.ackApplies { r with input := x } = r.ackApplies from rfl]
      split <;> rfl
    have ok (r : State) : ({ r with input := x } : State).ubxCkOk = r.ubxCkOk := rfl
    rw [show ({ ({ s with input := x } : State) with u := { s.u with rxB := b } } : State) =
      { ({ s with u := { s.u with rxB := b } } : State) with input := x } from rfl, ok, report]
    split <;> rfl
  case bHeader b =>
    rw [after_bHeader, after_bHeader, State.unibTake_withInput]; dsimp only
    split
    · exact State.unibComplete_withInput (s.unibTake b).unibReadHeader x
    · rfl
  case rBody b => rw [after_rBody, after_rBody, State.store_withInput]; dsimp only; split <;> rfl
  case rLenHi b => rw [after_rLenHi, after_rLenHi, State.store_withInput]
  case rLenLo b => rw [after_rLenLo, after_rLenLo, State.store_withInput]
  case dStartRtcm h => rw [after_dStartRtcm, after_dStartRtcm]; rw [show ({ s with input := x } : State).clear = { s.clear with input := x } from rfl, State.store_withInput]
  case dUnibConfirm =>
    rw [after_dUnibConfirm, after_dUnibConfirm]
    have hc : ({ s with input := x } : State).clear = { s.clear with input := x } := rfl
    rw [hc, State.store_withInput s.clear x, State.store_withInput (s.clear.store 0xAA) x, State.store_withInput ((s.clear.store 0xAA).store 0x44) x]
  all_goals rfl

theorem core_run_next (M : Host.Core) (k : Nat) (s t : M.State) (h : M.step s = .next t) : M.run (k+1) s = M.run k t := by
  simp only [Host.Core.run, h]

theorem core_run_stop (M : Host.Core) (k : Nat) (s : M.State) (h : ∀ t, M.step s ≠ .next t) (t) : M.run (k+1) s ≠ .next t := by
  simp only [Host.Core.run]
  cases hs : M.step s with
  | next t => exact absurd hs (h t)
  | fault r => simp
  | refused r => simp

/-- No operation touches what stands at the input. -/
theorem after_keeps_input (i : Instr) (s : State) : (after i s).input = s.input := by
  have h := after_withInput i s s.input
  have h' := congrArg State.input h
  exact h'

/-- A range read of the frame gives what a rule reads at one index of it. -/
theorem State.bufByte_eq_frame (s : State) (i : Nat) (h : i < s.cur) : s.bufByte i = s.frame.getD i 0 := by
  simp [State.frame, Memory.bytes, h, State.bufByte]

/-- A run whose first step goes on. -/
theorem run_of_next {k : Nat} {s t : State} (h : step s = .next t) : Host.Core.run Sys2Proof.core (k + 1) s = Host.Core.run Sys2Proof.core k t :=
  core_run_next Sys2Proof.core k s t h

/-- A run whose first step stops. -/
theorem run_of_stop {k : Nat} {s : State} (h : ∀ t, step s ≠ .next t) (t : State) : Host.Core.run Sys2Proof.core (k + 1) s ≠ .next t :=
  core_run_stop Sys2Proof.core k s h t

theorem runs_nil (s t : State) : Runs s [] t ↔ s = t := by
  unfold Runs
  have : s.feed [] = s := by simp [State.feed]
  rw [this]
  exact ⟨fun h => Host.Outcome.next.inj h, fun h => congrArg _ h⟩

/-- A stream from a state with nothing waiting: its first byte runs the decoded operation, the rest runs from there. -/
theorem runs_cons {s : State} {c : Context} (hi : s.input = []) (hc : s.context = some c) (b : Byte) (bs : List Byte) (t : State) :
    Runs s (b :: bs) t ↔ Runs (after (decode c b) (s.consume [])) bs t := by
  unfold Runs
  have h1 : (s.feed (b :: bs)).input = .byte b :: bs.map .byte := by simp [State.feed, hi]
  have h2 : (s.feed (b :: bs)).context = some c := hc
  have h3 : (s.feed (b :: bs)).consume (bs.map .byte) = { s.consume [] with input := bs.map .byte } := rfl
  have h4 : (after (decode c b) (s.consume [])).feed bs = { after (decode c b) (s.consume []) with input := bs.map .byte } := by
    unfold State.feed; rw [after_keeps_input]; rfl
  rw [List.length_cons, run_of_next (step_byte h1 h2), h3, after_withInput, h4]

/-- No stream runs from a state that no context covers. -/
theorem runs_cons_none {s : State} (hi : s.input = []) (hc : s.context = none) (b : Byte) (bs : List Byte) (t : State) :
    ¬ Runs s (b :: bs) t := by
  unfold Runs
  have h1 : (s.feed (b :: bs)).input = .byte b :: bs.map .byte := by simp [State.feed, hi]
  have h2 : (s.feed (b :: bs)).context = none := hc
  refine run_of_stop (fun t => ?_) t
  unfold step; rw [h1]
  simp only [stepByte, h2]
  split <;> simp

/-- A stream is consumed whole. -/
theorem runs_input {s t : State} (xs : List Byte) (hi : s.input = []) (h : Runs s xs t) : t.input = [] := by
  induction xs generalizing s with
  | nil => rw [runs_nil] at h; rw [← h, hi]
  | cons b xs ih =>
    cases hc : s.context with
    | none => exact absurd h (runs_cons_none hi hc _ _ _)
    | some c => rw [runs_cons hi hc] at h; exact ih (after_keeps_input _ _) h

/-- A stream of one byte. -/
theorem runs_one {s : State} {c} (hi : s.input = []) (hc : s.context = some c) (b) : Runs s [b] (after (decode c b) (s.consume [])) := by
  rw [runs_cons hi hc, runs_nil]

end Sys2Proof.Machine
end

