-- ==== Sys2Proof/Tests/Slice0.lean ====
section
/-! SUPPORT. The model's own tests. Every expected value is written out from spec/opcode_table.json or
from a vector of 95_test_vectors.md (named at the test). The last part shows, for every statement with
hypotheses, a state that meets them. -/

namespace Sys2Proof.Tests

open Sys2Proof.Machine

/-! ## Well-formedness: each check refuses an ill-formed term -/

theorem test_wf_refuses_sync1_in_uni2 : (Instr.dUbxSync1 .sUni2).wf = false := by decide
theorem test_wf_refuses_discard_of_start_byte :
    (Instr.dDiscard .sIdle 0x24).wf = false ∧ (Instr.dDiscard .sIdle 0xB5).wf = false ∧
    (Instr.dDiscard .sIdle 0xAA).wf = false ∧ (Instr.dDiscard .sIdle 0xD3).wf = false := by decide
theorem test_wf_refuses_discard_of_continuation :
    (Instr.dDiscard .sUbx1 0x62).wf = false ∧ (Instr.dDiscard .sUni1 0x44).wf = false ∧
    (Instr.dDiscard .sUni2 0xB5).wf = false := by decide
theorem test_wf_refuses_delimiter_as_nmea_char :
    (Instr.nChar 0x2C).wf = false ∧ (Instr.nChar 0x2A).wf = false ∧ (Instr.nChar 0x0D).wf = false := by decide
theorem test_wf_refuses_delimiter_as_unicore_char :
    (Instr.aChar 0x2C).wf = false ∧ (Instr.aChar 0x2A).wf = false ∧ (Instr.aChar 0x0D).wf = false ∧
    (Instr.aChar 0x3A).wf = false := by decide
theorem test_wf_accepts :
    (Instr.dDiscard .sIdle 0x62).wf = true ∧ (Instr.dDiscard .sUbx1 0x44).wf = true ∧
    (Instr.nChar 0x3A).wf = true ∧ (Instr.aChar 0x24).wf = true := by decide

/-! ## Decoding: every constructor from the bits its row gives it (opcode_table.json, match and mask) -/

theorem test_decode_dispatcher :
    decode (.sync .sIdle) 0b00100100 = .dStartNmea .sIdle ∧
    decode (.sync .sIdle) 0b10110101 = .dUbxSync1 .sIdle ∧
    decode (.sync .sUbx1) 0b01100010 = .dUbxConfirm ∧
    decode (.sync .sIdle) 0b10101010 = .dUniSync1 .sIdle ∧
    decode (.sync .sUni1) 0b01000100 = .dUniSync2 ∧
    decode (.sync .sUni2) 0b10110101 = .dUnibConfirm ∧
    decode (.sync .sIdle) 0b11010011 = .dStartRtcm .sIdle ∧
    decode (.sync .sIdle) 0b01100010 = .dDiscard .sIdle 0b01100010 := by decide

/-- 95_test_vectors.md V10 h, i, o, q and t: a byte that fails a held sequence is examined again. -/
theorem test_decode_after_failed_sync :
    decode (.sync .sUbx1) 0b10110101 = .dUbxSync1 .sUbx1 ∧
    decode (.sync .sUbx1) 0b00100100 = .dStartNmea .sUbx1 ∧
    decode (.sync .sUni2) 0b10101010 = .dUniSync1 .sUni2 ∧
    decode (.sync .sUni2) 0b11010011 = .dStartRtcm .sUni2 ∧
    decode (.sync .sUni2) 0b01100010 = .dDiscard .sUni2 0b01100010 := by decide

theorem test_decode_nmea :
    decode .nmea 0b00101100 = .nComma ∧ decode .nmea 0b00101010 = .nStar ∧
    decode .nmea 0b00001101 = .nCr ∧ decode .nmea 0b00001010 = .nChar 0b00001010 := by decide

theorem test_decode_ubx :
    decode .ubxP0 0b00000101 = .uClass 5 ∧ decode .ubxP1 0b00000001 = .uId 1 ∧
    decode .ubxP2 0b00000010 = .uLenLo 2 ∧ decode .ubxP3 0b00000100 = .uLenHi 4 ∧
    decode .ubxPayload 0b10001010 = .uPayload 0x8A ∧ decode .ubxCkA 0b10011000 = .uCkA 0x98 ∧
    decode .ubxCkB 0b11000001 = .uCkB 0xC1 := by decide

theorem test_decode_unicore :
    decode .unicore 0b00101100 = .aComma ∧ decode .unicore 0b00101010 = .aStar ∧
    decode .unicore 0b00001101 = .aCr ∧ decode .unicore 0b00111010 = .aColon ∧
    decode .unicore 0b00100100 = .aChar 0b00100100 := by decide

theorem test_decode_binary :
    decode .unibHdr 0b01000010 = .bHeader 0x42 ∧ decode .unibBody 0b11101111 = .bBody 0xEF ∧
    decode .rtcmC1 0b11111100 = .rLenHi 0xFC ∧ decode .rtcmC2 0b00010011 = .rLenLo 0x13 ∧
    decode .rtcmBody 0b11010000 = .rBody 0xD0 := by decide

theorem test_decode_table_word :
    decodeTableWord 8 0x24 = some (.dStartNmea .sIdle) ∧ decodeTableWord 8 0x62 = some .dUbxConfirm ∧
    decodeTableWord 8 0x2A = some .nStar ∧ decodeTableWord 8 0x3A = some .aColon ∧
    decodeTableWord 16 0x24 = none := by decide

theorem test_table_has_43_rows : opcodeTable.length = 43 := by decide

/-! ## Small states -/

/-- A buffer holding these bytes from index 0 on. -/
def cells (bytes : List Byte) : Memory := (List.range bytes.length).zip bytes

/-- An open NMEA term. -/
def nmeaAt (text : List Byte) (tnum : TermNo) (ck : Byte) (star : Bool) : State :=
  { State.reset with
    proto := .nmea
    n := { term := cells text, tidx := text.length, tnum := tnum, ck := ck, star := star, stype := .none } }

/-- An open Unicore term. -/
def uniAt (text : List Byte) (ck : Byte) (star colon : Bool) : State :=
  { State.reset with
    proto := .unicore
    a := { term := cells text, tidx := text.length, tnum := 1, ck := ck, star := star, colon := colon
           terms := [{ proto := .unicore, tnum := 0, text := commandText }] } }

/-- A UBX frame of class 5 with these payload bytes taken. -/
def ubxAt (pos : Count17) (id : Byte) (len : Half) (kept : List Byte) (rxA ckA ckB : Byte) : State :=
  { State.reset with
    proto := .ubx, buf := cells kept, cur := kept.length
    u := { pos := pos, cls := 5, id := id, len := len, rxA := rxA, rxB := 0, ckA := ckA, ckB := ckB } }

/-- An RTCM3 frame with these bytes taken. -/
def rtcmAt (taken : List Byte) (len : RtcmLen) (total : RtcmCount) : State :=
  { State.reset with
    proto := .rtcm, buf := cells taken, cur := taken.length
    r := { len := len, mtype := 0, cnt := BitVec.ofNat 11 taken.length, total := total } }

/-- A Unicore binary frame with these bytes taken. -/
def unibAt (taken : List Byte) (mid mlen : Half) (total : Count17) : State :=
  { State.reset with
    proto := .unicoreBinary, buf := cells taken, cur := taken.length
    b := { cnt := BitVec.ofNat 17 taken.length, mid := mid, mlen := mlen, total := total } }

/-- The state after one step on one byte. -/
def stepOn (s : State) (b : Byte) : Option State :=
  match step { s with input := [.byte b] } with
  | .next t => some t
  | _ => none

/-- `$`, `G`, `P`, `G`, `G`, `A`. -/
def gpgga : List Byte := [0x47, 0x50, 0x47, 0x47, 0x41]

/-! ## The dispatcher, V10 -/

theorem test_start_nmea : (stepOn State.reset 0x24).map (fun t => (t.proto, t.n.ck, t.n.tidx)) = some (.nmea, 0, 0) := by decide
theorem test_ubx_sync1 : (stepOn State.reset 0xB5).map (fun t => (t.proto, t.sync)) = some (.none, .sUbx1) := by decide
theorem test_ubx_confirm :
    (stepOn { State.reset with sync := .sUbx1 } 0x62).map (fun t => (t.proto, t.sync, t.u.pos, t.u.ckA)) = some (.ubx, .sIdle, 0, 0) := by decide
theorem test_uni_sync1 : (stepOn State.reset 0xAA).map (·.sync) = some .sUni1 := by decide
theorem test_uni_sync2 : (stepOn { State.reset with sync := .sUni1 } 0x44).map (·.sync) = some .sUni2 := by decide
theorem test_unib_confirm :
    (stepOn { State.reset with sync := .sUni2 } 0xB5).map (fun t => (t.proto, t.frame, t.b.cnt)) =
      some (.unicoreBinary, [0xAA, 0x44, 0xB5], 3) := by decide
theorem test_start_rtcm : (stepOn State.reset 0xD3).map (fun t => (t.proto, t.frame, t.r.cnt)) = some (.rtcm, [0xD3], 1) := by decide
theorem test_discard :
    (stepOn { State.reset with sync := .sUbx1 } 0x00).map (fun t => (t.proto, t.sync)) = some (.none, .sIdle) := by decide
theorem test_sync_fail_is_named : conditions (.dDiscard .sUbx1 0x00) State.reset = [.syncFail] := by decide

/-! ## NMEA, V1 and V11 -/

/-- V1: the running XOR after `GPGG` is 0x17, after the `A` 0x56. -/
theorem test_nmea_char : (stepOn (nmeaAt [0x47, 0x50, 0x47, 0x47] 0 0x17 false) 0x41).map
    (fun t => (t.n.ck, t.n.tidx, t.n.term)) = some (0x56, 5, cells gpgga) := by decide
/-- V1 index 71: after the `*` nothing is folded. -/
theorem test_nmea_char_after_star : (stepOn (nmeaAt [] 15 0x5B true) 0x35).map (fun t => (t.n.ck, t.n.tidx)) = some (0x5B, 1) := by decide
/-- V1 index 6. -/
theorem test_nmea_comma : (stepOn (nmeaAt gpgga 0 0x56 false) 0x2C).map
    (fun t => (t.termOut, t.n.stype, t.n.ck, t.n.tnum)) =
      some (some { proto := .nmea, tnum := 0, text := gpgga }, .gga, 0x7A, 1) := by decide
/-- V8 index 8: the hand-off. -/
theorem test_nmea_comma_hands_off : (stepOn (nmeaAt commandText 0 0x67 false) 0x2C).map
    (fun t => (t.proto, t.termOut, t.a.ck, t.a.tnum)) =
      some (.unicore, some { proto := .unicore, tnum := 0, text := commandText }, 0x4B, 1) := by decide
/-- V1 index 70. -/
theorem test_nmea_star : (stepOn (nmeaAt [] 14 0x5B false) 0x2A).map
    (fun t => (t.termOut, t.n.star, t.n.ck, t.n.tnum)) =
      some (some { proto := .nmea, tnum := 14, text := [] }, true, 0x5B, 15) := by decide
/-- V15 a: the hand-off on `*`. -/
theorem test_nmea_star_hands_off : (stepOn (nmeaAt commandText 0 0x67 false) 0x2A).map
    (fun t => (t.proto, t.a.ck, t.a.star)) = some (.unicore, 0x67, true) := by decide
/-- V11 b: `*4b`. -/
theorem test_nmea_cr : (stepOn (nmeaAt [0x34, 0x62] 2 0x4B true) 0x0D).map (fun t => (t.proto, t.evt)) =
    some (.none, some { kind := .dataParsed, proto := .nmea, msg := .nmea .none, frame := [] }) := by decide
/-- V2: `*5A` against 0x5B. -/
theorem test_nmea_cr_mismatch : (stepOn (nmeaAt [0x35, 0x41] 15 0x5B true) 0x0D).map (fun t => (t.proto, t.evt)) =
    some (.none, none) := by decide

/-! ## UBX, V4 and V13 -/

theorem test_ubx_class : (stepOn (ubxAt 0 0 0 [] 0 0 0) 0x05).map (fun t => (t.u.ckA, t.u.ckB, t.u.pos)) = some (0x05, 0x05, 1) := by decide
theorem test_ubx_id : (stepOn (ubxAt 1 0 0 [] 0 0x05 0x05) 0x01).map (fun t => (t.u.ckA, t.u.ckB, t.u.id)) = some (0x06, 0x0B, 0x01) := by decide
theorem test_ubx_len_lo : (stepOn (ubxAt 2 1 0 [] 0 0x06 0x0B) 0x02).map (fun t => (t.u.ckA, t.u.ckB, t.u.len)) = some (0x08, 0x13, 2) := by decide
/-- V13 m: the length bytes `06 04` give 1030. -/
theorem test_ubx_len_hi : (stepOn (ubxAt 3 1 6 [] 0 0 0) 0x04).map (fun t => (t.u.len, t.u.pos)) = some (1030, 4) := by decide
theorem test_ubx_payload : (stepOn (ubxAt 5 1 2 [0x06] 0 0x0E 0x29) 0x8A).map
    (fun t => (t.u.ckA, t.u.ckB, t.frame, t.u.pos)) = some (0x98, 0xC1, [0x06, 0x8A], 6) := by decide
theorem test_ubx_ck_a : (stepOn (ubxAt 6 1 2 [0x06, 0x8A] 0 0x98 0xC1) 0x99).map
    (fun t => (t.proto, t.u.rxA, t.u.ckA, t.u.pos)) = some (.ubx, 0x99, 0x98, 7) := by decide
/-- V13 b: ACK-NAK. -/
theorem test_ubx_ck_b : (stepOn (ubxAt 7 0 2 [0x06, 0x8A] 0x97 0x97 0xBC) 0xBC).map (fun t => (t.evt, t.ack)) =
    some (some { kind := .dataParsed, proto := .ubx, msg := .ubx 5 0 .ackNak 2, frame := [0x06, 0x8A] },
      some { wasAck := false, cls := 0x06, id := 0x8A }) := by decide
/-- V13 c. -/
theorem test_ubx_ck_b_mismatch : (stepOn (ubxAt 7 1 2 [0x06, 0x8A] 0x98 0x98 0xC1) 0xC0).map
    (fun t => (t.proto, t.evt, t.ack)) = some (.none, none, none) := by decide

/-! ## Unicore ASCII, V8 and V15 -/

/-- V8 index 9. -/
theorem test_uni_char : (stepOn (uniAt [] 0x4B false false) 0x63).map (fun t => (t.a.ck, t.a.tidx)) = some (0x28, 1) := by decide
/-- V15 b: the `b` after the colon is not folded. -/
theorem test_uni_char_after_colon : (stepOn (uniAt [0x61, 0x3A] 0x10 false true) 0x62).map (fun t => (t.a.ck, t.a.tidx)) = some (0x10, 3) := by decide
/-- V15 b: `command,a` has the XOR 0x67 ^ 0x2C ^ 0x61 = 0x2A, with the colon 0x10. -/
theorem test_uni_colon : (stepOn (uniAt [0x61] 0x2A false false) 0x3A).map (fun t => (t.a.ck, t.a.colon, t.a.tidx)) = some (0x10, true, 2) := by decide
/-- V15 b: the comma that ends the region is folded. -/
theorem test_uni_comma : (stepOn (uniAt [0x61, 0x3A, 0x62] 0x10 false true) 0x2C).map
    (fun t => (t.termOut, t.a.ck, t.a.colon, t.a.tnum)) =
      some (some { proto := .unicore, tnum := 1, text := [0x61, 0x3A, 0x62] }, 0x3C, false, 2) := by decide
/-- V8 index 18. -/
theorem test_uni_star : (stepOn (uniAt [0x6F, 0x6B] 0x69 false false) 0x2A).map (fun t => (t.a.ck, t.a.star, t.a.tidx)) = some (0x69, true, 0) := by decide
/-- V8 index 21, and V8 with `*68`. -/
theorem test_uni_cr : (stepOn (uniAt [0x36, 0x39] 0x69 true false) 0x0D).map (fun t => (t.proto, t.evt.map (·.proto))) = some (.none, some .unicore) := by decide
theorem test_uni_cr_mismatch : (stepOn (uniAt [0x36, 0x38] 0x69 true false) 0x0D).map (fun t => (t.proto, t.evt.map (·.proto))) = some (.none, none) := by decide

/-! ## Unicore binary, V12 -/

/-- The first 23 bytes of V12's stream. -/
def header23 : List Byte := [0xAA, 0x44, 0xB5, 0x00, 0x42, 0x08, 0x02] ++ List.replicate 16 0

theorem test_unib_header : (stepOn (unibAt [0xAA, 0x44, 0xB5] 0 0 0) 0x00).map (fun t => (t.b.cnt, t.cur)) = some (4, 4) := by decide
theorem test_unib_header_last : (stepOn (unibAt header23 0 0 0) 0x00).map
    (fun t => (t.proto, t.b.cnt, t.b.mid, t.b.mlen, t.b.total)) = some (.unicoreBinary, 24, 2114, 2, 30) := by decide
theorem test_unib_body : (stepOn (unibAt (header23 ++ [0, 0x11, 0x22, 0xDE, 0xAD, 0xBE]) 2114 2 30) 0xEF).map
    (fun t => (t.proto, t.evt)) = some (.none, some { kind := .dataParsed, proto := .unicoreBinary, msg := .unicoreBinary 2114 2, frame := header23 ++ [0, 0x11, 0x22, 0xDE, 0xAD, 0xBE, 0xEF] }) := by decide

/-! ## RTCM3, V5 and V14 -/

/-- V14 c: bit 2 of the byte is no length bit; V5: `FF` gives bits 9 and 8. -/
theorem test_rtcm_len_hi : (stepOn (rtcmAt [0xD3] 0 0) 0x04).map (·.r.len) = some 0 ∧
    (stepOn (rtcmAt [0xD3] 0 0) 0xFF).map (·.r.len) = some 0x300 := by decide
/-- V14 b: `D3 03 FF`. -/
theorem test_rtcm_len_lo : (stepOn (rtcmAt [0xD3, 0x03] 0x300 0) 0xFF).map (fun t => (t.r.len, t.r.total, t.r.cnt)) = some (1023, 1029, 3) := by decide
/-- V5: `D3 FC 00 11 22 33`. -/
theorem test_rtcm_body : (stepOn (rtcmAt [0xD3, 0xFC, 0x00, 0x11, 0x22] 0 6) 0x33).map (fun t => (t.proto, t.evt)) =
    some (.none, some { kind := .dataParsed, proto := .rtcm, msg := .rtcm 0x112 0 6, frame := [0xD3, 0xFC, 0x00, 0x11, 0x22, 0x33] }) := by decide
theorem test_rtcm_body_before_last : (stepOn (rtcmAt [0xD3, 0xFC, 0x00, 0x11] 0 6) 0x22).map (fun t => (t.proto, t.evt)) = some (.rtcm, none) := by decide

/-! ## Reset, V16, and the host's interface -/

theorem test_init : (match step { ubxAt 5 1 2 [0x06] 0 0x0E 0x29 with input := [.init] } with
    | .next t => t == State.reset | _ => false) = true := by decide
theorem test_fetch_word : (match step (State.reset.withFetchWord 8 0x62) with
    | .next t => t.proto == .ubx | _ => false) = true := by decide
theorem test_proto_codes : Proto.code .none = 0 ∧ Proto.code .nmea = 1 ∧ Proto.code .ubx = 2 ∧ Proto.code .unicore = 3 ∧
    Proto.code .unicoreBinary = 4 ∧ Proto.code .rtcm = 5 ∧ Proto.code .invalid = 6 := by decide

/-! ## Witnesses: a state and operands that meet the hypotheses of each statement -/

/-- What a stream of bytes ends in. -/
def ran (s : State) (bytes : List Byte) : Option State :=
  match Host.Core.run Sys2Proof.core bytes.length (s.feed bytes) with
  | .next t => some t
  | _ => none

theorem exists_run {s : State} {bytes : List Byte} {p : State → Bool} (h : (ran s bytes).any p = true) :
    ∃ t, Runs s bytes t ∧ p t = true := by
  cases ht : ran s bytes with
  | none => simp [ht] at h
  | some t =>
    refine ⟨t, ?_, by simpa [ht] using h⟩
    unfold ran at ht
    unfold Runs
    split at ht
    · cases ht; assumption
    · cases ht

theorem exists_step {s : State} {p : State → Bool}
    (h : (match step s with | .next t => p t | _ => false) = true) : ∃ t, step s = .next t ∧ p t = true := by
  split at h
  · exact ⟨_, ‹_›, h⟩
  · cases h

theorem witness_DecodeEncodeAgree : (Instr.dDiscard .sUni1 0x62).wf = true ∧ (Instr.nChar 0x00).wf = true ∧ (Instr.aChar 0xFF).wf = true := by decide
theorem witness_ActiveProtocolIgnoresStartBytes :
    (nmeaAt [] 0 0 false).proto ≠ .none ∧ (nmeaAt [] 0 0 false).context = some .nmea := by decide

/-- One state for each clause, the UBX and RTCM3 positions at both ends of their ranges. -/
theorem witness_ContextFromFramerState :
    State.reset.proto = .none ∧ (nmeaAt [] 0 0 false).proto = .nmea ∧ (uniAt [] 0 false false).proto = .unicore ∧
    ((ubxAt 0 1 2 [] 0 0 0).proto = .ubx ∧ (ubxAt 0 1 2 [] 0 0 0).u.pos.toNat = 0 ∧ (ubxAt 0 1 2 [] 0 0 0).u.len.toNat = 2) ∧
    (ubxAt 4 1 2 [] 0 0 0).context = some .ubxPayload ∧ (ubxAt 5 1 2 [] 0 0 0).context = some .ubxPayload ∧
    (ubxAt 4 1 0 [] 0 0 0).context = some .ubxCkA ∧ (ubxAt 6 1 2 [] 0 0 0).context = some .ubxCkA ∧
    (ubxAt 7 1 2 [] 0 0 0).context = some .ubxCkB ∧ (ubxAt 8 1 2 [] 0 0 0).context = none ∧
    (rtcmAt [] 0 0).context = none ∧ (rtcmAt [0xD3] 0 0).context = some .rtcmC1 ∧
    (rtcmAt [0xD3, 0] 0 0).context = some .rtcmC2 ∧ (rtcmAt [0xD3, 0, 0] 0 6).context = some .rtcmBody ∧
    (unibAt header23 0 0 0).context = some .unibHdr ∧ (unibAt (header23 ++ [0]) 0 0 28).context = some .unibBody ∧
    ({ State.reset with proto := .invalid } : State).context = none := by decide

theorem witness_StepRunsDecodedInstruction :
    ({ State.reset with input := [.byte 0x24, .byte 0x47] } : State).input = .byte 0x24 :: [.byte 0x47] ∧
    ({ State.reset with input := [.byte 0x24, .byte 0x47] } : State).context = some (.sync .sIdle) := by decide
theorem witness_StepWithoutInputWaits : State.reset.input = [] := by decide
theorem witness_InitResetsEverything :
    ({ ubxAt 5 1 2 [0x06] 0 0 0 with input := [.init, .byte 0x24] } : State).input = .init :: [.byte 0x24] := by decide
/-- A state for each of the three clauses. -/
theorem witness_StepStopsOnlyOutsideTheMap :
    (match step { State.reset with proto := .invalid, input := [.byte 0] } with | .refused .protoInvalid => true | _ => false) = true ∧
    (match step { ubxAt 8 1 2 [] 0 0 0 with input := [.byte 0] } with | .fault .noContext => true | _ => false) = true ∧
    State.reset.context ≠ none := by decide
theorem witness_ParametersNeverChange : ∃ t, step { State.reset with input := [.byte 0xD3] } = .next t ∧ (t.proto == .rtcm) = true :=
  exists_step (by decide)

/-- A state in the middle of a UBX payload meets the invariant. -/
theorem witness_invariant : Inv { ubxAt 5 1 2 [0x06] 0 0x0E 0x29 with input := [.byte 0x8A] } := by
  constructor
  · decide
  · unfold BufferOk; decide
  · unfold BufferOk; decide
  · unfold BufferOk; decide
  · unfold FramerOk; decide
  · unfold NmeaOk; decide
  · unfold UniOk; decide
  · unfold UbxOk; decide
  · unfold RtcmOk; decide
  · unfold UnibOk; decide
theorem witness_StepKeepsInvariant : Inv { ubxAt 5 1 2 [0x06] 0 0x0E 0x29 with input := [.byte 0x8A] } ∧
    ∃ t, step { ubxAt 5 1 2 [0x06] 0 0x0E 0x29 with input := [.byte 0x8A] } = .next t ∧ (t.cur == 2) = true :=
  ⟨witness_invariant, exists_step (by decide)⟩
theorem witness_InvariantNeverStops : Inv { ubxAt 5 1 2 [0x06] 0 0x0E 0x29 with input := [.byte 0x8A] } := witness_invariant

theorem witness_UnibConfirmPrimesBuffer : 24 ≤ State.reset.params.payloadCap := by decide
theorem witness_StartRtcmPrimesBuffer : 24 ≤ ({ State.reset.params with payloadCap := 24 } : Params).payloadCap := by decide

/-- The last character that fits, and the first that does not. -/
theorem witness_NmeaCharFoldsAndAppends :
    (nmeaAt (List.replicate 19 0x30) 1 0 false).n.tidx < (nmeaAt [] 0 0 false).params.nmeaTermCap ∧
    (nmeaAt [] 0 0 false).params.nmeaTermCap ≤ (nmeaAt (List.replicate 20 0x30) 1 0 false).n.tidx := by decide

/-- A later term; term 0 with four characters; with five, of each type and of none. -/
theorem witness_NmeaDelimiterClosesTerm :
    ¬ KeptCommand (nmeaAt commandText 1 0 false) ∧ (nmeaAt commandText 1 0 false).n.tnum ≠ 0 ∧
    ¬ KeptCommand (nmeaAt [0x47, 0x50, 0x47, 0x47] 0 0 false) ∧ (nmeaAt [0x47, 0x50, 0x47, 0x47] 0 0 false).n.tidx < 5 ∧
    ¬ KeptCommand (nmeaAt gpgga 0 0 false) ∧ 5 ≤ (nmeaAt gpgga 0 0 false).n.tidx ∧
    (nmeaAt gpgga 0 0 false).n.term.bytes .nmeaTerm 2 3 = [0x47, 0x47, 0x41] ∧
    (nmeaAt [0x47, 0x4E, 0x52, 0x4D, 0x43] 0 0 false).n.term.bytes .nmeaTerm 2 3 = [0x52, 0x4D, 0x43] ∧
    (nmeaAt [0x47, 0x4E, 0x54, 0x48, 0x53] 0 0 false).n.term.bytes .nmeaTerm 2 3 = [0x54, 0x48, 0x53] ∧
    (nmeaAt [0x47, 0x50, 0x54, 0x58, 0x54] 0 0 false).n.term.bytes .nmeaTerm 2 3 ∉
      [[0x47, 0x47, 0x41], [0x52, 0x4D, 0x43], [0x54, 0x48, 0x53]] := by decide
theorem witness_NmeaHandsOffToUnicore : KeptCommand (nmeaAt commandText 0 0x67 false) := by decide
theorem witness_NmeaCrReportsValidSentence :
    ReceivedMatches (nmeaAt [0x34, 0x62] 2 0x4B true).n.toTermBuf .nmeaTerm 0x4B true ∧
    ¬ ReceivedMatches (nmeaAt [0x34, 0x62] 2 0x4A true).n.toTermBuf .nmeaTerm 0x4A true := by
  simp only [← textCkOk_iff]; decide
/-- Both ends of each range, and the values beside them. -/
theorem witness_HexDigitValues :
    hexval 0x30 = some 0 ∧ hexval 0x39 = some 9 ∧ hexval 0x41 = some 10 ∧ hexval 0x46 = some 15 ∧
    hexval 0x61 = some 10 ∧ hexval 0x66 = some 15 ∧ hexval 0x2F = none ∧ hexval 0x3A = none ∧
    hexval 0x40 = none ∧ hexval 0x47 = none ∧ hexval 0x60 = none ∧ hexval 0x67 = none := by decide

/-- 42_ubx.md R145: after the length bytes `00 00` the next byte is `U.CK_A`. -/
theorem witness_UbxHeaderBytes :
    let s : State := ubxAt 3 1 0 [] 0 0 0
    s.proto = .ubx ∧ ∃ t, exec (.uLenHi 0) s = .next t ∧ t.context = some .ubxCkA := ⟨rfl, _, rfl, by decide⟩
/-- 40_dispatcher.md R108: nothing held. -/
theorem witness_SyncBytesAreHeld : Sync.sIdle ≠ .sUni1 := by decide
/-- The last byte that fits, and the first that does not. -/
theorem witness_UbxPayloadStoresAndFolds :
    ({ State.reset with cur := 1028 } : State).cur < State.reset.params.payloadCap ∧
    State.reset.params.payloadCap ≤ ({ State.reset with cur := 1029 } : State).cur := by decide
/-- V13 a (with the ACK item), i (without), c (mismatch). -/
theorem witness_UbxSecondTrailerByteDecides :
    ((ubxAt 7 1 2 [0x06, 0x8A] 0x98 0x98 0xC1).u.rxA = (ubxAt 7 1 2 [0x06, 0x8A] 0x98 0x98 0xC1).u.ckA ∧
      (0xC1 : Byte) = (ubxAt 7 1 2 [0x06, 0x8A] 0x98 0x98 0xC1).u.ckB ∧ (ubxAt 7 1 2 [0x06, 0x8A] 0x98 0x98 0xC1).u.cls = 0x05 ∧
      (ubxAt 7 1 2 [0x06, 0x8A] 0x98 0x98 0xC1).u.id = 0x01 ∧ 2 ≤ (ubxAt 7 1 2 [0x06, 0x8A] 0x98 0x98 0xC1).cur) ∧
    ((ubxAt 5 1 0 [] 0x06 0x06 0x17).u.rxA = (ubxAt 5 1 0 [] 0x06 0x06 0x17).u.ckA ∧ (0x17 : Byte) = (ubxAt 5 1 0 [] 0x06 0x06 0x17).u.ckB ∧
      ¬ 2 ≤ (ubxAt 5 1 0 [] 0x06 0x06 0x17).cur) ∧
    ¬ ((ubxAt 7 1 2 [0x06, 0x8A] 0x98 0x98 0xC1).u.rxA = (ubxAt 7 1 2 [0x06, 0x8A] 0x98 0x98 0xC1).u.ckA ∧
      (0xC0 : Byte) = (ubxAt 7 1 2 [0x06, 0x8A] 0x98 0x98 0xC1).u.ckB) := by decide
theorem witness_UbxKindsByClassAndId :
    ((0x01 : Byte), (0x01 : Byte)) ∉ [((0x01 : Byte), (0x14 : Byte)), (0x01, 0x3C), (0x05, 0x01), (0x05, 0x00)] := by decide

theorem witness_UniCharFoldsAndAppends :
    (uniAt (List.replicate 31 0x78) 0 false false).a.tidx < State.reset.params.uniTermCap ∧
    State.reset.params.uniTermCap ≤ (uniAt (List.replicate 32 0x78) 0 false false).a.tidx := by decide
theorem witness_UniCrReportsValidSentence :
    ReceivedMatches (uniAt [0x36, 0x39] 0x69 true false).a.toTermBuf .uniTerm 0x69 true ∧
    ¬ ReceivedMatches (uniAt [0x36, 0x38] 0x69 true false).a.toTermBuf .uniTerm 0x69 true := by
  simp only [← textCkOk_iff]; decide

/-- A session without a trailer, so that a message of length 0 is over with its header. -/
def noTrailer : State :=
  { unibAt header23 0 0 0 with params := { State.reset.params with unibTrailerLen := 0, unibLenOff := 8 } }

/-- Before the 24th byte; the 24th with something to follow; the 24th with nothing to follow; a full buffer. -/
theorem witness_UnibHeaderBytes :
    (unibAt [0xAA, 0x44, 0xB5] 0 0 0).b.cnt.toNat < 23 ∧ (unibAt header23 0 0 0).b.cnt.toNat = 23 ∧
    ((stepOn (unibAt header23 0 0 0) 0).map (·.b.total)) = some 30 ∧
    noTrailer.b.cnt.toNat = 23 ∧ ((stepOn noTrailer 0).map (fun t => (t.b.total, t.proto))) = some (24, .none) ∧
    noTrailer.cur < noTrailer.params.payloadCap ∧
    ({ noTrailer with cur := 1029 } : State).params.payloadCap ≤ ({ noTrailer with cur := 1029 } : State).cur := by decide
theorem witness_UnibBodyBytes :
    (unibAt (header23 ++ [0, 0x11]) 0 2 30).b.cnt + 1 ≠ 30 ∧
    (unibAt (header23 ++ [0, 0x11, 0x22, 0xDE, 0xAD, 0xBE]) 0 2 30).b.cnt + 1 = 30 ∧
    (unibAt (header23 ++ [0]) 0 2 30).cur < State.reset.params.payloadCap ∧
    State.reset.params.payloadCap ≤ ({ unibAt (header23 ++ [0]) 0 2 30 with cur := 1029 } : State).cur := by decide

theorem witness_RtcmLengthBytes :
    (rtcmAt [0xD3] 0 0).cur < State.reset.params.payloadCap ∧
    State.reset.params.payloadCap ≤ ({ rtcmAt [0xD3] 0 0 with cur := 1029 } : State).cur := by decide
theorem witness_RtcmBodyBytes :
    (rtcmAt [0xD3, 0, 0, 1] 0 6).r.cnt + 1 ≠ (rtcmAt [0xD3, 0, 0, 1] 0 6).r.total ∧
    (rtcmAt [0xD3, 0, 0, 1, 2] 0 6).r.cnt + 1 = (rtcmAt [0xD3, 0, 0, 1, 2] 0 6).r.total ∧
    (rtcmAt [0xD3, 0, 0, 1, 2] 0 6).cur < State.reset.params.payloadCap ∧
    State.reset.params.payloadCap ≤ ({ rtcmAt [0xD3, 0, 0, 1, 2] 0 6 with cur := 1029 } : State).cur := by decide

/-- A step out of a state for each clause of the table. -/
theorem witness_TransitionTable :
    (stepOn State.reset 0x62).map (fun t => (t.proto, t.sync)) = some (.none, .sIdle) ∧
    (stepOn (nmeaAt gpgga 0 0 false) 0x0D).map (·.proto) = some .none ∧
    (stepOn (nmeaAt commandText 0 0x67 false) 0x2A).map (·.proto) = some .unicore ∧
    (stepOn (nmeaAt gpgga 0 0 false) 0x2C).map (·.proto) = some .nmea ∧
    (stepOn (uniAt [] 0 false false) 0x0D).map (·.proto) = some .none ∧
    (stepOn (uniAt [] 0 false false) 0x24).map (·.proto) = some .unicore ∧
    (stepOn (ubxAt 7 1 2 [] 0 0 0) 0x24).map (·.proto) = some .none ∧
    (stepOn (ubxAt 6 1 2 [] 0 0 0) 0x24).map (·.proto) = some .ubx ∧
    (stepOn (rtcmAt [0xD3, 0, 0, 1, 2] 0 6) 0x24).map (·.proto) = some .none ∧
    (stepOn (rtcmAt [0xD3, 0, 0, 1] 0 6) 0x24).map (·.proto) = some .rtcm ∧
    (stepOn (unibAt [0xAA, 0x44, 0xB5] 0 0 0) 0x24).map (·.proto) = some .unicoreBinary ∧
    (stepOn noTrailer 0).map (·.proto) = some .none ∧
    (stepOn (unibAt header23 0 0 0) 0).map (·.proto) = some .unicoreBinary := by decide
theorem witness_PortsByOperation : Quiet State.reset := by unfold Quiet; decide
theorem witness_EventLeavesBlockIdle :
    ∃ t, step { rtcmAt [0xD3, 0xFC, 0x00, 0x11, 0x22] 0 6 with input := [.byte 0x33] } = .next t ∧ t.evt.isSome = true :=
  exists_step (by decide)
/-- An operation that meets each condition. -/
theorem witness_SilentConditionsOnlyDrop :
    Quiet State.reset ∧ (Instr.dDiscard .sUbx1 0x00).wf = true ∧
    Condition.ckMismatchText ∈ conditions .nCr State.reset ∧ Condition.ckMismatchUbx ∈ conditions (.uCkB 1) State.reset ∧
    Condition.truncatedPayload ∈ conditions (.uPayload 1) { State.reset with cur := 1029 } ∧
    Condition.truncatedTerm ∈ conditions .aColon (uniAt (List.replicate 32 0x78) 0 false false) ∧
    Condition.syncFail ∈ conditions (.dDiscard .sUbx1 0x00) State.reset := by
  unfold Quiet; decide
/-- A full buffer of 24: the truncated byte that goes on, and the one that completes its frame. -/
theorem witness_SilentConditionsOnlyDrop_completes :
    let full (cnt : RtcmCount) : State :=
      { State.reset with params.payloadCap := 24, proto := .rtcm, cur := 24, r := { len := 19, mtype := 0, cnt := cnt, total := 25 } }
    Quiet (full 24) ∧ Condition.truncatedPayload ∈ conditions (.rBody 1) (full 23) ∧ (full 23).r.cnt + 1 ≠ (full 23).r.total ∧
    Condition.truncatedPayload ∈ conditions (.rBody 1) (full 24) ∧ (full 24).r.cnt + 1 = (full 24).r.total := by
  unfold Quiet; decide
/-- The hand-off, a step inside UNICORE, and a delimiter that stays in NMEA. -/
theorem witness_UnicoreEnteredOnlyByHandOff :
    (∃ t, step { nmeaAt commandText 0 0x67 false with input := [.byte 0x2C] } = .next t ∧ (t.proto == .unicore) = true) ∧
    (uniAt [] 0 false false).proto = .unicore ∧
    (∃ t, step { nmeaAt gpgga 3 0 false with input := [.byte 0x2A] } = .next t ∧ (t.proto == .nmea) = true) :=
  ⟨exists_step (by decide), rfl, exists_step (by decide)⟩

/-- The same UBX frame with other bytes above the cursor and another, dead, NMEA sub-state. -/
theorem witness_DeadStateIsUnobservable :
    Inv { ubxAt 5 1 2 [0x06] 0 0x0E 0x29 with input := [.byte 0x8A] } ∧
    SameLive { ubxAt 5 1 2 [0x06] 0 0x0E 0x29 with input := [.byte 0x8A] }
      { ubxAt 5 1 2 [0x06] 0 0x0E 0x29 with input := [.byte 0x8A], buf := cells [0x06, 0xFF], n := (nmeaAt gpgga 3 7 true).n } ∧
    ∃ t, step { ubxAt 5 1 2 [0x06] 0 0x0E 0x29 with input := [.byte 0x8A] } = .next t ∧ (t.cur == 2) = true := by
  refine ⟨witness_invariant, ?_, exists_step (by decide)⟩
  constructor
  case buf => unfold SameBelow; decide
  case nmea => exact fun h => absurd h (by decide)
  case uni => exact fun h => absurd h (by decide)
  all_goals decide

theorem witness_ChunkingIsIrrelevant : State.reset.input = [] ∧ ∃ t, Runs State.reset ([0xB5] ++ [0x62]) t ∧ (t.proto == .ubx) = true :=
  ⟨rfl, exists_run (by decide)⟩
theorem witness_UbxFrameReceived :
    Idle State.reset ∧ State.reset.params.ok = true ∧ ([0x06, 0x8A] : List Byte).length < 65536 ∧
    ((0x98 : Byte), (0xC1 : Byte)) = ubxSums [0x05, 0x01, 0x02, 0x00, 0x06, 0x8A] ∧
    ((0x98 : Byte), (0xC0 : Byte)) ≠ ubxSums [0x05, 0x01, 0x02, 0x00, 0x06, 0x8A] := by
  unfold Idle; decide
theorem witness_RtcmFrameReceived :
    Idle State.reset ∧ State.reset.params.ok = true ∧
    ([0xD3, 0xFC, 0x00, 0x11, 0x22] ++ [0x33] : List Byte).length = 6 + (256 * ((0xFC : Byte).toNat % 4) + (0x00 : Byte).toNat) := by
  unfold Idle; decide
theorem witness_UnibFrameReceived :
    Idle State.reset ∧ State.reset.params.ok = true ∧ (header23 ++ [0]).length = 24 ∧ (header23 ++ [0]).take 3 = [0xAA, 0x44, 0xB5] ∧
    ([0x11, 0x22, 0xDE, 0xAD, 0xBE, 0xEF] : List Byte).length =
      256 * ((header23 ++ [0]).getD 7 0).toNat + ((header23 ++ [0]).getD 6 0).toNat + State.reset.params.unibTrailerLen := by
  unfold Idle; decide
theorem witness_NmeaChecksumCoverage :
    Idle State.reset ∧ (0x0D : Byte) ∉ [(0x47 : Byte), 0x2C] ∧
    ∃ t, Runs State.reset (0x24 :: [0x47, 0x2C]) t ∧ (t.proto == .nmea) = true :=
  ⟨by unfold Idle; decide, by decide, exists_run (by decide)⟩
theorem witness_UnicoreChecksumCoverage :
    Idle State.reset ∧ 8 ≤ State.reset.params.nmeaTermCap ∧ (0x0D : Byte) ∉ commandText ++ [0x2C] ∧
    ∃ t, Runs State.reset (0x24 :: (commandText ++ [0x2C])) t ∧ (t.proto == .unicore) = true :=
  ⟨by unfold Idle; decide, by decide, by decide, exists_run (by decide)⟩
/-- V11 q with a body of one comma: `$,*2C`. -/
theorem witness_NmeaSentenceReceived :
    Idle State.reset ∧ State.reset.params.ok = true ∧ 8 ≤ State.reset.params.nmeaTermCap ∧
    (0x0D : Byte) ∉ [(0x2C : Byte)] ∧ (0x2A : Byte) ∉ [(0x2C : Byte)] ∧
    ([0x2C] : List Byte).takeWhile (· ≠ 0x2C) ≠ commandText ∧
    (0x32 : Byte) ∉ [(0x2C : Byte), 0x2A, 0x0D] ∧ (0x43 : Byte) ∉ [(0x2C : Byte), 0x2A, 0x0D] ∧
    hexval 0x32 = some 2 ∧ hexval 0x43 = some 12 ∧ 16 * (2 : Byte).toNat + (12 : Byte).toNat = (xorAll [0x2C]).toNat := by
  unfold Idle; decide
theorem witness_PlacedWordRuns : decodeTableWord 8 0x3A = some .aColon := by decide

end Sys2Proof.Tests
end

/-! The operation map read one context at a time (30_encoding.md R81), and the agreement of the decoder
with it: the rows of a context stand in the table as one group, a row with mask 0xFF is the test
`b = value` of the decoder, and a row with mask 0 is its last branch. -/

namespace Sys2Proof.OperationMap

/-- The rows of a context, in the table's order. -/
def rowsOf : Context → List Row
  | .sync .sIdle => rowsIdle
  | .sync .sUbx1 => rowsUbx1
  | .sync .sUni1 => rowsUni1
  | .sync .sUni2 => rowsUni2
  | .nmea => rowsNmea
  | .unicore => rowsUnicore
  | .ubxP0 => [⟨.ubxP0, 0x00, 0x00, .uClass⟩]
  | .ubxP1 => [⟨.ubxP1, 0x00, 0x00, .uId⟩]
  | .ubxP2 => [⟨.ubxP2, 0x00, 0x00, .uLenLo⟩]
  | .ubxP3 => [⟨.ubxP3, 0x00, 0x00, .uLenHi⟩]
  | .ubxPayload => [⟨.ubxPayload, 0x00, 0x00, .uPayload⟩]
  | .ubxCkA => [⟨.ubxCkA, 0x00, 0x00, .uCkA⟩]
  | .ubxCkB => [⟨.ubxCkB, 0x00, 0x00, .uCkB⟩]
  | .unibHdr => [⟨.unibHdr, 0x00, 0x00, .bHeader⟩]
  | .unibBody => [⟨.unibBody, 0x00, 0x00, .bBody⟩]
  | .rtcmC1 => [⟨.rtcmC1, 0x00, 0x00, .rLenHi⟩]
  | .rtcmC2 => [⟨.rtcmC2, 0x00, 0x00, .rLenLo⟩]
  | .rtcmBody => [⟨.rtcmBody, 0x00, 0x00, .rBody⟩]

theorem filter_opcodeTable (c : Context) : opcodeTable.filter (fun r => decide (r.ctx = c)) = rowsOf c := by
  cases c
  case sync held => cases held <;> decide
  all_goals decide

/-- The operation of the first of the rows that applies to the byte. -/
def firstOp (rows : List Row) (b : Byte) : Option Op :=
  (rows.find? (·.applies b)).map (·.op)

theorem lookupOp_eq_firstOp (c : Context) (b : Byte) : lookupOp c b = firstOp (rowsOf c) b := by
  rw [firstOp, ← filter_opcodeTable, List.find?_filter, lookupOp]
  simp only [Bool.decide_and, Bool.decide_eq_true]

/-- A row with mask 0xFF applies to exactly its own byte. -/
theorem exact_applies (c : Context) (v : Byte) (o : Op) (b : Byte) :
    Row.applies ⟨c, v, 0xFF, o⟩ b = decide (b = v) := by
  have hmask : b &&& 0xFF = b := BitVec.and_allOnes
  rw [Row.applies, hmask, beq_eq_decide]

/-- A row for one byte is a test for that byte. -/
theorem firstOp_exact (c : Context) (v : Byte) (o : Op) (rows : List Row) (b : Byte) :
    firstOp (⟨c, v, 0xFF, o⟩ :: rows) b = if b = v then some o else firstOp rows b := by
  rw [firstOp, List.find?_cons, exact_applies]
  by_cases h : b = v
  · rw [decide_eq_true h, if_pos h, Option.map_some]
  · rw [decide_eq_false h, if_neg h, firstOp]

/-- A row for any byte is the last that is looked at. -/
theorem firstOp_any (c : Context) (o : Op) (rows : List Row) (b : Byte) :
    firstOp (⟨c, 0, 0, o⟩ :: rows) b = some o := by
  rw [firstOp, List.find?_cons, Laws.InTable.any_applies, Option.map_some]

theorem examine_op (held : Sync) (b : Byte) :
    (examine held b).op =
      if b = 0x24 then .dStartNmea else if b = 0xB5 then .dUbxSync1 else if b = 0xAA then .dUniSync1
      else if b = 0xD3 then .dStartRtcm else .dDiscard := by
  simp only [examine, apply_ite Instr.op]
  rfl

theorem firstOp_rowsNmea (b : Byte) : firstOp rowsNmea b = some (decodeNmea b).op := by
  simp only [rowsNmea, firstOp_exact, firstOp_any, decodeNmea, apply_ite Instr.op, apply_ite some]
  rfl

theorem firstOp_rowsUnicore (b : Byte) : firstOp rowsUnicore b = some (decodeUnicore b).op := by
  simp only [rowsUnicore, firstOp_exact, firstOp_any, decodeUnicore, apply_ite Instr.op, apply_ite some]
  rfl

/-- The rows of a sync context are the test for the continuing byte, then those of `examine`. In `sUni2`
the continuing byte is itself a start byte, and the table has no second row for it. -/
theorem firstOp_rowsOf_sync (held : Sync) (b : Byte) :
    firstOp (rowsOf (.sync held)) b = some (decodeIdle held b).op := by
  cases held
  case sIdle => simp only [rowsOf, rowsIdle, firstOp_exact, firstOp_any, decodeIdle, examine_op, apply_ite some]
  case sUbx1 | sUni1 =>
    simp only [rowsOf, rowsUbx1, rowsUni1, firstOp_exact, firstOp_any, decodeIdle, apply_ite Instr.op, examine_op,
      apply_ite some]
    rfl
  case sUni2 =>
    by_cases h : b = 0xB5
    · subst h; decide
    · simp only [rowsOf, rowsUni2, firstOp_exact, firstOp_any, decodeIdle, examine_op, apply_ite some, if_neg h]

theorem firstOp_rowsOf (c : Context) (b : Byte) : firstOp (rowsOf c) b = some (decode c b).op := by
  cases c
  case sync held => exact firstOp_rowsOf_sync held b
  case nmea => exact firstOp_rowsNmea b
  case unicore => exact firstOp_rowsUnicore b
  all_goals exact firstOp_any _ _ _ b

/-- Settles O3: in each context the rows of the operation map are, in order, the branches of the decoder. -/
theorem decodeFollowsOperationMap : Obligations.DecodeFollowsOperationMap := by
  intro c b
  rw [lookupOp_eq_firstOp, firstOp_rowsOf]

end Sys2Proof.OperationMap

/-! The dispatcher's operations as their statements read them: a cleared cursor, the condition SYNC_FAIL
and the bytes left to `D.DISCARD` (40_dispatcher.md R101 and R109). -/

namespace Sys2Proof.Dispatcher

open Sys2Proof.Machine

/-- `clear()` moves the cursor and nothing else (20_memory.md R45). -/
theorem clear_eq (s : State) : s.clear = { s with cur := 0 } := rfl

/-- SYNC_FAIL is met exactly when something was held (60_exceptions.md R201). -/
theorem condIf_held (held : Sync) :
    condIf (held != .sIdle) .syncFail = if held = .sIdle then [] else [.syncFail] := by
  by_cases h : held = .sIdle
  · subst h; rfl
  · rw [condIf, if_pos (bne_iff_ne.mpr h), if_neg h]

/-- The bytes left to `D.DISCARD`: no start byte, and not the one that continues what is held. In `sUni2`
that one is itself a start byte. -/
theorem wfDiscard_iff (held : Sync) (b : Byte) :
    wfDiscard held b = true ↔
      b ∉ [0x24, 0xB5, 0xAA, 0xD3] ∧ (held = .sUbx1 → b ≠ 0x62) ∧ (held = .sUni1 → b ≠ 0x44) := by
  cases held <;> simp [wfDiscard, and_assoc]

/-- Settles O16: the operation is `clear()` and five registers of the NMEA sub-state set to zero. -/
theorem startNmeaOpensSentence : Obligations.StartNmeaOpensSentence := by
  intro held s
  refine ⟨rfl, ?_, condIf_held held⟩
  rw [exec_after, after_dStartNmea, clear_eq]

/-- Settles O18: the operation takes what the earlier rows leave, and only `sync` changes. -/
theorem discardForgetsHeldBytes : Obligations.DiscardForgetsHeldBytes := by
  intro held b s
  refine ⟨rfl, wfDiscard_iff held b, ?_, condIf_held held⟩
  rw [exec_after, after_dDiscard]

end Sys2Proof.Dispatcher

/-! The UBX header bytes and the first trailer byte (42_ubx.md R141 to R145 and R147): the fold in numbers,
and the context that the final length selects. -/

namespace Sys2Proof.Ubx

open Sys2Proof.Machine

/-- The fold in numbers: `ck_b` adds the `ck_a` just written (42_ubx.md R141). -/
theorem foldU_eq (b : Byte) (s : State) :
    let sumA : Byte := BitVec.ofNat 8 ((s.u.ckA.toNat + b.toNat) % 256)
    s.foldU b = { s with u := { s.u with
      ckA := sumA, ckB := BitVec.ofNat 8 ((s.u.ckB.toNat + sumA.toNat) % 256) } } := by
  rw [State.foldU, byte_add_eq s.u.ckB, byte_add_eq s.u.ckA]

theorem context_of_ubx {s : State} (h : s.proto = .ubx) :
    s.context = ubxContext s.u.pos.toNat s.u.len.toNat := by
  rw [State.context, h]

/-- After the four header bytes comes the payload, or the trailer where there is none (30_encoding.md R80). -/
theorem ubxContext_four (len : Nat) :
    ubxContext 4 len = some (if len = 0 then .ubxCkA else .ubxPayload) := by
  by_cases h : len = 0
  · subst h; rfl
  · have hpayload : 4 < 4 + len := by omega
    simp [ubxContext, hpayload, h]

/-- `U.LEN_HI` leaves the frame at its first payload byte or, where the length is 0, at its trailer. -/
theorem context_after_uLenHi (b : Byte) {s : State} (h : s.proto = .ubx) :
    (after (.uLenHi b) s).context =
      some (if (after (.uLenHi b) s).u.len.toNat = 0 then .ubxCkA else .ubxPayload) := by
  have hproto : (after (.uLenHi b) s).proto = .ubx := h
  have hpos : (after (.uLenHi b) s).u.pos.toNat = 4 := rfl
  rw [context_of_ubx hproto, hpos, ubxContext_four]

/-- Settles O27: each operation writes its field, then folds its byte, then sets the position; position 4
with the final length gives the context. -/
theorem ubxHeaderBytes : Obligations.UbxHeaderBytes := by
  intro b s sumA sumB
  refine ⟨?uClass, ?uId, ?uLenLo, ?uLenHi, ?context⟩
  case uClass => rw [exec_after, after_uClass, foldU_eq]; rfl
  case uId => rw [exec_after, after_uId, foldU_eq]; rfl
  case uLenLo => rw [exec_after, after_uLenLo, foldU_eq, setLenLo_eq]; rfl
  case uLenHi => rw [exec_after, after_uLenHi, foldU_eq, setLenHi_eq]; rfl
  case context =>
    intro hubx t ht
    rw [exec_after] at ht
    obtain rfl := Host.Outcome.next.inj ht
    exact context_after_uLenHi b hubx

/-- Settles O29: the operation writes `rx_a` and the position, with no fold and no store. -/
theorem ubxFirstTrailerByteRecorded : Obligations.UbxFirstTrailerByteRecorded := by
  intro b s
  rw [exec_after, after_uCkA, State.setUbxPos]

end Sys2Proof.Ubx

/-! Decoding and encoding are inverse to each other (30_encoding.md section 4): in a sync context the one
byte that continues what is held is set apart, and every other byte is examined. -/

namespace Sys2Proof.Encoding

open Sys2Proof.Machine

/-- The byte that continues the held sequence (40_dispatcher.md R100). -/
def continuation : Sync → Option Byte
  | .sIdle => none
  | .sUbx1 => some 0x62
  | .sUni1 => some 0x44
  | .sUni2 => some 0xB5

/-- The operation the continuing byte selects. -/
def confirming : Sync → Instr
  | .sIdle => .dDiscard .sIdle 0
  | .sUbx1 => .dUbxConfirm
  | .sUni1 => .dUniSync2
  | .sUni2 => .dUnibConfirm

theorem decodeIdle_continuing {held : Sync} {b : Byte} (h : continuation held = some b) :
    decodeIdle held b = confirming held := by
  cases held <;> cases h <;> rfl

theorem decodeIdle_examines {held : Sync} {b : Byte} (h : continuation held ≠ some b) :
    decodeIdle held b = examine held b := by
  cases held
  case sIdle => rfl
  all_goals exact if_neg fun hb => h (congrArg some hb.symm)

theorem confirming_encode {held : Sync} {b : Byte} (h : continuation held = some b) :
    (confirming held).wf = true ∧ encode (confirming held) = (.sync held, b) := by
  cases held <;> cases h <;> exact ⟨rfl, rfl⟩

/-- An examined byte is the operand of the row it selects; `D.UBX_SYNC1` and `D.DISCARD` are well-formed
because the byte does not continue what is held. -/
theorem examine_encode {held : Sync} {b : Byte} (h : continuation held ≠ some b) :
    (examine held b).wf = true ∧ encode (examine held b) = (.sync held, b) := by
  unfold examine
  split
  case isTrue hb => subst hb; exact ⟨rfl, rfl⟩
  split
  case isTrue hb =>
    subst hb
    refine ⟨?_, rfl⟩
    cases held
    case sUni2 => exact absurd rfl h
    all_goals rfl
  split
  case isTrue hb => subst hb; exact ⟨rfl, rfl⟩
  split
  case isTrue hb => subst hb; exact ⟨rfl, rfl⟩
  refine ⟨(Dispatcher.wfDiscard_iff held b).mpr ⟨by simp_all, ?_, ?_⟩, rfl⟩
  · rintro rfl rfl; exact h rfl
  · rintro rfl rfl; exact h rfl

/-- What the sync contexts give back, the continuing byte and the examined ones together. -/
theorem decodeIdle_encode (held : Sync) (b : Byte) :
    (decodeIdle held b).wf = true ∧ encode (decodeIdle held b) = (.sync held, b) := by
  by_cases h : continuation held = some b
  · rw [decodeIdle_continuing h]; exact confirming_encode h
  · rw [decodeIdle_examines h]; exact examine_encode h

theorem decodeNmea_encode (b : Byte) :
    (decodeNmea b).wf = true ∧ encode (decodeNmea b) = (.nmea, b) := by
  unfold decodeNmea
  split
  case isTrue hb => subst hb; exact ⟨rfl, rfl⟩
  split
  case isTrue hb => subst hb; exact ⟨rfl, rfl⟩
  split
  case isTrue hb => subst hb; exact ⟨rfl, rfl⟩
  exact ⟨by simp_all [Instr.wf, wfNmeaChar], rfl⟩

theorem decodeUnicore_encode (b : Byte) :
    (decodeUnicore b).wf = true ∧ encode (decodeUnicore b) = (.unicore, b) := by
  unfold decodeUnicore
  split
  case isTrue hb => subst hb; exact ⟨rfl, rfl⟩
  split
  case isTrue hb => subst hb; exact ⟨rfl, rfl⟩
  split
  case isTrue hb => subst hb; exact ⟨rfl, rfl⟩
  split
  case isTrue hb => subst hb; exact ⟨rfl, rfl⟩
  exact ⟨by simp_all [Instr.wf, wfUniChar], rfl⟩

/-- Settles O2: context by context, each branch of the decoder carries the byte it tested. -/
theorem encodeDecodeAgree : Obligations.EncodeDecodeAgree := by
  intro c b
  cases c
  case sync held => exact decodeIdle_encode held b
  case nmea => exact decodeNmea_encode b
  case unicore => exact decodeUnicore_encode b
  all_goals exact ⟨rfl, rfl⟩

/-- A byte left to `D.DISCARD` is discarded in its context. -/
theorem decodeIdle_of_wfDiscard {held : Sync} {b : Byte} (h : wfDiscard held b = true) :
    decodeIdle held b = .dDiscard held b := by
  obtain ⟨hstart, hubx, huni⟩ := (Dispatcher.wfDiscard_iff held b).mp h
  simp only [List.mem_cons, List.not_mem_nil, or_false, not_or] at hstart
  have hno : continuation held ≠ some b := by
    cases held
    case sIdle => exact nofun
    case sUbx1 => exact fun e => hubx rfl (Option.some.inj e).symm
    case sUni1 => exact fun e => huni rfl (Option.some.inj e).symm
    case sUni2 => exact fun e => hstart.2.1 (Option.some.inj e).symm
  rw [decodeIdle_examines hno]
  simp only [examine, hstart, if_false]

/-- A byte that is no delimiter is a term character of an NMEA sentence. -/
theorem decodeNmea_of_wf {b : Byte} (h : wfNmeaChar b = true) : decodeNmea b = .nChar b := by
  simp only [wfNmeaChar, Bool.and_eq_true, bne_iff_ne] at h
  simp only [decodeNmea, h, if_false]

/-- A byte that is no delimiter and no colon is a plain term character of a Unicore sentence. -/
theorem decodeUnicore_of_wf {b : Byte} (h : wfUniChar b = true) : decodeUnicore b = .aChar b := by
  simp only [wfUniChar, Bool.and_eq_true, bne_iff_ne] at h
  simp only [decodeUnicore, h, if_false]

/-- A byte examined wherever it arrives selects its own row, whatever is held. -/
theorem decodeIdle_startByte (held : Sync) :
    decodeIdle held 0x24 = .dStartNmea held ∧ decodeIdle held 0xAA = .dUniSync1 held ∧
      decodeIdle held 0xD3 = .dStartRtcm held := by
  cases held <;> exact ⟨rfl, rfl, rfl⟩

/-- Settles O1: constructor by constructor, the byte the encoder writes takes the decoder to the row of
the instruction; the well-formedness rules out the bytes of the earlier rows. -/
theorem decodeEncodeAgree : Obligations.DecodeEncodeAgree := by
  intro i hwf
  cases i
  case dStartNmea held => exact (decodeIdle_startByte held).1
  case dUniSync1 held => exact (decodeIdle_startByte held).2.1
  case dStartRtcm held => exact (decodeIdle_startByte held).2.2
  case dUbxSync1 held =>
    cases held
    case sUni2 => cases hwf
    all_goals rfl
  case dDiscard held b => exact decodeIdle_of_wfDiscard hwf
  case nChar b => exact decodeNmea_of_wf hwf
  case aChar b => exact decodeUnicore_of_wf hwf
  all_goals rfl

/-- Settles O6: ten rows of the operation map, evaluated. -/
theorem sampleBytesDecode : Obligations.SampleBytesDecode := by
  unfold Obligations.SampleBytesDecode
  decide

end Sys2Proof.Encoding

/-! The context a state stands in (30_encoding.md R80): where each position lies, which protocol a
context belongs to, and placing a state in one. -/

namespace Sys2Proof.Contexts

open Sys2Proof.Machine

theorem ubxContext_payload {p l : Nat} (h4 : 4 ≤ p) (h : p < 4 + l) : ubxContext p l = some .ubxPayload := by
  have h0 : p ≠ 0 ∧ p ≠ 1 ∧ p ≠ 2 ∧ p ≠ 3 := by omega
  simp [ubxContext, h0, h]

theorem ubxContext_ckA (l : Nat) : ubxContext (4 + l) l = some .ubxCkA := by
  have h0 : 4 + l ≠ 0 ∧ 4 + l ≠ 1 ∧ 4 + l ≠ 2 ∧ 4 + l ≠ 3 := by omega
  simp [ubxContext, h0]

theorem ubxContext_ckB (l : Nat) : ubxContext (5 + l) l = some .ubxCkB := by
  have h0 : 5 + l ≠ 0 ∧ 5 + l ≠ 1 ∧ 5 + l ≠ 2 ∧ 5 + l ≠ 3 ∧ ¬ 5 + l < 4 + l ∧ 5 + l ≠ 4 + l := by omega
  simp [ubxContext, h0]

theorem ubxContext_outside {p l : Nat} (h : 5 + l < p) : ubxContext p l = none := by
  have h0 : p ≠ 0 ∧ p ≠ 1 ∧ p ≠ 2 ∧ p ≠ 3 ∧ ¬ p < 4 + l ∧ p ≠ 4 + l ∧ p ≠ 5 + l := by omega
  simp [ubxContext, h0]

/-- Inside the frame every UBX position has a context. -/
theorem ubxContext_inside {p l : Nat} (h : p ≤ 5 + l) : ubxContext p l ≠ none := by
  intro hnone
  unfold ubxContext at hnone
  repeat' split at hnone
  all_goals cases hnone
  omega

theorem rtcmContext_body {n : Nat} (h : 3 ≤ n) : rtcmContext n = some .rtcmBody := by
  have h0 : n ≠ 1 ∧ n ≠ 2 := by omega
  simp [rtcmContext, h0, h]

/-- The protocol whose bytes are read in a context. -/
def protoOf : Context → Proto
  | .sync _ => .none
  | .nmea => .nmea
  | .unicore => .unicore
  | .ubxP0 | .ubxP1 | .ubxP2 | .ubxP3 | .ubxPayload | .ubxCkA | .ubxCkB => .ubx
  | .unibHdr | .unibBody => .unicoreBinary
  | .rtcmC1 | .rtcmC2 | .rtcmBody => .rtcm

theorem ubxContext_proto {p l : Nat} {c : Context} (h : ubxContext p l = some c) : protoOf c = .ubx := by
  unfold ubxContext at h
  repeat' split at h
  all_goals cases h
  all_goals rfl

theorem rtcmContext_proto {n : Nat} {c : Context} (h : rtcmContext n = some c) : protoOf c = .rtcm := by
  unfold rtcmContext at h
  repeat' split at h
  all_goals cases h
  all_goals rfl

/-- A state stands only in contexts of its active protocol. -/
theorem context_proto {s : State} {c : Context} (h : s.context = some c) : protoOf c = s.proto := by
  unfold State.context at h
  cases hp : s.proto <;> rw [hp] at h
  case ubx => exact ubxContext_proto h
  case rtcm => exact rtcmContext_proto h
  case unicoreBinary =>
    cases Option.some.inj h
    split <;> rfl
  all_goals cases h
  all_goals rfl

theorem context_none {s : State} (h : s.proto = .none) : s.context = some (.sync s.sync) := by
  rw [State.context, h]

theorem context_nmea {s : State} (h : s.proto = .nmea) : s.context = some .nmea := by
  rw [State.context, h]

theorem context_unicore {s : State} (h : s.proto = .unicore) : s.context = some .unicore := by
  rw [State.context, h]

theorem context_rtcm {s : State} (h : s.proto = .rtcm) : s.context = rtcmContext s.r.cnt.toNat := by
  rw [State.context, h]

theorem context_unib {s : State} (h : s.proto = .unicoreBinary) :
    s.context = some (if s.b.cnt.toNat < 24 then .unibHdr else .unibBody) := by
  rw [State.context, h]; rfl

theorem context_invalid {s : State} (h : s.proto = .invalid) : s.context = none := by
  rw [State.context, h]

/-- Settles O5: the context is a table over `proto` and the live position. -/
theorem contextFromFramerState : Obligations.ContextFromFramerState := by
  intro s
  refine ⟨context_none, context_nmea, context_unicore, fun hubx p l hp hl => ?ubx, fun hrtcm => ?rtcm,
    fun hunib => ?unib, context_invalid⟩
  case ubx =>
    rw [Ubx.context_of_ubx hubx, hp, hl]
    refine ⟨?_, ?_, ?_, ?_, ubxContext_payload, ?_, ?_, ubxContext_outside⟩
    · rintro rfl; rfl
    · rintro rfl; rfl
    · rintro rfl; rfl
    · rintro rfl; rfl
    · rintro rfl; exact ubxContext_ckA l
    · rintro rfl; exact ubxContext_ckB l
  case rtcm =>
    rw [context_rtcm hrtcm]
    exact ⟨fun h => by rw [h]; rfl, fun h => by rw [h]; rfl, fun h => by rw [h]; rfl, rtcmContext_body⟩
  case unib =>
    rw [context_unib hunib]
    exact ⟨fun h => by rw [if_pos h], fun h => by rw [if_neg (by omega)]⟩

/-- A dispatcher operation stands in a sync context only. -/
theorem protoOf_dispatcher {i : Instr} (h : i.op ∈ [Op.dStartNmea, .dUbxSync1, .dUbxConfirm, .dUniSync1,
    .dUniSync2, .dUnibConfirm, .dStartRtcm, .dDiscard]) : protoOf (encode i).1 = .none := by
  cases i
  case dStartNmea | dUbxSync1 | dUbxConfirm | dUniSync1 | dUniSync2 | dUnibConfirm | dStartRtcm | dDiscard => rfl
  all_goals simp [Instr.op] at h

/-- The operation decoded in a state belongs to the active protocol. -/
theorem protoOf_decode {s : State} {c : Context} (b : Byte) (h : s.context = some c) :
    protoOf (encode (decode c b)).1 = s.proto := by
  rw [(Encoding.encodeDecodeAgree c b).2]
  exact context_proto h

/-- Settles O4: a decoded operation belongs to the active protocol, a dispatcher operation to none. -/
theorem activeProtocolIgnoresStartBytes : Obligations.ActiveProtocolIgnoresStartBytes := by
  intro s c b hactive hc hop
  exact hactive ((protoOf_decode b hc).symm.trans (protoOf_dispatcher hop))

/-- The positions of the two trailer bytes do not wrap (30_encoding.md R80). -/
theorem trailerPos_toNat (k : Nat) (hk : k < 6) (len : Half) :
    (BitVec.ofNat 17 k + len.setWidth 17).toNat = k + len.toNat := by
  have := len.isLt
  simp
  omega

/-- Placing a state in a context puts it there (30_encoding.md R80). -/
theorem placeIn_context (s : State) (c : Context) : (s.placeIn c).context = some c := by
  cases c
  case ubxPayload =>
    rw [Ubx.context_of_ubx rfl]
    refine ubxContext_payload (Nat.le_refl 4) ?_
    show 4 < 4 + (if s.u.len = 0 then (1 : Half) else s.u.len).toNat
    split
    · decide
    · rename_i hlen
      have : s.u.len.toNat ≠ 0 := fun e => hlen (BitVec.eq_of_toNat_eq e)
      omega
  case ubxCkA =>
    rw [Ubx.context_of_ubx rfl]
    exact (congrArg (ubxContext · _) (trailerPos_toNat 4 (by decide) s.u.len)).trans (ubxContext_ckA _)
  case ubxCkB =>
    rw [Ubx.context_of_ubx rfl]
    exact (congrArg (ubxContext · _) (trailerPos_toNat 5 (by decide) s.u.len)).trans (ubxContext_ckB _)
  all_goals rfl

/-- Settles O53: `placeIn` writes `proto`, `sync` or the position, and these give the context. -/
theorem everyContextIsOccupied : Obligations.EveryContextIsOccupied := by
  intro s c
  refine ⟨placeIn_context s c, ?_⟩
  cases c <;> exact ⟨rfl, rfl, rfl, rfl, rfl, rfl, rfl, rfl, rfl⟩

/-- A table word decodes in the context it is read in. -/
theorem decodeTableWord_eq {w : Nat} {i : Instr} (h : decodeTableWord 8 w = some i) :
    decode (tableContext (BitVec.ofNat 8 w)) (BitVec.ofNat 8 w) = i := by
  unfold decodeTableWord at h
  split at h
  · exact Option.some.inj h
  · cases h

/-- Taking a byte off the input just behind which it was put. -/
theorem consume_waiting (placed : State) (b : Byte) :
    ({ placed with input := .byte b :: placed.input } : State).consume placed.input =
      { placed with evt := none, termOut := none, ack := none } := rfl

/-- Settles O52: the placed state stands in the context of the word, whose instruction encodes to it. -/
theorem placedWordRuns : Obligations.PlacedWordRuns := by
  intro s w i hword
  have hi := decodeTableWord_eq hword
  have hctx : (s.withFetchWord 8 w).context = some (tableContext (BitVec.ofNat 8 w)) := placeIn_context s _
  have hrun := step_byte (b := BitVec.ofNat 8 w) rfl hctx
  have henc := (Encoding.encodeDecodeAgree (tableContext (BitVec.ofNat 8 w)) (BitVec.ofNat 8 w)).2
  rw [hi] at hrun henc
  rw [hrun, henc, exec_after, State.withFetchWord, consume_waiting]

end Sys2Proof.Contexts

/-! The step as a whole: what it runs, where it stops, and that it keeps the parameters. -/

namespace Sys2Proof.Steps

open Sys2Proof.Machine Sys2Proof.Contexts

/-- Settles O7: the step is `exec` of the decoded byte. -/
theorem stepRunsDecodedInstruction : Obligations.StepRunsDecodedInstruction := by
  intro s b rest c hinput hc
  rw [step_byte hinput hc, exec_after]
  rfl

/-- A step with nothing waiting. -/
theorem step_empty {s : State} (h : s.input = []) : step s = .next s.clearPorts := by
  rw [step, h]

/-- A step with `init` waiting. -/
theorem step_init {s : State} {rest : List Stimulus} (h : s.input = .init :: rest) :
    step s = .next ({ s with input := rest } : State).init := by
  rw [step, h]

/-- A byte that waits in a state without a context stops the machine. -/
theorem step_stuck {s : State} {b : Byte} {rest : List Stimulus} (h : s.input = .byte b :: rest)
    (hc : s.context = none) :
    step s = if s.proto = .invalid then .refused .protoInvalid else .fault .noContext := by
  rw [step, h]
  simp only [stepByte, hc]

/-- Settles O8: the empty branch of the step. -/
theorem stepWithoutInputWaits : Obligations.StepWithoutInputWaits :=
  fun _ h => step_empty h

/-- Settles O9: the `init` branch of the step, with the reset values written out. -/
theorem initResetsEverything : Obligations.InitResetsEverything :=
  fun _ _ h => step_init h

/-- Settles O12: the reset values, read off. -/
theorem resetIsIdle : Obligations.ResetIsIdle :=
  ⟨rfl, rfl, rfl, ⟨rfl, rfl, rfl, rfl, rfl⟩, ⟨rfl, rfl, rfl, rfl, rfl, rfl, rfl, rfl⟩, ⟨rfl, rfl, rfl, rfl⟩,
    ⟨rfl, rfl, rfl, rfl, rfl⟩, ⟨rfl, rfl, rfl, rfl⟩, fun _ => ⟨rfl, rfl, rfl⟩, rfl, rfl, rfl, rfl, rfl⟩

/-- A step goes on whenever the state has a context or no byte waits. -/
theorem step_goes_on {s : State} (h : (¬ ∃ b rest, s.input = .byte b :: rest) ∨ s.context ≠ none) :
    ∃ t, step s = .next t := by
  match hi : s.input with
  | [] => exact ⟨_, step_empty hi⟩
  | .init :: rest => exact ⟨_, step_init hi⟩
  | .byte b :: rest =>
    obtain ⟨c, hc⟩ := Option.ne_none_iff_exists'.mp (h.resolve_left (not_not_intro ⟨b, rest, hi⟩))
    exact ⟨_, step_byte hi hc⟩

/-- Settles O10: `INVALID` has no context, and with a context the operation always answers. -/
theorem stepStopsOnlyOutsideTheMap : Obligations.StepStopsOnlyOutsideTheMap := by
  refine fun s => ⟨?_, ?_, step_goes_on⟩
  · rintro ⟨b, rest, hi⟩ hinvalid
    rw [step_stuck hi (context_invalid hinvalid), if_pos hinvalid]
  · rintro ⟨b, rest, hi⟩ hvalid hc
    rw [step_stuck hi hc, if_neg hvalid]

/-- No operation writes a parameter (10_state.md R23). -/
theorem after_params (i : Instr) (s : State) : (after i s).params = s.params := by
  cases i
  case nComma => rw [after_nComma]; split <;> rfl
  case nStar => rw [after_nStar]; split <;> rfl
  case nCr => rw [after_nCr]; split <;> rfl
  case aCr => rw [after_aCr]; split <;> rfl
  case uCkB b => rw [after_uCkB]; split <;> simp
  case bHeader b => rw [after_bHeader]; split <;> simp
  case bBody b => simp [after_bBody]
  case rBody b => rw [after_rBody]; split <;> simp
  case dUnibConfirm => simp [after_dUnibConfirm]
  case dStartRtcm held => simp [after_dStartRtcm]
  case uPayload b => simp [after_uPayload]
  case rLenHi b => simp [after_rLenHi]
  case rLenLo b => simp [after_rLenLo]
  all_goals rfl

/-- Settles O11: the operations keep the parameters, and so do waiting and `init`. -/
theorem parametersNeverChange : Obligations.ParametersNeverChange := by
  intro s t h
  obtain ⟨-, rfl⟩ | ⟨rest, -, rfl⟩ | ⟨b, rest, c, -, -, rfl⟩ := step_cases h
  · rfl
  · rfl
  · exact after_params _ _

end Sys2Proof.Steps

/-! The rest of the dispatcher's operations (40_dispatcher.md R102 to R106, R108): the held sequences,
and the two frames that begin with a primed buffer. -/

namespace Sys2Proof.Dispatcher

open Sys2Proof.Machine

theorem wfUbxSync1_iff (held : Sync) : wfUbxSync1 held = true ↔ held ≠ .sUni2 := by
  cases held <;> decide

/-- Settles O17: each of the three operations writes `sync` alone. -/
theorem syncBytesAreHeld : Obligations.SyncBytesAreHeld := by
  intro held s
  refine ⟨⟨rfl, wfUbxSync1_iff held, rfl, condIf_held held⟩, ⟨rfl, rfl, condIf_held held⟩, ⟨rfl, rfl⟩,
    ⟨rfl, rfl, rfl⟩, rfl, fun hheld => ?_⟩
  cases held
  case sUni1 => exact absurd rfl hheld
  all_goals rfl

/-- Settles O19: `clear()` and eight registers set to zero. -/
theorem ubxConfirmOpensFrame : Obligations.UbxConfirmOpensFrame :=
  fun _ => ⟨rfl, rfl⟩

/-- The buffer with the three sync bytes written over its first bytes (40_dispatcher.md R105). -/
def unibPrimed (m : Memory) : Memory := ((m.write 0 0xAA).write 1 0x44).write 2 0xB5

theorem unibPrimed_read (m : Memory) (i : Nat) :
    (unibPrimed m).read i =
      if i = 2 then some 0xB5 else if i = 1 then some 0x44 else if i = 0 then some 0xAA else m.read i := by
  rw [unibPrimed, Memory.read_write, Memory.read_write, Memory.read_write]

/-- Three stores into a cleared buffer with room prime it. -/
theorem store_three {s : State} (h : 24 ≤ s.params.payloadCap) :
    ((s.clear.store 0xAA).store 0x44).store 0xB5 = { s with buf := unibPrimed s.buf, cur := 3 } := by
  have h0 : 0 < s.params.payloadCap := by omega
  have h1 : 1 < s.params.payloadCap := by omega
  have h2 : 2 < s.params.payloadCap := by omega
  rw [clear_eq, State.store_of_lt (s := { s with cur := 0 }) 0xAA h0, State.store_of_lt 0x44 h1, State.store_of_lt 0xB5 h2]
  rfl

theorem after_dUnibConfirm_primed {s : State} (h : 24 ≤ s.params.payloadCap) :
    after .dUnibConfirm s = { s with
      proto := .unicoreBinary, sync := .sIdle, buf := unibPrimed s.buf, cur := 3
      b := { cnt := 3, mid := 0, mlen := 0, total := 0 } } := by
  rw [after_dUnibConfirm, store_three h]

/-- Settles O20: the three stores fit. -/
theorem unibConfirmPrimesBuffer : Obligations.UnibConfirmPrimesBuffer := by
  intro s hcap
  refine ⟨unibPrimed s.buf, rfl, ?_, ?_, ?_, ?_, fun i hi => ?_⟩
  · rw [exec_after, after_dUnibConfirm_primed hcap]
  · rw [unibPrimed_read]; rfl
  · rw [unibPrimed_read]; rfl
  · rw [unibPrimed_read]; rfl
  · rw [unibPrimed_read, if_neg (by omega), if_neg (by omega), if_neg (by omega)]

theorem after_dStartRtcm_primed (held : Sync) {s : State} (h : 24 ≤ s.params.payloadCap) :
    after (.dStartRtcm held) s = { s with
      proto := .rtcm, sync := .sIdle, buf := s.buf.write 0 0xD3, cur := 1
      r := { cnt := 1, len := 0, total := 0, mtype := 0 } } := by
  have h0 : 0 < s.params.payloadCap := by omega
  rw [after_dStartRtcm, clear_eq, State.store_of_lt _ h0]

/-- Settles O21: the one store fits. -/
theorem startRtcmPrimesBuffer : Obligations.StartRtcmPrimesBuffer := by
  intro held s hcap
  refine ⟨s.buf.write 0 0xD3, rfl, ?_, Memory.read_write_same _ _ _, fun i hi => ?_, condIf_held held⟩
  · rw [exec_after, after_dStartRtcm_primed held hcap]
  · exact Memory.read_write_other _ _ _ _ (by omega)

end Sys2Proof.Dispatcher

/-! The NMEA delimiters with and without the hand-off (41_nmea.md R122, R123, R127). -/

namespace Sys2Proof.Nmea

open Sys2Proof.Machine

theorem after_nComma_handOff {s : State} (h : KeptCommand s) : after .nComma s = s.handOff.uniComma := by
  rw [after_nComma, if_pos ((handsOff_iff s).mpr h)]

theorem after_nComma_stays {s : State} (h : ¬ KeptCommand s) :
    after .nComma s = (s.closeNmea.foldN 0x2C).nextNmeaTerm := by
  rw [after_nComma, if_neg (mt (handsOff_iff s).mp h)]

theorem after_nStar_handOff {s : State} (h : KeptCommand s) : after .nStar s = s.handOff.uniStar := by
  rw [after_nStar, if_pos ((handsOff_iff s).mpr h)]

theorem after_nStar_stays {s : State} (h : ¬ KeptCommand s) :
    after .nStar s = { s.closeNmea with n := { s.closeNmea.n with star := true } }.nextNmeaTerm := by
  rw [after_nStar, if_neg (mt (handsOff_iff s).mp h)]

end Sys2Proof.Nmea

/-! The invariant at step boundaries (10_state.md R13, R19, R21). Parameters and buffers are kept by every
operation in every state; the rest of the invariant speaks of the live sub-state alone and is kept by the
operations of its own protocol. -/

namespace Sys2Proof.Invariant

open Sys2Proof.Machine Sys2Proof.Contexts

/-! ## Parameters and buffers -/

/-- The part of the invariant that holds whichever protocol is active: the parameters and the buffers. -/
structure Stored (s : State) : Prop where
  params : s.params.ok = true
  buf : BufferOk s.buf s.cur s.params.payloadCap
  nterm : BufferOk s.n.term s.n.tidx s.params.nmeaTermCap
  aterm : BufferOk s.a.term s.a.tidx s.params.uniTermCap

theorem stored_of_inv {s : State} (h : Inv s) : Stored s := ⟨h.params, h.buf, h.nterm, h.aterm⟩

/-- The constraints on the parameters, as propositions (00_scope.md R7). -/
theorem params_ok_iff (p : Params) : p.ok = true ↔ 24 ≤ p.payloadCap ∧ 7 ≤ p.nmeaTermCap ∧ 7 ≤ p.uniTermCap ∧
    p.unibLenOff + 1 < 24 ∧ p.unibIdOff + 1 < 24 ∧ (p.unibTrailerLen = 0 ∨ p.unibTrailerLen = 4) := by
  rw [Params.ok, decide_eq_true_eq]; rfl

theorem Stored.payloadCap {s : State} (h : Stored s) : 24 ≤ s.params.payloadCap :=
  ((params_ok_iff _).mp h.params).1

theorem Stored.uniTermCap {s : State} (h : Stored s) : 7 ≤ s.params.uniTermCap := by
  obtain ⟨-, -, huni, -⟩ := (params_ok_iff _).mp h.params
  exact huni

theorem Stored.trailerLen {s : State} (h : Stored s) : s.params.unibTrailerLen ≤ 4 := by
  obtain ⟨-, -, -, -, -, htrailer⟩ := (params_ok_iff _).mp h.params
  omega

/-- The two header fields lie inside the header (43_unicore_framers.md R173). -/
theorem Stored.headerOffsets {s : State} (h : Stored s) :
    s.params.unibLenOff + 1 < 24 ∧ s.params.unibIdOff + 1 < 24 := by
  obtain ⟨-, -, -, hlen, hid, -⟩ := (params_ok_iff _).mp h.params
  exact ⟨hlen, hid⟩

theorem Stored.store {s : State} (h : Stored s) (v : Byte) : Stored (s.store v) := by
  refine ⟨?_, ?_, ?_, ?_⟩
  · rw [State.store_params]; exact h.params
  · rw [State.store_params]; exact State.store_ok h.buf v
  · rw [State.store_params, State.store_n]; exact h.nterm
  · rw [State.store_params, State.store_a]; exact h.aterm

theorem Stored.clear {s : State} (h : Stored s) : Stored s.clear :=
  ⟨h.params, h.buf.mono 0 (Nat.zero_le _), h.nterm, h.aterm⟩

theorem Stored.toIdle {s : State} (h : Stored s) : Stored s.toIdle :=
  ⟨h.params, h.buf.mono 0 (Nat.zero_le _), h.nterm, h.aterm⟩

theorem Stored.unibTake {s : State} (h : Stored s) (b : Byte) : Stored (s.unibTake b) :=
  have hstore := h.store b
  ⟨hstore.params, hstore.buf, hstore.nterm, hstore.aterm⟩

theorem Stored.unibComplete {s : State} (h : Stored s) : Stored s.unibComplete := by
  unfold State.unibComplete
  split
  · exact ⟨h.params, h.buf.mono 0 (Nat.zero_le _), h.nterm, h.aterm⟩
  · exact h

theorem Stored.uniComma {s : State} (h : Stored s) : Stored s.uniComma :=
  ⟨h.params, h.buf, h.nterm, h.aterm.mono 0 (Nat.zero_le _)⟩

theorem Stored.uniStar {s : State} (h : Stored s) : Stored s.uniStar :=
  ⟨h.params, h.buf, h.nterm, h.aterm.mono 0 (Nat.zero_le _)⟩

/-- The seven copied characters fit the Unicore term buffer (41_nmea.md R127). -/
theorem Stored.handOff {s : State} (h : Stored s) : Stored s.handOff := by
  obtain ⟨hwf, -, hbound, -⟩ := h.aterm
  refine ⟨h.params, h.buf.mono 0 (Nat.zero_le _), h.nterm, copyTerm_wf _ _ _ hwf, h.uniTermCap,
    fun c hc => ?_, fun i hi => ?_⟩
  · obtain hlt | hmem := mem_copyTerm _ _ _ _ hc
    · exact Nat.lt_of_lt_of_le hlt h.uniTermCap
    · exact hbound c hmem
  · have hcopied : s.handOff.a.term.read i = some (s.n.term.byteAt .nmeaTerm i) :=
      (copyTerm_read _ _ _ _).trans (if_pos hi)
    rw [hcopied]; rfl

/-- Every operation keeps parameters and buffers, in every state: a buffer is written by the appending
primitives and by the copy of the hand-off alone (20_memory.md R44 to R46). -/
theorem Stored.after {s : State} (h : Stored s) (i : Instr) : Stored (after i s) := by
  cases i
  case dStartNmea held =>
    exact ⟨h.params, h.buf.mono 0 (Nat.zero_le _), h.nterm.mono 0 (Nat.zero_le _), h.aterm⟩
  case dUbxConfirm => exact ⟨h.params, h.buf.mono 0 (Nat.zero_le _), h.nterm, h.aterm⟩
  case dUnibConfirm =>
    have hprimed := ((h.clear.store 0xAA).store 0x44).store 0xB5
    exact ⟨hprimed.params, hprimed.buf, hprimed.nterm, hprimed.aterm⟩
  case dStartRtcm held =>
    have hprimed := h.clear.store 0xD3
    exact ⟨hprimed.params, hprimed.buf, hprimed.nterm, hprimed.aterm⟩
  case nChar b => exact ⟨h.params, h.buf, TermBuf.append_ok h.nterm b, h.aterm⟩
  case nComma =>
    rw [after_nComma]
    split
    · exact h.handOff.uniComma
    · exact ⟨h.params, h.buf, h.nterm.mono 0 (Nat.zero_le _), h.aterm⟩
  case nStar =>
    rw [after_nStar]
    split
    · exact h.handOff.uniStar
    · exact ⟨h.params, h.buf, h.nterm.mono 0 (Nat.zero_le _), h.aterm⟩
  case nCr => rw [after_nCr]; split <;> exact ⟨h.params, h.toIdle.buf, h.nterm, h.aterm⟩
  case aCr => rw [after_aCr]; split <;> exact ⟨h.params, h.toIdle.buf, h.nterm, h.aterm⟩
  case uCkB b =>
    rw [after_uCkB]
    refine Stored.toIdle ?_
    split
    · exact ⟨by simpa using h.params, by simpa using h.buf, by simpa using h.nterm, by simpa using h.aterm⟩
    · exact ⟨h.params, h.buf, h.nterm, h.aterm⟩
  case uPayload b =>
    have hstore := h.store b
    exact ⟨hstore.params, hstore.buf, hstore.nterm, hstore.aterm⟩
  case aChar b => exact ⟨h.params, h.buf, h.nterm, TermBuf.append_ok h.aterm b⟩
  case aColon => exact ⟨h.params, h.buf, h.nterm, TermBuf.append_ok h.aterm 0x3A⟩
  case aComma => exact h.uniComma
  case aStar => exact h.uniStar
  case bHeader b =>
    have htake := h.unibTake b
    rw [after_bHeader]
    split
    · exact Stored.unibComplete ⟨htake.params, htake.buf, htake.nterm, htake.aterm⟩
    · exact htake
  case bBody b => exact (h.unibTake b).unibComplete
  case rLenHi b | rLenLo b =>
    have hstore := h.store b
    exact ⟨hstore.params, hstore.buf, hstore.nterm, hstore.aterm⟩
  case rBody b =>
    have hstore := h.store b
    rw [after_rBody]
    split
    · exact ⟨hstore.params, hstore.buf.mono 0 (Nat.zero_le _), hstore.nterm, hstore.aterm⟩
    · exact ⟨hstore.params, hstore.buf, hstore.nterm, hstore.aterm⟩
  all_goals exact ⟨h.params, h.buf, h.nterm, h.aterm⟩

/-! ## The invariant from the live sub-state -/

/-- The part of the invariant about the live sub-state (10_state.md R21). -/
def LiveOk (s : State) : Prop :=
  match s.proto with
  | .nmea => NmeaOk s
  | .unicore => UniOk s
  | .ubx => UbxOk s
  | .rtcm => RtcmOk s
  | .unicoreBinary => UnibOk s
  | .none | .invalid => True

/-- What the invariant says of a sub-state that is not live is void. -/
theorem inv_of_live {s : State} (h : Stored s) (hframer : FramerOk s) (hlive : LiveOk s) : Inv s where
  params := h.params
  buf := h.buf
  nterm := h.nterm
  aterm := h.aterm
  framer := hframer
  nmea e := by rw [LiveOk, e] at hlive; exact hlive e
  uni e := by rw [LiveOk, e] at hlive; exact hlive e
  ubx e := by rw [LiveOk, e] at hlive; exact hlive e
  rtcm e := by rw [LiveOk, e] at hlive; exact hlive e
  unib e := by rw [LiveOk, e] at hlive; exact hlive e

section
variable {s : State} (h : Stored s)
include h

theorem inv_of_none (hp : s.proto = .none) (hcur : s.cur = 0) : Inv s :=
  inv_of_live h ⟨by simp [hp], fun e => absurd hp e, fun _ => hcur⟩ (by rw [LiveOk, hp]; trivial)

theorem inv_of_nmea (hp : s.proto = .nmea) (hs : s.sync = .sIdle) (hcur : s.cur = 0)
    (hn : s.n.tnum = 0 → s.n.stype = .none ∧ s.n.star = false) : Inv s :=
  inv_of_live h ⟨by simp [hp], fun _ => hs, fun _ => hcur⟩ (by rw [LiveOk, hp]; exact fun _ => hn)

theorem inv_of_unicore (hp : s.proto = .unicore) (hs : s.sync = .sIdle) (hcur : s.cur = 0) (ha : UniOk s) : Inv s :=
  inv_of_live h ⟨by simp [hp], fun _ => hs, fun _ => hcur⟩ (by rw [LiveOk, hp]; exact ha)

theorem inv_of_ubx (hp : s.proto = .ubx) (hs : s.sync = .sIdle) (hu : UbxOk s) : Inv s :=
  inv_of_live h ⟨by simp [hp], fun _ => hs, by simp [hp]⟩ (by rw [LiveOk, hp]; exact hu)

theorem inv_of_rtcm (hp : s.proto = .rtcm) (hs : s.sync = .sIdle) (hr : RtcmOk s) : Inv s :=
  inv_of_live h ⟨by simp [hp], fun _ => hs, by simp [hp]⟩ (by rw [LiveOk, hp]; exact hr)

theorem inv_of_unib (hp : s.proto = .unicoreBinary) (hs : s.sync = .sIdle) (hb : UnibOk s) : Inv s :=
  inv_of_live h ⟨by simp [hp], fun _ => hs, by simp [hp]⟩ (by rw [LiveOk, hp]; exact hb)

end

/-- While a frame is active nothing is held. -/
theorem sync_of_active {s : State} {p : Proto} (h : Inv s) (hp : s.proto = p) (hactive : p ≠ .none) :
    s.sync = .sIdle :=
  h.framer.2.1 (hp ▸ hactive)

/-- The ports and the input are no part of the invariant. -/
theorem inv_consume {s : State} (h : Inv s) (rest : List Stimulus) : Inv (s.consume rest) :=
  ⟨h.params, h.buf, h.nterm, h.aterm, h.framer, h.nmea, h.uni, h.ubx, h.rtcm, h.unib⟩

theorem inv_clearPorts {s : State} (h : Inv s) : Inv s.clearPorts :=
  ⟨h.params, h.buf, h.nterm, h.aterm, h.framer, h.nmea, h.uni, h.ubx, h.rtcm, h.unib⟩

/-- The state after `init` has the invariant for any legal parameters. -/
theorem inv_init {s : State} (h : s.params.ok = true) : Inv s.init :=
  inv_of_none ⟨h, BufferOk.empty _, BufferOk.empty _, BufferOk.empty _⟩ rfl rfl

/-- Settles O13: after reset the buffers list nothing and no protocol is active. -/
theorem resetMeetsInvariant : Obligations.ResetMeetsInvariant :=
  inv_init (s := State.reset) (by decide)

/-- In a state with the invariant every byte has a context (30_encoding.md R82). -/
theorem context_of_inv {s : State} (h : Inv s) : s.context ≠ none := by
  cases hp : s.proto
  case none => rw [context_none hp]; exact nofun
  case nmea => rw [context_nmea hp]; exact nofun
  case unicore => rw [context_unicore hp]; exact nofun
  case ubx => rw [Ubx.context_of_ubx hp]; exact ubxContext_inside (h.ubx hp).1
  case rtcm =>
    obtain ⟨hcnt, -⟩ := h.rtcm hp
    rw [context_rtcm hp]
    by_cases h1 : s.r.cnt.toNat = 1
    · rw [h1]; exact nofun
    by_cases h2 : s.r.cnt.toNat = 2
    · rw [h2]; exact nofun
    rw [rtcmContext_body (by omega)]; exact nofun
  case unicoreBinary => rw [context_unib hp]; exact nofun
  case invalid => exact absurd hp h.framer.1

/-- Settles O15: a state with the invariant has a context, and with a context the step goes on. -/
theorem invariantNeverStops : Obligations.InvariantNeverStops :=
  fun _ h => Steps.step_goes_on (.inr (context_of_inv h))

end Sys2Proof.Invariant

/-! Every step keeps the invariant: protocol by protocol, operation by operation, with the position that
the operation's context stands for (30_encoding.md R80). -/

namespace Sys2Proof.Invariant

open Sys2Proof.Machine Sys2Proof.Contexts

/-! ## Positions and counters -/

/-- What a UBX context says of the position (30_encoding.md R80). -/
theorem ubxContext_cases {p l : Nat} {c : Context} (h : ubxContext p l = some c) :
    (c = .ubxP0 ∧ p = 0) ∨ (c = .ubxP1 ∧ p = 1) ∨ (c = .ubxP2 ∧ p = 2) ∨ (c = .ubxP3 ∧ p = 3) ∨
      (c = .ubxPayload ∧ 4 ≤ p ∧ p < 4 + l) ∨ (c = .ubxCkA ∧ p = 4 + l) ∨ (c = .ubxCkB ∧ p = 5 + l) := by
  unfold ubxContext at h
  repeat' split at h
  all_goals cases h
  all_goals simp
  all_goals omega

/-- What an RTCM context says of the count (30_encoding.md R80). -/
theorem rtcmContext_cases {n : Nat} {c : Context} (h : rtcmContext n = some c) :
    (c = .rtcmC1 ∧ n = 1) ∨ (c = .rtcmC2 ∧ n = 2) ∨ (c = .rtcmBody ∧ 3 ≤ n) := by
  unfold rtcmContext at h
  repeat' split at h
  all_goals cases h
  all_goals simp
  all_goals omega

/-- A counter below its last value counts up without wrapping. -/
theorem toNat_succ {w : Nat} (x : BitVec w) (h : x.toNat + 1 < 2 ^ w) : (x + 1#w).toNat = x.toNat + 1 := by
  rw [BitVec.toNat_add, BitVec.toNat_ofNat, Nat.add_mod_mod, Nat.mod_eq_of_lt h]

/-! ## The dispatcher -/

/-- The operations of the dispatcher leave an idle block idle or open a frame at its first position. -/
theorem inv_after_idle {s : State} (h : Inv s) (hp : s.proto = .none) {i : Instr}
    (hi : protoOf (encode i).1 = .none) : Inv (after i s) := by
  have hstored := (stored_of_inv h).after i
  have hcap := (stored_of_inv h).payloadCap
  have hcur : s.cur = 0 := h.framer.2.2 (.inl hp)
  cases i
  case dStartNmea held => exact inv_of_nmea hstored rfl rfl rfl fun _ => ⟨rfl, rfl⟩
  case dUbxSync1 held | dUniSync1 held | dDiscard held b => exact inv_of_none hstored hp hcur
  case dUniSync2 => exact inv_of_none hstored hp hcur
  case dUbxConfirm =>
    refine inv_of_ubx hstored rfl rfl fun _ => ⟨Nat.zero_le _, fun _ => rfl, nofun, ?_⟩
    exact (Nat.zero_min _).symm
  case dUnibConfirm =>
    rw [Dispatcher.after_dUnibConfirm_primed hcap] at hstored ⊢
    refine inv_of_unib hstored rfl rfl fun _ => ⟨Nat.le_refl 3, fun h24 => ?_, ?_, ?_⟩
    · exact absurd (show 24 ≤ 3 from h24) (by decide)
    · exact (Nat.min_eq_left (by omega : 3 ≤ s.params.payloadCap)).symm
    · simp [Dispatcher.unibPrimed_read]
  case dStartRtcm held =>
    rw [Dispatcher.after_dStartRtcm_primed held hcap] at hstored ⊢
    refine inv_of_rtcm hstored rfl rfl fun _ => ⟨Nat.le_refl 1, fun h3 => ?_, ?_, ?_⟩
    · exact absurd (show 3 ≤ 1 from h3) (by decide)
    · exact (Nat.min_eq_left (by omega : 1 ≤ s.params.payloadCap)).symm
    · exact Memory.read_write_same _ _ _
  all_goals cases hi

/-! ## The text protocols -/

/-- Completion leaves a state that keeps the invariant whatever the protocol was (40_dispatcher.md R107). -/
theorem inv_toIdle {s : State} (h : Stored s) : Inv s.toIdle := inv_of_none h.toIdle rfl rfl

/-- Closing a Unicore term adds one item tagged UNICORE, and the term number counts it. -/
theorem uniOk_next {terms : List TermItem} {tnum : TermNo} {item : TermItem} (hitem : item.proto = .unicore)
    (hnum : tnum.toNat = min terms.length 255) (hterms : ∀ x ∈ terms, x.proto = .unicore) :
    1 ≤ (terms ++ [item]).length ∧ (satInc tnum).toNat = min (terms ++ [item]).length 255 ∧
      ∀ x ∈ terms ++ [item], x.proto = .unicore := by
  refine ⟨by simp, ?_, ?_⟩
  · rw [satInc_eq, hnum, List.length_append, List.length_singleton, BitVec.toNat_ofNat]
    omega
  · intro x hx
    obtain hx | hx := List.mem_append.mp hx
    · exact hterms x hx
    · rw [List.mem_singleton.mp hx, hitem]

/-- The hand-off starts the list of items with the closed term 0. -/
theorem uniOk_handOff (s : State) : UniOk s.handOff.uniComma ∧ UniOk s.handOff.uniStar := by
  have hfirst := uniOk_next (terms := []) (tnum := 0) (item := s.handOff.uniTermItem) rfl rfl nofun
  exact ⟨fun _ => hfirst, fun _ => hfirst⟩

theorem inv_after_nmea {s : State} (h : Inv s) (hp : s.proto = .nmea) {i : Instr}
    (hi : protoOf (encode i).1 = .nmea) : Inv (after i s) := by
  have hstored := (stored_of_inv h).after i
  have hsync := sync_of_active h hp nofun
  have hcur : s.cur = 0 := h.framer.2.2 (.inr (.inl hp))
  cases i
  case nChar b => exact inv_of_nmea hstored hp hsync hcur (h.nmea hp)
  case nComma =>
    by_cases hoff : KeptCommand s
    · rw [Nmea.after_nComma_handOff hoff] at hstored ⊢
      exact inv_of_unicore hstored rfl hsync rfl (uniOk_handOff s).1
    · rw [Nmea.after_nComma_stays hoff] at hstored ⊢
      exact inv_of_nmea hstored hp hsync hcur fun e => absurd e (satInc_ne_zero _)
  case nStar =>
    by_cases hoff : KeptCommand s
    · rw [Nmea.after_nStar_handOff hoff] at hstored ⊢
      exact inv_of_unicore hstored rfl hsync rfl (uniOk_handOff s).2
    · rw [Nmea.after_nStar_stays hoff] at hstored ⊢
      exact inv_of_nmea hstored hp hsync hcur fun e => absurd e (satInc_ne_zero _)
  case nCr => exact inv_of_none hstored rfl rfl
  all_goals cases hi

theorem inv_after_unicore {s : State} (h : Inv s) (hp : s.proto = .unicore) {i : Instr}
    (hi : protoOf (encode i).1 = .unicore) : Inv (after i s) := by
  have hstored := (stored_of_inv h).after i
  have hsync := sync_of_active h hp nofun
  have hcur : s.cur = 0 := h.framer.2.2 (.inr (.inr hp))
  obtain ⟨hone, hnum, hterms⟩ := h.uni hp
  cases i
  case aChar b => exact inv_of_unicore hstored hp hsync hcur (h.uni)
  case aColon => exact inv_of_unicore hstored hp hsync hcur (h.uni)
  case aComma => exact inv_of_unicore hstored hp hsync hcur fun _ => uniOk_next rfl hnum hterms
  case aStar => exact inv_of_unicore hstored hp hsync hcur fun _ => uniOk_next rfl hnum hterms
  case aCr => exact inv_of_none hstored rfl rfl
  all_goals cases hi

/-! ## The binary protocols -/

/-- The UBX part of the invariant in numbers: the position, the length, the cursor and the capacity. -/
def UbxNumbers (pos len cur cap : Nat) : Prop :=
  pos ≤ 5 + len ∧ (pos ≤ 2 → len = 0) ∧ (pos = 3 → len < 256) ∧ cur = min (min (pos - 4) len) cap

theorem ubxOk_of {t : State} {pos len cur : Nat} {p : Params} (h : UbxNumbers pos len cur p.payloadCap)
    (hparams : t.params = p) (hpos : t.u.pos.toNat = pos) (hlen : t.u.len.toNat = len) (hcur : t.cur = cur) :
    UbxOk t := by
  subst hpos hlen hcur hparams
  obtain ⟨hin, hzero, hlow, hcur⟩ := h
  exact fun _ => ⟨hin, fun h2 => BitVec.eq_of_toNat_eq (hzero h2), hlow, hcur⟩

theorem inv_after_ubx {s : State} (h : Inv s) (hp : s.proto = .ubx) {c : Context} (b : Byte)
    (hc : s.context = some c) : Inv (after (decode c b) s) := by
  have hstored := (stored_of_inv h).after (decode c b)
  have hparams := Steps.after_params (decode c b) s
  have hsync := sync_of_active h hp nofun
  obtain ⟨-, hzero, hlow, hcur⟩ := h.ubx hp
  have hlen : s.u.len.toNat < 65536 := s.u.len.isLt
  have hlen0 (hpos : s.u.pos.toNat ≤ 2) : s.u.len.toNat = 0 := by rw [hzero hpos]; rfl
  rw [Ubx.context_of_ubx hp] at hc
  obtain ⟨rfl, hat⟩ | ⟨rfl, hat⟩ | ⟨rfl, hat⟩ | ⟨rfl, hat⟩ | ⟨rfl, hat, hroom⟩ | ⟨rfl, hat⟩ | ⟨rfl, hat⟩ :=
    ubxContext_cases hc
  · have hnum : UbxNumbers 1 s.u.len.toNat s.cur s.params.payloadCap := by
      have := hlen0 (by omega)
      unfold UbxNumbers; omega
    exact inv_of_ubx hstored hp hsync (ubxOk_of hnum hparams rfl rfl rfl)
  · have hnum : UbxNumbers 2 s.u.len.toNat s.cur s.params.payloadCap := by
      have := hlen0 (by omega)
      unfold UbxNumbers; omega
    exact inv_of_ubx hstored hp hsync (ubxOk_of hnum hparams rfl rfl rfl)
  · have hnum : UbxNumbers 3 (setLenLo s.u.len b).toNat s.cur s.params.payloadCap := by
      have := hlen0 (by omega)
      have := b.isLt
      rw [setLenLo_eq, BitVec.toNat_ofNat]
      unfold UbxNumbers; omega
    exact inv_of_ubx hstored hp hsync (ubxOk_of hnum hparams rfl rfl rfl)
  · have hnum : UbxNumbers 4 (setLenHi s.u.len b).toNat s.cur s.params.payloadCap := by
      unfold UbxNumbers; omega
    exact inv_of_ubx hstored hp hsync (ubxOk_of hnum hparams rfl rfl rfl)
  · have hnum : UbxNumbers (s.u.pos.toNat + 1) s.u.len.toNat (min (s.cur + 1) s.params.payloadCap) s.params.payloadCap := by
      unfold UbxNumbers; omega
    exact inv_of_ubx hstored ((State.store_proto s b).trans hp) ((State.store_sync s b).trans hsync)
      (ubxOk_of hnum hparams (toNat_succ _ (by omega)) (congrArg (·.len.toNat) (State.store_u s b))
        (State.store_cur b h.buf.2.1))
  · have hnum : UbxNumbers (s.u.pos.toNat + 1) s.u.len.toNat s.cur s.params.payloadCap := by
      unfold UbxNumbers; omega
    exact inv_of_ubx hstored hp hsync (ubxOk_of hnum hparams (toNat_succ _ (by omega)) rfl rfl)
  · exact inv_of_none hstored rfl rfl

/-- The RTCM part of the invariant in numbers: the count, the total, the length, the cursor and the capacity. -/
def RtcmNumbers (cnt total len cur cap : Nat) : Prop :=
  1 ≤ cnt ∧ (3 ≤ cnt → total = 6 + len ∧ cnt < total) ∧ cur = min cnt cap

theorem rtcmOk_of {t : State} {cnt total len cur : Nat} {p : Params} (h : RtcmNumbers cnt total len cur p.payloadCap)
    (hparams : t.params = p) (hcnt : t.r.cnt.toNat = cnt) (htotal : t.r.total.toNat = total)
    (hlen : t.r.len.toNat = len) (hcur : t.cur = cur) (hread : t.buf.read 0 = some 0xD3) : RtcmOk t := by
  subst hcnt htotal hlen hcur hparams
  obtain ⟨hone, htotal, hcur⟩ := h
  exact fun _ => ⟨hone, htotal, hcur, hread⟩

theorem inv_after_rtcm {s : State} (h : Inv s) (hp : s.proto = .rtcm) {c : Context} (b : Byte)
    (hc : s.context = some c) : Inv (after (decode c b) s) := by
  have hstored := (stored_of_inv h).after (decode c b)
  have hparams := Steps.after_params (decode c b) s
  have hcap := (stored_of_inv h).payloadCap
  obtain ⟨hone, htotal, hcur, hread⟩ := h.rtcm hp
  have hlen : s.r.len.toNat < 1024 := s.r.len.isLt
  have hp' := (State.store_proto s b).trans hp
  have hsync' := (State.store_sync s b).trans (sync_of_active h hp nofun)
  have hcur' := State.store_cur b h.buf.2.1
  have hread' := (State.store_read_below b 0 (by omega)).trans hread
  rw [context_rtcm hp] at hc
  obtain ⟨rfl, hat⟩ | ⟨rfl, hat⟩ | ⟨rfl, hat⟩ := rtcmContext_cases hc
  · have hnum : RtcmNumbers 2 s.r.total.toNat (setRtcmLenHi s.r.len b).toNat (min (s.cur + 1) s.params.payloadCap)
        s.params.payloadCap := by unfold RtcmNumbers; omega
    exact inv_of_rtcm hstored hp' hsync' (rtcmOk_of hnum hparams rfl rfl rfl hcur' hread')
  · have hnum : RtcmNumbers 3 (rtcmTotal (setRtcmLenLo s.r.len b)).toNat (setRtcmLenLo s.r.len b).toNat
        (min (s.cur + 1) s.params.payloadCap) s.params.payloadCap := by
      have hlen' : (setRtcmLenLo s.r.len b).toNat < 1024 := (setRtcmLenLo s.r.len b).isLt
      rw [rtcmTotal_eq, BitVec.toNat_ofNat]
      unfold RtcmNumbers; omega
    exact inv_of_rtcm hstored hp' hsync' (rtcmOk_of hnum hparams rfl rfl rfl hcur' hread')
  · obtain ⟨htotal, hbelow⟩ := htotal hat
    by_cases hlast : s.r.cnt + 1 = s.r.total
    · rw [decode, after_rBody, if_pos hlast] at hstored ⊢
      exact inv_of_none hstored rfl rfl
    · have hcnt : (s.r.cnt + 1).toNat = s.r.cnt.toNat + 1 := toNat_succ _ (by omega)
      have hmore : (s.r.cnt + 1).toNat ≠ s.r.total.toNat := fun e => hlast (BitVec.eq_of_toNat_eq e)
      have hnum : RtcmNumbers (s.r.cnt.toNat + 1) s.r.total.toNat s.r.len.toNat (min (s.cur + 1) s.params.payloadCap)
          s.params.payloadCap := by unfold RtcmNumbers; omega
      rw [decode, after_rBody, if_neg hlast] at hstored hparams ⊢
      exact inv_of_rtcm hstored hp' hsync' (rtcmOk_of hnum hparams hcnt rfl rfl hcur' hread')

/-- The Unicore-binary part of the invariant in numbers: the count, the total, the length, the trailer,
the cursor and the capacity. -/
def UnibNumbers (cnt total mlen trailer cur cap : Nat) : Prop :=
  3 ≤ cnt ∧ (24 ≤ cnt → cnt < total ∧ total = 24 + mlen + trailer) ∧ cur = min cnt cap

/-- The buffer begins with the three sync bytes (43_unicore_framers.md R170). -/
def UnibSyncBytes (m : Memory) : Prop := m.read 0 = some 0xAA ∧ m.read 1 = some 0x44 ∧ m.read 2 = some 0xB5

theorem unibOk_of {t : State} {cnt total mlen cur : Nat} {p : Params}
    (h : UnibNumbers cnt total mlen p.unibTrailerLen cur p.payloadCap)
    (hparams : t.params = p) (hcnt : t.b.cnt.toNat = cnt) (htotal : t.b.total.toNat = total)
    (hmlen : t.b.mlen.toNat = mlen) (hcur : t.cur = cur) (hread : UnibSyncBytes t.buf) : UnibOk t := by
  subst hcnt htotal hmlen hcur hparams
  obtain ⟨hthree, htotal, hcur⟩ := h
  exact fun _ => ⟨hthree, htotal, hcur, hread⟩

/-- The total of a header, in numbers: it does not wrap (43_unicore_framers.md R173). -/
theorem unibTotal_toNat (mlen : Half) {trailer : Nat} (h : trailer ≤ 4) :
    (unibTotal mlen trailer).toNat = 24 + mlen.toNat + trailer := by
  have := mlen.isLt
  rw [unibTotal, BitVec.toNat_ofNat, Config.unibHdrLen]
  omega

/-- Completion keeps the invariant if a frame that goes on has it. -/
theorem inv_unibComplete {t : State} (h : Stored t) (hp : t.proto = .unicoreBinary) (hs : t.sync = .sIdle)
    (hmore : t.b.cnt.toNat ≠ t.b.total.toNat → UnibOk t) : Inv t.unibComplete := by
  unfold State.unibComplete
  split
  · exact inv_of_none ⟨h.params, h.toIdle.buf, h.nterm, h.aterm⟩ rfl rfl
  · rename_i hne
    exact inv_of_unib h hp hs (hmore fun e => hne (BitVec.eq_of_toNat_eq e))

theorem inv_after_unib {s : State} (h : Inv s) (hp : s.proto = .unicoreBinary) {c : Context} (b : Byte)
    (hc : s.context = some c) : Inv (after (decode c b) s) := by
  have hcap := (stored_of_inv h).payloadCap
  have htrailer := (stored_of_inv h).trailerLen
  have htake := (stored_of_inv h).unibTake b
  obtain ⟨hthree, htotal, hcur, hread0, hread1, hread2⟩ := h.unib hp
  have hp' := (State.unibTake_proto s b).trans hp
  have hsync' := (State.unibTake_sync s b).trans (sync_of_active h hp nofun)
  have hparams := State.unibTake_params s b
  have hcur' : (s.unibTake b).cur = min (s.cur + 1) s.params.payloadCap := State.store_cur b h.buf.2.1
  have hread : UnibSyncBytes (s.unibTake b).buf :=
    ⟨(State.store_read_below b 0 (by omega)).trans hread0, (State.store_read_below b 1 (by omega)).trans hread1,
      (State.store_read_below b 2 (by omega)).trans hread2⟩
  have hcnt (hlt : s.b.cnt.toNat + 1 < 131072) : (s.unibTake b).b.cnt.toNat = s.b.cnt.toNat + 1 := toNat_succ _ hlt
  have hmlen : s.b.mlen.toNat < 65536 := s.b.mlen.isLt
  rw [context_unib hp] at hc
  split at hc
  all_goals cases hc
  · by_cases hlast : s.b.cnt.toNat = 23
    · rw [decode, after_bHeader_of_last b s hlast]
      refine inv_unibComplete ⟨htake.params, htake.buf, htake.nterm, htake.aterm⟩ hp' hsync' fun hmore => ?_
      have hcnt24 : (s.unibTake b).unibReadHeader.b.cnt.toNat = 24 := (hcnt (by omega)).trans (by omega)
      have htotal' : (s.unibTake b).unibReadHeader.b.total.toNat =
          24 + (s.unibTake b).unibReadHeader.b.mlen.toNat + s.params.unibTrailerLen := by
        rw [← hparams]; exact unibTotal_toNat _ (hparams ▸ htrailer)
      have hnum : UnibNumbers 24 (24 + (s.unibTake b).unibReadHeader.b.mlen.toNat + s.params.unibTrailerLen)
          (s.unibTake b).unibReadHeader.b.mlen.toNat s.params.unibTrailerLen (min (s.cur + 1) s.params.payloadCap)
          s.params.payloadCap := by unfold UnibNumbers; omega
      exact unibOk_of hnum hparams hcnt24 htotal' rfl hcur' hread
    · rw [decode, after_bHeader_of_lt b s (by omega)]
      have hnum : UnibNumbers (s.b.cnt.toNat + 1) s.b.total.toNat s.b.mlen.toNat s.params.unibTrailerLen
          (min (s.cur + 1) s.params.payloadCap) s.params.payloadCap := by unfold UnibNumbers; omega
      exact inv_of_unib htake hp' hsync' (unibOk_of hnum hparams (hcnt (by omega)) rfl rfl hcur' hread)
  · obtain ⟨hbelow, htotal⟩ := htotal (by omega)
    refine inv_unibComplete htake hp' hsync' fun hmore => ?_
    have hmore : s.b.cnt.toNat + 1 ≠ s.b.total.toNat := hcnt (by omega) ▸ hmore
    have hnum : UnibNumbers (s.b.cnt.toNat + 1) s.b.total.toNat s.b.mlen.toNat s.params.unibTrailerLen
        (min (s.cur + 1) s.params.payloadCap) s.params.payloadCap := by unfold UnibNumbers; omega
    exact unibOk_of hnum hparams (hcnt (by omega)) rfl rfl hcur' hread

/-- The operation that a byte selects in a state with the invariant keeps it. -/
theorem inv_after {s : State} (h : Inv s) {c : Context} (b : Byte) (hc : s.context = some c) :
    Inv (after (decode c b) s) := by
  have hi := protoOf_decode b hc
  cases hp : s.proto <;> rw [hp] at hi
  case none => exact inv_after_idle h hp hi
  case nmea => exact inv_after_nmea h hp hi
  case unicore => exact inv_after_unicore h hp hi
  case ubx => exact inv_after_ubx h hp b hc
  case rtcm => exact inv_after_rtcm h hp b hc
  case unicoreBinary => exact inv_after_unib h hp b hc
  case invalid => exact absurd hp h.framer.1

/-- Settles O14: waiting and `init` keep the invariant, and so does the operation a byte selects. -/
theorem stepKeepsInvariant : Obligations.StepKeepsInvariant := by
  intro s t h hstep
  obtain ⟨-, rfl⟩ | ⟨rest, -, rfl⟩ | ⟨b, rest, c, -, hc, rfl⟩ := step_cases hstep
  · exact inv_clearPorts h
  · exact inv_init (s := { s with input := rest }) h.params
  · exact inv_after (inv_consume h rest) b hc

end Sys2Proof.Invariant

/-! What is not live is never observable (10_state.md R19, R21): an operation reads the live sub-state and
the written part of the buffers alone, so two states alike there stay alike. -/

namespace Sys2Proof.Unobservable

open Sys2Proof.Machine Sys2Proof.Contexts Sys2Proof.Invariant

/-! ## Buffers alike below a cursor -/

theorem sameBelow_zero (m m' : Memory) : SameBelow m m' 0 := fun _ h => absurd h (Nat.not_lt_zero _)

theorem sameBelow_byteAt {m m' : Memory} {count i : Nat} (h : SameBelow m m' count) (name : BufferName)
    (hi : i < count) : m.byteAt name i = m'.byteAt name i :=
  Memory.byteAt_congr name (h i hi)

theorem sameBelow_bytes {m m' : Memory} {count : Nat} (h : SameBelow m m' count) (name : BufferName)
    {start n : Nat} (hn : start + n ≤ count) : m.bytes name start n = m'.bytes name start n :=
  Memory.bytes_congr name start n fun _ hk => h _ (by omega)

theorem sameBelow_write {m m' : Memory} {count : Nat} (h : SameBelow m m' count) (v : Byte) :
    SameBelow (m.write count v) (m'.write count v) (count + 1) := by
  intro i hi
  rw [Memory.read_write, Memory.read_write]
  split
  · rfl
  · exact h i (by omega)

/-- Two term buffers alike: the same index, the same characters below it. -/
def SameTerm (t t' : TermBuf) : Prop := t.tidx = t'.tidx ∧ SameBelow t.term t'.term t.tidx

theorem SameTerm.append {t t' : TermBuf} (h : SameTerm t t') (cap : Nat) (v : Byte) :
    SameTerm (t.append cap v) (t'.append cap v) := by
  obtain ⟨hidx, hbelow⟩ := h
  unfold TermBuf.append
  rw [← hidx]
  split
  · exact ⟨rfl, sameBelow_write hbelow v⟩
  · exact ⟨hidx, hbelow⟩

theorem SameTerm.text {t t' : TermBuf} (h : SameTerm t t') (name : BufferName) : t.text name = t'.text name := by
  obtain ⟨hidx, hbelow⟩ := h
  rw [TermBuf.text, TermBuf.text, ← hidx]
  exact sameBelow_bytes hbelow name (by omega)

theorem SameTerm.textCkOk {t t' : TermBuf} (h : SameTerm t t') (name : BufferName) (ck : Byte) (star : Bool) :
    textCkOk t name ck star = textCkOk t' name ck star := by
  obtain ⟨hidx, hbelow⟩ := h
  unfold Machine.textCkOk
  rw [← hidx]
  by_cases h2 : t.tidx = 2
  · rw [sameBelow_byteAt hbelow name (by omega : 0 < t.tidx), sameBelow_byteAt hbelow name (by omega : 1 < t.tidx)]
  · have hne : (t.tidx == 2) = false := beq_false_of_ne h2
    rw [hne, Bool.and_false, Bool.false_and, Bool.false_and]

/-! ## States alike -/

/-- What two states alike share whichever protocol is active. -/
structure SameShell (s t : State) : Prop where
  params : s.params = t.params
  proto : s.proto = t.proto
  sync : s.sync = t.sync
  cur : s.cur = t.cur
  buf : SameBelow s.buf t.buf s.cur
  evt : s.evt = t.evt
  termOut : s.termOut = t.termOut
  ack : s.ack = t.ack
  input : s.input = t.input

theorem SameShell.of_live {s t : State} (h : SameLive s t) : SameShell s t := { h with }

theorem SameShell.frame {s t : State} (h : SameShell s t) : s.frame = t.frame := by
  rw [State.frame, State.frame, ← h.cur]
  exact sameBelow_bytes h.buf .payload (by omega)

theorem SameShell.bufByte {s t : State} (h : SameShell s t) {i : Nat} (hi : i < s.cur) : s.bufByte i = t.bufByte i :=
  sameBelow_byteAt h.buf .payload hi

theorem SameShell.toIdle {s t : State} (h : SameShell s t) : SameShell s.toIdle t.toIdle :=
  { h with proto := rfl, sync := rfl, cur := rfl, buf := sameBelow_zero _ _ }

theorem SameShell.clear {s t : State} (h : SameShell s t) : SameShell s.clear t.clear :=
  { h with cur := rfl, buf := sameBelow_zero _ _ }

theorem SameShell.store {s t : State} (h : SameShell s t) (v : Byte) : SameShell (s.store v) (t.store v) := by
  unfold State.store
  rw [← h.cur, ← h.params]
  split
  · exact { h with params := rfl, cur := rfl, buf := sameBelow_write h.buf v }
  · exact h

theorem SameShell.emitEvt {s t : State} (h : SameShell s t) {p p' : Proto} {m m' : Msg} {f f' : List Byte}
    (hp : p = p') (hm : m = m') (hf : f = f') : SameShell (s.emitEvt p m f) (t.emitEvt p' m' f') := by
  subst hp hm hf
  exact { h with evt := rfl }

theorem SameShell.emitTerm {s t : State} (h : SameShell s t) {x x' : TermItem} (hx : x = x') :
    SameShell (s.emitTerm x) (t.emitTerm x') := by
  subst hx
  exact { h with termOut := rfl }

theorem SameShell.emitAck {s t : State} (h : SameShell s t) {x x' : AckItem} (hx : x = x') :
    SameShell (s.emitAck x) (t.emitAck x') := by
  subst hx
  exact { h with ack := rfl }

/-- Two NMEA sub-states alike. -/
def SameNmea (n n' : NmeaRegs) : Prop :=
  SameTerm n.toTermBuf n'.toTermBuf ∧ n.tnum = n'.tnum ∧ n.ck = n'.ck ∧ n.star = n'.star ∧ n.stype = n'.stype

theorem sameNmea_iff (n n' : NmeaRegs) : SameNmea n n' ↔
    SameBelow n.term n'.term n.tidx ∧ { n with term := [] } = { n' with term := [] } := by
  simp only [SameNmea, SameTerm, NmeaRegs.mk.injEq, TermBuf.mk.injEq, true_and]
  tauto

/-- Two Unicore-ASCII sub-states alike. -/
def SameUni (a a' : UniRegs) : Prop :=
  SameTerm a.toTermBuf a'.toTermBuf ∧ a.tnum = a'.tnum ∧ a.ck = a'.ck ∧ a.star = a'.star ∧ a.colon = a'.colon ∧
    a.terms = a'.terms

theorem sameUni_iff (a a' : UniRegs) : SameUni a a' ↔
    SameBelow a.term a'.term a.tidx ∧ { a with term := [] } = { a' with term := [] } := by
  simp only [SameUni, SameTerm, UniRegs.mk.injEq, TermBuf.mk.injEq, true_and]
  tauto

/-- Two RTCM sub-states alike: the type is not read before it is written. -/
def SameRtcm (r r' : RtcmRegs) : Prop := r.len = r'.len ∧ r.cnt = r'.cnt ∧ r.total = r'.total

theorem sameRtcm_iff (r r' : RtcmRegs) : SameRtcm r r' ↔ { r with mtype := 0 } = { r' with mtype := 0 } := by
  simp only [SameRtcm, RtcmRegs.mk.injEq, true_and]

/-- The live sub-states of two states are alike. -/
def LiveAlike (s t : State) : Prop :=
  match s.proto with
  | .nmea => SameNmea s.n t.n
  | .unicore => SameUni s.a t.a
  | .ubx => s.u = t.u
  | .rtcm => SameRtcm s.r t.r
  | .unicoreBinary => s.b = t.b
  | .none | .invalid => True

theorem sameLive_of {s t : State} (h : SameShell s t) (hlive : LiveAlike s t) : SameLive s t :=
  { h with
    nmea := fun e => by rw [LiveAlike, e] at hlive; exact (sameNmea_iff _ _).mp hlive
    uni := fun e => by rw [LiveAlike, e] at hlive; exact (sameUni_iff _ _).mp hlive
    ubx := fun e => by rw [LiveAlike, e] at hlive; exact hlive
    rtcm := fun e => by rw [LiveAlike, e] at hlive; exact (sameRtcm_iff _ _).mp hlive
    unib := fun e => by rw [LiveAlike, e] at hlive; exact hlive }

section
variable {s t : State} (h : SameShell s t)
include h

theorem sameLive_of_none (hp : s.proto = .none) : SameLive s t :=
  sameLive_of h (by rw [LiveAlike, hp]; trivial)

theorem sameLive_of_nmea (hp : s.proto = .nmea) (hn : SameNmea s.n t.n) : SameLive s t :=
  sameLive_of h (by rw [LiveAlike, hp]; exact hn)

theorem sameLive_of_unicore (hp : s.proto = .unicore) (ha : SameUni s.a t.a) : SameLive s t :=
  sameLive_of h (by rw [LiveAlike, hp]; exact ha)

theorem sameLive_of_ubx (hp : s.proto = .ubx) (hu : s.u = t.u) : SameLive s t :=
  sameLive_of h (by rw [LiveAlike, hp]; exact hu)

theorem sameLive_of_rtcm (hp : s.proto = .rtcm) (hr : SameRtcm s.r t.r) : SameLive s t :=
  sameLive_of h (by rw [LiveAlike, hp]; exact hr)

theorem sameLive_of_unib (hp : s.proto = .unicoreBinary) (hb : s.b = t.b) : SameLive s t :=
  sameLive_of h (by rw [LiveAlike, hp]; exact hb)

end

/-- Two states alike stand in the same context (30_encoding.md R80). -/
theorem context_congr {s t : State} (h : SameLive s t) : s.context = t.context := by
  cases hp : s.proto <;> have hp' := h.proto.symm.trans hp
  case none => rw [context_none hp, context_none hp', h.sync]
  case nmea => rw [context_nmea hp, context_nmea hp']
  case unicore => rw [context_unicore hp, context_unicore hp']
  case ubx => rw [Ubx.context_of_ubx hp, Ubx.context_of_ubx hp', h.ubx hp]
  case rtcm =>
    obtain ⟨-, hcnt, -⟩ := (sameRtcm_iff _ _).mpr (h.rtcm hp)
    rw [context_rtcm hp, context_rtcm hp', hcnt]
  case unicoreBinary => rw [context_unib hp, context_unib hp', h.unib hp]
  case invalid => rw [context_invalid hp, context_invalid hp']

/-! ## The dispatcher -/

theorem sameLive_after_idle {s t : State} (h : SameShell s t) (hp : s.proto = .none) {i : Instr}
    (hi : protoOf (encode i).1 = .none) : SameLive (after i s) (after i t) := by
  cases i
  case dStartNmea held =>
    exact sameLive_of_nmea { h with proto := rfl, sync := rfl, cur := rfl, buf := sameBelow_zero _ _ } rfl
      ⟨⟨rfl, sameBelow_zero _ _⟩, rfl, rfl, rfl, rfl⟩
  case dUbxSync1 held | dUniSync1 held | dDiscard held b => exact sameLive_of_none { h with sync := rfl } hp
  case dUniSync2 => exact sameLive_of_none { h with sync := rfl } hp
  case dUbxConfirm =>
    exact sameLive_of_ubx { h with proto := rfl, sync := rfl, cur := rfl, buf := sameBelow_zero _ _ } rfl rfl
  case dUnibConfirm =>
    have hprimed := ((h.clear.store 0xAA).store 0x44).store 0xB5
    exact sameLive_of_unib { hprimed with proto := rfl, sync := rfl } rfl rfl
  case dStartRtcm held =>
    have hprimed := h.clear.store 0xD3
    exact sameLive_of_rtcm { hprimed with proto := rfl, sync := rfl } rfl ⟨rfl, rfl, rfl⟩
  all_goals cases hi

/-! ## The text protocols -/

section
variable {s t : State} (h : SameShell s t)

theorem uniTermItem_congr (ha : SameUni s.a t.a) : s.uniTermItem = t.uniTermItem := by
  obtain ⟨hterm, htnum, -⟩ := ha
  rw [State.uniTermItem, State.uniTermItem, htnum, hterm.text .uniTerm]

/-- `A.COMMA` keeps Unicore states alike, also as the second half of the hand-off. -/
theorem sameUni_uniComma (ha : SameUni s.a t.a) : SameUni s.uniComma.a t.uniComma.a := by
  have hitem := uniTermItem_congr ha
  obtain ⟨-, htnum, hck, hstar, -, hterms⟩ := ha
  exact ⟨⟨rfl, sameBelow_zero _ _⟩, congrArg satInc htnum,
    congrArg₂ (fun ck star => if !star then ck ^^^ 0x2C else ck) hck hstar, hstar, rfl,
    congrArg₂ (fun terms item => terms ++ [item]) hterms hitem⟩

/-- `A.STAR` keeps Unicore states alike, also as the second half of the hand-off. -/
theorem sameUni_uniStar (ha : SameUni s.a t.a) : SameUni s.uniStar.a t.uniStar.a := by
  have hitem := uniTermItem_congr ha
  obtain ⟨-, htnum, hck, -, -, hterms⟩ := ha
  exact ⟨⟨rfl, sameBelow_zero _ _⟩, congrArg satInc htnum, hck, rfl, rfl,
    congrArg₂ (fun terms item => terms ++ [item]) hterms hitem⟩

include h

theorem SameShell.uniComma (ha : SameUni s.a t.a) : SameShell s.uniComma t.uniComma :=
  { h with termOut := congrArg some (uniTermItem_congr ha) }

theorem SameShell.uniStar (ha : SameUni s.a t.a) : SameShell s.uniStar t.uniStar :=
  { h with termOut := congrArg some (uniTermItem_congr ha) }

theorem sameLive_after_unicore (ha : SameUni s.a t.a) (hp : s.proto = .unicore)
    {i : Instr} (hi : protoOf (encode i).1 = .unicore) : SameLive (after i s) (after i t) := by
  obtain ⟨hterm, htnum, hck, hstar, hcolon, hterms⟩ := ha
  have hfold (v : Byte) : (if !s.a.star && !s.a.colon then s.a.ck ^^^ v else s.a.ck) =
      if !t.a.star && !t.a.colon then t.a.ck ^^^ v else t.a.ck := by rw [hck, hstar, hcolon]
  have happend (v : Byte) : SameTerm (s.a.toTermBuf.append s.params.uniTermCap v)
      (t.a.toTermBuf.append t.params.uniTermCap v) := h.params ▸ hterm.append _ v
  cases i
  case aChar b =>
    exact sameLive_of_unicore { h with } hp ⟨happend b, htnum, hfold b, hstar, hcolon, hterms⟩
  case aColon =>
    exact sameLive_of_unicore { h with } hp ⟨happend 0x3A, htnum, hfold 0x3A, hstar, rfl, hterms⟩
  case aComma =>
    have ha : SameUni s.a t.a := ⟨hterm, htnum, hck, hstar, hcolon, hterms⟩
    exact sameLive_of_unicore (h.uniComma ha) hp (sameUni_uniComma ha)
  case aStar =>
    have ha : SameUni s.a t.a := ⟨hterm, htnum, hck, hstar, hcolon, hterms⟩
    exact sameLive_of_unicore (h.uniStar ha) hp (sameUni_uniStar ha)
  case aCr =>
    have hok : s.uniCkOk = t.uniCkOk := by
      rw [State.uniCkOk, State.uniCkOk, hterm.textCkOk, hck, hstar]
    rw [after_aCr, after_aCr, ← hok]
    refine sameLive_of_none (SameShell.toIdle ?_) rfl
    split
    · exact h.emitEvt rfl (by rw [hterms]) rfl
    · exact h
  all_goals cases hi

omit h in
/-- The hand-off copies the seven characters that both states hold. -/
theorem sameUni_handOff (hn : SameNmea s.n t.n) (hkept : KeptCommand s) : SameUni s.handOff.a t.handOff.a := by
  obtain ⟨⟨-, hbelow⟩, -, hck, -, -⟩ := hn
  obtain ⟨-, hidx, -⟩ := hkept
  refine ⟨⟨rfl, fun i hi => ?_⟩, rfl, hck, rfl, rfl, rfl⟩
  have hi : i < 7 := hi
  show (copyTerm s.n.term s.a.term 7).read i = (copyTerm t.n.term t.a.term 7).read i
  rw [copyTerm_read, copyTerm_read, if_pos hi, if_pos hi, sameBelow_byteAt hbelow .nmeaTerm (by omega)]

theorem SameShell.handOff : SameShell s.handOff t.handOff :=
  { h with proto := rfl, cur := rfl, buf := sameBelow_zero _ _ }

omit h in
theorem keptCommand_congr (hn : SameNmea s.n t.n) : KeptCommand s ↔ KeptCommand t := by
  obtain ⟨⟨hidx, hbelow⟩, htnum, -, -, -⟩ := hn
  rw [KeptCommand, KeptCommand, ← hidx, ← htnum]
  refine and_congr_right fun _ => and_congr_right fun h7 => ?_
  rw [sameBelow_bytes hbelow .nmeaTerm (by omega)]

omit h in
theorem classify_congr (hn : SameNmea s.n t.n) : s.classify = t.classify := by
  obtain ⟨⟨hidx, hbelow⟩, -⟩ := hn
  rw [State.classify, State.classify, ← hidx]
  split
  · rw [sameBelow_bytes hbelow .nmeaTerm (by omega)]
  · rfl

theorem SameShell.closeNmea (hn : SameNmea s.n t.n) : SameShell s.closeNmea t.closeNmea := by
  obtain ⟨hterm, htnum, -⟩ := hn
  refine { h with termOut := ?_ }
  show some (TermItem.mk .nmea s.n.tnum (s.n.toTermBuf.text .nmeaTerm)) =
    some (TermItem.mk .nmea t.n.tnum (t.n.toTermBuf.text .nmeaTerm))
  rw [htnum, hterm.text .nmeaTerm]

theorem sameLive_after_nmea (hn : SameNmea s.n t.n) (hp : s.proto = .nmea)
    {i : Instr} (hi : protoOf (encode i).1 = .nmea) : SameLive (after i s) (after i t) := by
  have hclosed := h.closeNmea hn
  obtain ⟨hterm, htnum, hck, hstar, hstype⟩ := id hn
  have htype : (if s.n.tnum = 0 then s.classify else s.n.stype) = if t.n.tnum = 0 then t.classify else t.n.stype := by
    rw [htnum, hstype, classify_congr hn]
  have hfold (v : Byte) : (if s.n.star then s.n.ck else s.n.ck ^^^ v) = if t.n.star then t.n.ck else t.n.ck ^^^ v := by
    rw [hck, hstar]
  cases i
  case nChar b =>
    have happend : SameTerm (s.n.toTermBuf.append s.params.nmeaTermCap b)
        (t.n.toTermBuf.append t.params.nmeaTermCap b) := h.params ▸ hterm.append _ b
    exact sameLive_of_nmea { h with } hp ⟨happend, htnum, hfold b, hstar, hstype⟩
  case nComma =>
    by_cases hkept : KeptCommand s
    · rw [Nmea.after_nComma_handOff hkept, Nmea.after_nComma_handOff ((keptCommand_congr hn).mp hkept)]
      have ha := sameUni_handOff hn hkept
      exact sameLive_of_unicore (h.handOff.uniComma ha) rfl (sameUni_uniComma ha)
    · rw [Nmea.after_nComma_stays hkept, Nmea.after_nComma_stays (mt (keptCommand_congr hn).mpr hkept)]
      exact sameLive_of_nmea { hclosed with } hp
        ⟨⟨rfl, sameBelow_zero _ _⟩, congrArg satInc htnum, hfold 0x2C, hstar, htype⟩
  case nStar =>
    by_cases hkept : KeptCommand s
    · rw [Nmea.after_nStar_handOff hkept, Nmea.after_nStar_handOff ((keptCommand_congr hn).mp hkept)]
      have ha := sameUni_handOff hn hkept
      exact sameLive_of_unicore (h.handOff.uniStar ha) rfl (sameUni_uniStar ha)
    · rw [Nmea.after_nStar_stays hkept, Nmea.after_nStar_stays (mt (keptCommand_congr hn).mpr hkept)]
      exact sameLive_of_nmea { hclosed with } hp
        ⟨⟨rfl, sameBelow_zero _ _⟩, congrArg satInc htnum, hck, rfl, htype⟩
  case nCr =>
    have hok : s.nmeaCkOk = t.nmeaCkOk := by
      rw [State.nmeaCkOk, State.nmeaCkOk, hterm.textCkOk, hck, hstar]
    rw [after_nCr, after_nCr, ← hok]
    refine sameLive_of_none (SameShell.toIdle ?_) rfl
    split
    · exact h.emitEvt rfl (by rw [hstype]) rfl
    · exact h
  all_goals cases hi

/-! ## The binary protocols -/

/-- The ACK item is read from two kept bytes (42_ubx.md R151, R152). -/
theorem SameShell.ubxReport (hu : s.u = t.u) : SameShell s.ubxReport t.ubxReport := by
  have hack : s.ackApplies = t.ackApplies := by rw [State.ackApplies, State.ackApplies, hu, h.cur]
  have htold := h.emitEvt (p := .ubx) (m := .ubx s.u.cls s.u.id (ubxKind s.u.cls s.u.id) s.u.len)
    (m' := .ubx t.u.cls t.u.id (ubxKind t.u.cls t.u.id) t.u.len) rfl (by rw [hu]) h.frame
  unfold State.ubxReport
  rw [← hack]
  split
  · obtain ⟨-, -, htwo⟩ := (ackApplies_iff s).mp ‹_›
    refine htold.emitAck ?_
    rw [State.ackItem, State.ackItem, hu, h.bufByte (by omega : 0 < s.cur), h.bufByte (by omega : 1 < s.cur)]
  · exact htold

theorem sameLive_after_ubx (hu : s.u = t.u) (hp : s.proto = .ubx) {i : Instr}
    (hi : protoOf (encode i).1 = .ubx) : SameLive (after i s) (after i t) := by
  cases i
  case uClass b | uId b | uLenLo b | uLenHi b | uCkA b =>
    exact sameLive_of_ubx { h with } hp (by simp [after_uClass, after_uId, after_uLenLo, after_uLenHi, after_uCkA, hu])
  case uPayload b =>
    have hstore := h.store b
    exact sameLive_of_ubx { hstore with } ((State.store_proto s b).trans hp) (by simp [after_uPayload, hu])
  case uCkB b =>
    have hreceived : SameShell { s with u := { s.u with rxB := b } } { t with u := { t.u with rxB := b } } := { h with }
    have hok : State.ubxCkOk { s with u := { s.u with rxB := b } } = State.ubxCkOk { t with u := { t.u with rxB := b } } := by
      rw [hu]; rfl
    rw [after_uCkB, after_uCkB, ← hok]
    refine sameLive_of_none (SameShell.toIdle ?_) rfl
    split
    · exact hreceived.ubxReport (by rw [hu])
    · exact hreceived
  all_goals cases hi

/-- The type is read from bytes 3 and 4, which the frame holds when it completes (44_rtcm3.md R186). -/
theorem SameShell.rtcmComplete (hr : SameRtcm s.r t.r) (hcur : 5 ≤ s.cur) : SameShell s.rtcmComplete t.rtcmComplete := by
  obtain ⟨hlen, -, htotal⟩ := hr
  have htype : rtcmType (s.bufByte 3) (s.bufByte 4) = rtcmType (t.bufByte 3) (t.bufByte 4) := by
    rw [h.bufByte (by omega : 3 < s.cur), h.bufByte (by omega : 4 < s.cur)]
  have htyped : SameShell { s with r := { s.r with mtype := rtcmType (s.bufByte 3) (s.bufByte 4) } }
      { t with r := { t.r with mtype := rtcmType (t.bufByte 3) (t.bufByte 4) } } := { h with }
  exact (htyped.emitEvt rfl (by rw [htype, hlen, htotal]) htyped.frame).toIdle

theorem SameShell.rtcmTake (b : Byte) {r r' : RtcmRegs} :
    SameShell { s.store b with r := r } { t.store b with r := r' } :=
  { h.store b with }

theorem sameLive_after_rtcm (hinv : Inv s) (hr : SameRtcm s.r t.r) (hp : s.proto = .rtcm) {c : Context} (b : Byte)
    (hc : s.context = some c) : SameLive (after (decode c b) s) (after (decode c b) t) := by
  have hp' := (State.store_proto s b).trans hp
  obtain ⟨hlen, hcnt, htotal⟩ := id hr
  rw [context_rtcm hp] at hc
  obtain ⟨rfl, hat⟩ | ⟨rfl, hat⟩ | ⟨rfl, hat⟩ := rtcmContext_cases hc
  · exact sameLive_of_rtcm (h.rtcmTake b) hp' ⟨congrArg (setRtcmLenHi · b) hlen, rfl, htotal⟩
  · exact sameLive_of_rtcm (h.rtcmTake b) hp'
      ⟨congrArg (setRtcmLenLo · b) hlen, rfl, congrArg (fun l => rtcmTotal (setRtcmLenLo l b)) hlen⟩
  · have hr' : SameRtcm { s.r with cnt := s.r.cnt + 1 } { t.r with cnt := s.r.cnt + 1 } := ⟨hlen, rfl, htotal⟩
    rw [decode, after_rBody, after_rBody, ← hcnt, ← htotal]
    split
    · rename_i hlast
      have hcur : 5 ≤ (s.store b).cur := by
        obtain ⟨-, hlaw, hcur, -⟩ := hinv.rtcm hp
        obtain ⟨htotal, hbelow⟩ := hlaw hat
        have hcap := (stored_of_inv hinv).payloadCap
        have hlen' : s.r.len.toNat < 1024 := s.r.len.isLt
        have hcnt' : (s.r.cnt + 1).toNat = s.r.cnt.toNat + 1 := toNat_succ _ (by omega)
        rw [hlast] at hcnt'
        rw [State.store_cur b hinv.buf.2.1]
        omega
      exact sameLive_of_none ((h.rtcmTake b).rtcmComplete hr' hcur) rfl
    · exact sameLive_of_rtcm (h.rtcmTake b) hp' hr'

theorem SameShell.unibTake (b : Byte) : SameShell (s.unibTake b) (t.unibTake b) := { h.store b with }

theorem sameLive_unibComplete (hb : s.b = t.b) (hp : s.proto = .unicoreBinary) :
    SameLive s.unibComplete t.unibComplete := by
  unfold State.unibComplete
  rw [← hb]
  split
  · exact sameLive_of_none (h.emitEvt rfl rfl h.frame).toIdle rfl
  · exact sameLive_of_unib h hp hb

/-- The header fields are read below the cursor (43_unicore_framers.md R173). -/
theorem unibReadHeader_congr (hb : s.b = t.b) (hlen : s.params.unibLenOff + 1 < s.cur)
    (hid : s.params.unibIdOff + 1 < s.cur) : s.unibReadHeader.b = t.unibReadHeader.b := by
  have hread {i : Nat} (hi : i + 1 < s.cur) : s.bufByte i = t.bufByte i ∧ s.bufByte (i + 1) = t.bufByte (i + 1) :=
    ⟨h.bufByte (by omega), h.bufByte hi⟩
  obtain ⟨hlen0, hlen1⟩ := hread hlen
  obtain ⟨hid0, hid1⟩ := hread hid
  simp only [State.unibReadHeader, ← h.params, hlen0, hlen1, hid0, hid1, hb]

theorem sameLive_after_unib (hinv : Inv s) (hb : s.b = t.b) (hp : s.proto = .unicoreBinary) {c : Context} (b : Byte)
    (hc : s.context = some c) : SameLive (after (decode c b) s) (after (decode c b) t) := by
  have hp' := (State.unibTake_proto s b).trans hp
  have hb' : (s.unibTake b).b = (t.unibTake b).b := congrArg (fun x => { x with cnt := x.cnt + 1 }) hb
  rw [context_unib hp] at hc
  split at hc
  all_goals cases hc
  · by_cases hlast : s.b.cnt.toNat = 23
    · rw [decode, after_bHeader_of_last b s hlast, after_bHeader_of_last b t (hb ▸ hlast)]
      have hcap := (stored_of_inv hinv).payloadCap
      obtain ⟨hlenOff, hidOff⟩ := (stored_of_inv hinv).headerOffsets
      have hcur : (s.unibTake b).cur = 24 := by
        obtain ⟨-, -, hcur, -⟩ := hinv.unib hp
        refine (State.store_cur b hinv.buf.2.1).trans ?_
        omega
      have hheader := unibReadHeader_congr (h.unibTake b) hb' (by rw [hcur, State.unibTake_params]; exact hlenOff)
        (by rw [hcur, State.unibTake_params]; exact hidOff)
      exact sameLive_unibComplete { h.unibTake b with } hheader hp'
    · rw [decode, after_bHeader_of_lt b s (by omega), after_bHeader_of_lt b t (by rw [← hb]; omega)]
      exact sameLive_of_unib (h.unibTake b) hp' hb'
  · exact sameLive_unibComplete (h.unibTake b) hb' hp'

end

/-! ## The step -/

/-- The operation that a byte selects treats states alike. -/
theorem sameLive_after {s t : State} (hinv : Inv s) (h : SameLive s t) {c : Context} (b : Byte)
    (hc : s.context = some c) : SameLive (after (decode c b) s) (after (decode c b) t) := by
  have hshell := SameShell.of_live h
  have hi := protoOf_decode b hc
  cases hp : s.proto <;> rw [hp] at hi
  case none => exact sameLive_after_idle hshell hp hi
  case nmea => exact sameLive_after_nmea hshell ((sameNmea_iff _ _).mpr (h.nmea hp)) hp hi
  case unicore => exact sameLive_after_unicore hshell ((sameUni_iff _ _).mpr (h.uni hp)) hp hi
  case ubx => exact sameLive_after_ubx hshell (h.ubx hp) hp hi
  case rtcm => exact sameLive_after_rtcm hshell hinv ((sameRtcm_iff _ _).mpr (h.rtcm hp)) hp b hc
  case unicoreBinary => exact sameLive_after_unib hshell hinv (h.unib hp) hp b hc
  case invalid => exact absurd hp hinv.framer.1

theorem sameLive_consume {s t : State} (h : SameLive s t) (rest : List Stimulus) :
    SameLive (s.consume rest) (t.consume rest) :=
  { h with evt := rfl, termOut := rfl, ack := rfl, input := rfl }

theorem sameLive_clearPorts {s t : State} (h : SameLive s t) : SameLive s.clearPorts t.clearPorts :=
  { h with evt := rfl, termOut := rfl, ack := rfl }

/-- Settles O44: what the second state waits for, performs or decodes is what the first does. -/
theorem deadStateIsUnobservable : Obligations.DeadStateIsUnobservable := by
  intro s s' t hinv h hstep
  obtain ⟨hi, rfl⟩ | ⟨rest, hi, rfl⟩ | ⟨b, rest, c, hi, hc, rfl⟩ := step_cases hstep
  · exact ⟨_, Steps.step_empty (h.input ▸ hi), sameLive_clearPorts h⟩
  · refine ⟨_, Steps.step_init (h.input ▸ hi), sameLive_of_none ?_ rfl⟩
    exact ⟨h.params, rfl, rfl, rfl, sameBelow_zero _ _, rfl, rfl, rfl, rfl⟩
  · exact ⟨_, step_byte (h.input ▸ hi) (context_congr h ▸ hc),
      sameLive_after (inv_consume hinv rest) (sameLive_consume h rest) b hc⟩

end Sys2Proof.Unobservable

/-! The operations of the two text framers as their statements read them (41_nmea.md, 43_unicore_framers.md
part 1): one character kept or truncated, a term closed, a sentence reported. -/

namespace Sys2Proof.Text

open Sys2Proof.Machine

/-! ## Conditions and term buffers -/

/-- A condition that is met where a proposition fails (60_exceptions.md R201). -/
theorem condIf_not_decide (p : Prop) [Decidable p] (c : Condition) :
    condIf (!decide p) c = if p then [] else [c] := by
  by_cases h : p
  · rw [decide_eq_true h, if_pos h]; rfl
  · rw [decide_eq_false h, if_neg h]; rfl

theorem condIf_not (ok : Bool) (c : Condition) : condIf (!ok) c = if ok = true then [] else [c] := by
  cases ok <;> rfl

/-- `tappend` with room writes at the index and advances it (20_memory.md R46). -/
theorem append_of_lt {t : TermBuf} {cap : Nat} (v : Byte) (h : t.tidx < cap) :
    t.append cap v = { term := t.term.write t.tidx v, tidx := t.tidx + 1 } := by
  rw [TermBuf.append, if_pos h]

/-- One byte of a range read from 0. -/
theorem bytes_getD (m : Memory) (name : BufferName) {i count : Nat} (h : i < count) :
    (m.bytes name 0 count).getD i 0 = m.byteAt name i := by
  simp [Memory.bytes, h]

/-- The copy of the hand-off reads as the source does (41_nmea.md R127). -/
theorem copyTerm_bytes (n a : Memory) (name : BufferName) (count : Nat) :
    (copyTerm n a count).bytes name 0 count = n.bytes .nmeaTerm 0 count := by
  refine List.map_congr_left fun i hi => ?_
  have hi : i < count := List.mem_range.mp hi
  have hread : (copyTerm n a count).read (0 + i) = some (n.byteAt .nmeaTerm (0 + i)) := by
    rw [copyTerm_read, if_pos (by omega)]
  exact Memory.byteAt_of_read name hread

/-! ## NMEA -/

theorem after_nChar_room {s : State} (b : Byte) (h : s.n.tidx < s.params.nmeaTermCap) :
    after (.nChar b) s = { s with n := { s.n with
      ck := if s.n.star then s.n.ck else s.n.ck ^^^ b
      term := s.n.term.write s.n.tidx b, tidx := s.n.tidx + 1 } } := by
  rw [after_nChar, State.tappendN, State.foldN, append_of_lt b (by exact h)]

theorem after_nChar_full {s : State} (b : Byte) (h : s.params.nmeaTermCap ≤ s.n.tidx) :
    after (.nChar b) s = { s with n := { s.n with ck := if s.n.star then s.n.ck else s.n.ck ^^^ b } } := by
  rw [after_nChar, State.tappendN, State.foldN, TermBuf.append_of_full b (Nat.not_lt.mpr h)]

/-- Settles O22: the fold, then `tappend` with and without room. -/
theorem nmeaCharFoldsAndAppends : Obligations.NmeaCharFoldsAndAppends := by
  refine fun b s => ⟨fun hroom => ⟨s.n.term.write s.n.tidx b, ?_, Memory.read_write _ _ _, ?_⟩, fun hfull => ⟨?_, ?_⟩⟩
  · rw [exec_after, after_nChar_room b hroom]
  · exact (condIf_not_decide _ _).trans (if_pos hroom)
  · rw [exec_after, after_nChar_full b hfull]
  · exact (condIf_not_decide _ _).trans (if_neg (Nat.not_lt.mpr hfull))

/-- The sentence type after a delimiter (41_nmea.md R125). -/
def typeAfter (s : State) : SentenceType := if s.n.tnum = 0 then s.classify else s.n.stype

theorem typeAfter_later {s : State} (h : s.n.tnum ≠ 0) : typeAfter s = s.n.stype := if_neg h

theorem typeAfter_short {s : State} (h : s.n.tnum = 0) (hshort : s.n.tidx < 5) : typeAfter s = .none := by
  rw [typeAfter, if_pos h, State.classify, if_neg (by omega)]

theorem typeAfter_first {s : State} (h : s.n.tnum = 0) (hfive : 5 ≤ s.n.tidx) :
    typeAfter s = sentenceType (s.n.term.bytes .nmeaTerm 2 3) := by
  rw [typeAfter, if_pos h, State.classify, if_pos hfive]

/-- Settles O23: without the hand-off a delimiter closes the term, folds (the comma) or sets the flag (the
star) and opens the next term. -/
theorem nmeaDelimiterClosesTerm : Obligations.NmeaDelimiterClosesTerm := by
  refine fun s hkept => ⟨typeAfter s, ?comma, ?star, typeAfter_later, typeAfter_short, fun hzero hfive => ?first⟩
  case comma => rw [exec_after, Nmea.after_nComma_stays hkept, ← satInc_eq]; rfl
  case star => rw [exec_after, Nmea.after_nStar_stays hkept, ← satInc_eq]; rfl
  case first =>
    rw [typeAfter_first hzero hfive]
    refine ⟨fun h => ?_, fun h => ?_, fun h => ?_, fun h => ?_⟩
    · rw [h]; rfl
    · rw [h]; rfl
    · rw [h]; rfl
    · simp only [List.mem_cons, List.not_mem_nil, or_false, not_or] at h
      simp only [sentenceType, h, if_false]

/-- The TERM item of the hand-off carries the text `command` (41_nmea.md R127). -/
theorem handOff_item {s : State} (h : KeptCommand s) :
    s.handOff.uniTermItem = { proto := .unicore, tnum := 0, text := commandText } := by
  obtain ⟨-, -, htext⟩ := h
  exact congrArg (TermItem.mk .unicore 0) ((copyTerm_bytes s.n.term s.a.term .uniTerm 7).trans htext)

/-- Settles O24: the hand-off copies the kept `command`, then the delimiter acts as in Unicore. -/
theorem nmeaHandsOffToUnicore : Obligations.NmeaHandsOffToUnicore := by
  intro s hkept
  refine ⟨copyTerm s.n.term s.a.term 7, ?comma, ?star, fun i hi => ?copied, fun i hi => ?kept⟩
  case comma =>
    rw [exec_after, Nmea.after_nComma_handOff hkept, State.uniComma, State.closeUni, handOff_item hkept]
    rfl
  case star =>
    rw [exec_after, Nmea.after_nStar_handOff hkept, State.uniStar, State.closeUni, handOff_item hkept]
    rfl
  case copied =>
    obtain ⟨-, -, htext⟩ := hkept
    rw [copyTerm_read, if_pos hi, ← bytes_getD s.n.term .nmeaTerm hi, htext]
    rfl
  case kept => rw [copyTerm_read, if_neg (by omega)]

theorem nmeaCkOk_iff (s : State) :
    s.nmeaCkOk = true ↔ ReceivedMatches s.n.toTermBuf .nmeaTerm s.n.ck s.n.star := textCkOk_iff _ _ _ _

theorem uniCkOk_iff (s : State) :
    s.uniCkOk = true ↔ ReceivedMatches s.a.toTermBuf .uniTerm s.a.ck s.a.star := textCkOk_iff _ _ _ _

/-- Settles O25: the check decides between the event and the condition; `to_idle()` follows either way. -/
theorem nmeaCrReportsValidSentence : Obligations.NmeaCrReportsValidSentence := by
  intro s
  simp only [← nmeaCkOk_iff]
  refine ⟨fun hok => ⟨?_, (condIf_not _ _).trans (if_pos hok)⟩, fun hbad => ⟨?_, (condIf_not _ _).trans (if_neg hbad)⟩⟩
  · rw [exec_after, after_nCr, if_pos hok]; rfl
  · rw [exec_after, after_nCr, if_neg hbad]; rfl

/-- The three ranges of digits, compared as numbers (30_encoding.md R78). -/
theorem hexval_eq (c : Byte) : hexval c =
    if 0x30 ≤ c.toNat ∧ c.toNat ≤ 0x39 then some (c - BitVec.ofNat 8 0x30)
    else if 0x41 ≤ c.toNat ∧ c.toNat ≤ 0x46 then some (c - BitVec.ofNat 8 0x41 + 10)
    else if 0x61 ≤ c.toNat ∧ c.toNat ≤ 0x66 then some (c - BitVec.ofNat 8 0x61 + 10)
    else none := by
  simp only [hexval, BitVec.le_def]
  rfl

/-- Settles O26: the ranges do not overlap, and inside them the subtraction does not wrap. -/
theorem hexDigitValues : Obligations.HexDigitValues := by
  intro c
  have hc : c.toNat < 256 := c.isLt
  rw [hexval_eq]
  refine ⟨fun h0 h9 => ?_, fun hA hF => ?_, fun ha hf => ?_, fun hdigit hupper hlower => ?_⟩
  · rw [if_pos ⟨h0, h9⟩]
    simp; omega
  · rw [if_neg (by omega), if_pos ⟨hA, hF⟩]
    simp; omega
  · rw [if_neg (by omega), if_neg (by omega), if_pos ⟨ha, hf⟩]
    simp; omega
  · rw [if_neg hdigit, if_neg hupper, if_neg hlower]

/-! ## Unicore ASCII -/

theorem fold_condition (s : State) (v : Byte) : (if !s.a.star && !s.a.colon then s.a.ck ^^^ v else s.a.ck) =
    if s.a.star = false ∧ s.a.colon = false then s.a.ck ^^^ v else s.a.ck := by
  simp only [Bool.and_eq_true, Bool.not_eq_true']

theorem after_aChar_room {s : State} (b : Byte) (h : s.a.tidx < s.params.uniTermCap) :
    after (.aChar b) s = { s with a := { s.a with
      ck := if s.a.star = false ∧ s.a.colon = false then s.a.ck ^^^ b else s.a.ck
      term := s.a.term.write s.a.tidx b, tidx := s.a.tidx + 1 } } := by
  rw [after_aChar, State.tappendA, State.foldA, fold_condition, append_of_lt b (by exact h)]

theorem after_aChar_full {s : State} (b : Byte) (h : s.params.uniTermCap ≤ s.a.tidx) :
    after (.aChar b) s = { s with a := { s.a with
      ck := if s.a.star = false ∧ s.a.colon = false then s.a.ck ^^^ b else s.a.ck } } := by
  rw [after_aChar, State.tappendA, State.foldA, fold_condition, TermBuf.append_of_full b (Nat.not_lt.mpr h)]

/-- `A.COLON` is `A.CHAR` of the colon with the flag set (43_unicore_framers.md R162). -/
theorem after_aColon_eq (s : State) :
    after .aColon s = { after (.aChar 0x3A) s with a := { (after (.aChar 0x3A) s).a with colon := true } } := rfl

/-- Settles O32: the fold, then `tappend` with and without room; the colon sets its flag besides. -/
theorem uniCharFoldsAndAppends : Obligations.UniCharFoldsAndAppends := by
  refine fun b s => ⟨fun hroom => ⟨s.a.term.write s.a.tidx b, s.a.term.write s.a.tidx 0x3A, ?_, ?_,
    Memory.read_write _ _ _, Memory.read_write _ _ _, ?_, ?_⟩, fun hfull => ⟨?_, ?_, ?_, ?_⟩⟩
  · rw [exec_after, after_aChar_room b hroom]
  · rw [exec_after, after_aColon_eq, after_aChar_room 0x3A hroom]
  · exact (condIf_not_decide _ _).trans (if_pos hroom)
  · exact (condIf_not_decide _ _).trans (if_pos hroom)
  · rw [exec_after, after_aChar_full b hfull]
  · rw [exec_after, after_aColon_eq, after_aChar_full 0x3A hfull]
  · exact (condIf_not_decide _ _).trans (if_neg (Nat.not_lt.mpr hfull))
  · exact (condIf_not_decide _ _).trans (if_neg (Nat.not_lt.mpr hfull))

/-- Settles O33: the item of the open term, then the flags and the next term. -/
theorem uniDelimiterClosesTerm : Obligations.UniDelimiterClosesTerm := by
  intro s item num
  have hnum : satInc s.a.tnum = num := satInc_eq _
  refine ⟨?_, ?_⟩
  · rw [exec_after, after_aComma, ← hnum]
    cases hstar : s.a.star <;> simp [State.uniComma, State.foldA, State.closeUni, State.nextUniTerm, hstar] <;> rfl
  · rw [exec_after, after_aStar, ← hnum]; rfl

/-- Settles O34: the check decides between the event and the condition; `to_idle()` follows either way. -/
theorem uniCrReportsValidSentence : Obligations.UniCrReportsValidSentence := by
  intro s
  simp only [← uniCkOk_iff]
  refine ⟨fun hok => ⟨?_, (condIf_not _ _).trans (if_pos hok)⟩, fun hbad => ⟨?_, (condIf_not _ _).trans (if_neg hbad)⟩⟩
  · rw [exec_after, after_aCr, if_pos hok]; rfl
  · rw [exec_after, after_aCr, if_neg hbad]; rfl

end Sys2Proof.Text

/-! The operations of the three binary framers as their statements read them (42_ubx.md,
43_unicore_framers.md part 2, 44_rtcm3.md): a byte kept or truncated and counted, and the frame's last. -/

namespace Sys2Proof.Binary

open Sys2Proof.Machine

/-! ## One byte into the payload buffer -/

/-- The outcome of `store`: the byte kept at the cursor, or, with no room, nothing (20_memory.md R44). -/
def Taken (s : State) (b : Byte) (m : Memory) (cur : Nat) : Prop :=
  (s.cur < s.params.payloadCap → cur = s.cur + 1 ∧ ∀ i, m.read i = if i = s.cur then some b else s.buf.read i) ∧
    (s.params.payloadCap ≤ s.cur → cur = s.cur ∧ m = s.buf)

theorem store_taken (s : State) (b : Byte) :
    ∃ m cur, s.store b = { s with buf := m, cur := cur } ∧ Taken s b m cur := by
  by_cases hroom : s.cur < s.params.payloadCap
  · exact ⟨_, _, State.store_of_lt b hroom, fun _ => ⟨rfl, Memory.read_write _ _ _⟩,
      fun hfull => absurd hroom (Nat.not_lt.mpr hfull)⟩
  · exact ⟨s.buf, s.cur, State.store_of_full b hroom, fun h => absurd h hroom, fun _ => ⟨rfl, rfl⟩⟩

/-- TRUNCATED is met exactly with a full buffer (60_exceptions.md R201). -/
theorem condIf_payloadFull (s : State) :
    condIf s.payloadFull .truncatedPayload = if s.cur < s.params.payloadCap then [] else [.truncatedPayload] :=
  Text.condIf_not_decide _ _

theorem condIf_of_room {s : State} (h : s.cur < s.params.payloadCap) :
    condIf s.payloadFull .truncatedPayload = [] := by
  rw [condIf_payloadFull, if_pos h]

theorem condIf_of_full {s : State} (h : s.params.payloadCap ≤ s.cur) :
    condIf s.payloadFull .truncatedPayload = [.truncatedPayload] := by
  rw [condIf_payloadFull, if_neg (Nat.not_lt.mpr h)]

/-- The clauses about the buffer that the operations with one store share. -/
theorem Taken.clauses {s : State} {b : Byte} {m : Memory} {cur : Nat} (h : Taken s b m cur) :
    (s.cur < s.params.payloadCap → cur = s.cur + 1 ∧
      (∀ i, m.read i = if i = s.cur then some b else s.buf.read i) ∧
      condIf s.payloadFull .truncatedPayload = []) ∧
    (s.params.payloadCap ≤ s.cur → cur = s.cur ∧ m = s.buf ∧
      condIf s.payloadFull .truncatedPayload = [.truncatedPayload]) := by
  obtain ⟨hroom, hfull⟩ := h
  refine ⟨fun hlt => ?_, fun hle => ?_⟩
  · exact ⟨(hroom hlt).1, (hroom hlt).2, condIf_of_room hlt⟩
  · exact ⟨(hfull hle).1, (hfull hle).2, condIf_of_full hle⟩

/-! ## UBX -/

/-- Settles O28: the store, then the fold and the count whatever it did. -/
theorem ubxPayloadStoresAndFolds : Obligations.UbxPayloadStoresAndFolds := by
  intro b s sumA sumB u
  refine ⟨fun hroom => ⟨s.buf.write s.cur b, ?_, Memory.read_write _ _ _, condIf_of_room hroom⟩,
    fun hfull => ⟨?_, condIf_of_full hfull⟩⟩
  · rw [exec_after, after_uPayload, State.store_of_lt b hroom, Ubx.foldU_eq]; rfl
  · rw [exec_after, after_uPayload, State.store_of_full b (Nat.not_lt.mpr hfull), Ubx.foldU_eq]; rfl

/-- `ubx_ck_ok` once the second trailer byte is recorded (42_ubx.md R149). -/
theorem ubxCkOk_received (s : State) (b : Byte) :
    State.ubxCkOk { s with u := { s.u with rxB := b } } = true ↔ s.u.rxA = s.u.ckA ∧ b = s.u.ckB :=
  ubxCkOk_iff _

/-- The second trailer byte with the computed pair received. -/
theorem after_uCkB_valid {s : State} {b : Byte} (hA : s.u.rxA = s.u.ckA) (hB : b = s.u.ckB) :
    after (.uCkB b) s = State.toIdle (State.ubxReport { s with u := { s.u with rxB := b } }) := by
  rw [after_uCkB, if_pos ((ubxCkOk_received s b).mpr ⟨hA, hB⟩)]

theorem after_uCkB_invalid {s : State} {b : Byte} (h : ¬ (s.u.rxA = s.u.ckA ∧ b = s.u.ckB)) :
    after (.uCkB b) s = State.toIdle { s with u := { s.u with rxB := b } } := by
  rw [after_uCkB, if_neg (mt (ubxCkOk_received s b).mp h)]

/-- The condition of `U.CK_B` is met exactly when the pair received is not the computed one. -/
theorem conditions_uCkB (b : Byte) (s : State) : conditions (.uCkB b) s =
    if s.u.rxA = s.u.ckA ∧ b = s.u.ckB then [] else [.ckMismatchUbx] := by
  refine (Text.condIf_not _ _).trans ?_
  simp only [Bool.and_eq_true, beq_iff_eq]

/-- Settles O30: the pair decides whether the frame is reported, class, id and two kept bytes whether the
ACK item goes with it; `to_idle()` follows either way. -/
theorem ubxSecondTrailerByteDecides : Obligations.UbxSecondTrailerByteDecides := by
  intro b s idle told acks
  have hacks : State.ackApplies { s with u := { s.u with rxB := b } } = true ↔ acks := ackApplies_iff _
  refine ⟨fun hA hB hack => ?acked, fun hA hB hack => ?plain, fun hA hB => ?_, fun hbad => ⟨?_, ?_⟩⟩
  case acked =>
    rw [exec_after, after_uCkB_valid hA hB, State.ubxReport, if_pos (hacks.mpr hack)]
    rfl
  case plain =>
    rw [exec_after, after_uCkB_valid hA hB, State.ubxReport, if_neg (mt hacks.mp hack)]
    rfl
  · rw [conditions_uCkB, if_pos ⟨hA, hB⟩]
  · rw [exec_after, after_uCkB_invalid hbad]; rfl
  · rw [conditions_uCkB, if_neg hbad]

/-- Settles O31: the four named pairs, and the last branch for every other. -/
theorem ubxKindsByClassAndId : Obligations.UbxKindsByClassAndId := by
  refine ⟨rfl, rfl, rfl, rfl, fun c i h => ?_⟩
  simp only [List.mem_cons, List.not_mem_nil, or_false, not_or, Prod.mk.injEq] at h
  obtain ⟨hhpposllh, hrelposned, hack, hnak⟩ := h
  rw [ubxKind, if_neg hhpposllh, if_neg hrelposned, if_neg hack, if_neg hnak]

/-! ## Unicore binary -/

/-- One byte taken: stored if it fits, counted either way (43_unicore_framers.md R171, R172). -/
theorem unibTake_taken (s : State) (b : Byte) : ∃ m cur,
    s.unibTake b = { s with buf := m, cur := cur, b := { s.b with cnt := s.b.cnt + 1 } } ∧ Taken s b m cur := by
  obtain ⟨m, cur, hstore, htaken⟩ := store_taken s b
  exact ⟨m, cur, by rw [State.unibTake, hstore], htaken⟩

theorem unibComplete_last {s : State} (h : s.b.cnt = s.b.total) :
    s.unibComplete = (s.emitEvt .unicoreBinary (.unicoreBinary s.b.mid s.b.mlen) s.frame).toIdle := if_pos h

theorem unibComplete_more {s : State} (h : s.b.cnt ≠ s.b.total) : s.unibComplete = s := if_neg h

/-- The header fields in numbers (43_unicore_framers.md R173). -/
theorem unibReadHeader_eq (s : State) :
    let byte (i : Nat) := (s.buf.byteAt .payload i).toNat
    let len := 256 * byte (s.params.unibLenOff + 1) + byte s.params.unibLenOff
    s.unibReadHeader = { s with b := { s.b with
      mid := BitVec.ofNat 16 (256 * byte (s.params.unibIdOff + 1) + byte s.params.unibIdOff)
      mlen := BitVec.ofNat 16 len
      total := BitVec.ofNat 17 (24 + len + s.params.unibTrailerLen) } } := by
  intro byte len
  have hlen : len < 65536 := by
    have hhi : byte (s.params.unibLenOff + 1) < 256 := (s.buf.byteAt .payload _).isLt
    have hlo : byte s.params.unibLenOff < 256 := (s.buf.byteAt .payload _).isLt
    omega
  have htotal : unibTotal (BitVec.ofNat 16 len) s.params.unibTrailerLen =
      BitVec.ofNat 17 (24 + len + s.params.unibTrailerLen) := by
    rw [unibTotal, BitVec.toNat_ofNat, Nat.mod_eq_of_lt hlen, Config.unibHdrLen]
  simp only [State.unibReadHeader, half_eq]
  rw [← htotal]
  rfl

/-- Settles O35: before the 24th byte the header only takes the byte; the 24th reads the fields, and the
total decides whether the frame is over. -/
theorem unibHeaderBytes : Obligations.UnibHeaderBytes := by
  intro b s hcnt
  obtain ⟨m, cur, htake, htaken⟩ := unibTake_taken s b
  refine ⟨m, cur, ?_⟩
  intro byte mid len mlen total kept
  have hcnt24 (h : s.b.cnt.toNat = 23) : s.b.cnt + 1 = 24 := by
    have h23 : s.b.cnt = 23 := BitVec.eq_of_toNat_eq h
    rw [h23]; rfl
  have hread (h : s.b.cnt.toNat = 23) : (s.unibTake b).unibReadHeader =
      { kept with b := { cnt := 24, mid := mid, mlen := mlen, total := total } } := by
    rw [unibReadHeader_eq, htake, hcnt24 h]
  refine ⟨htaken.clauses.1, htaken.clauses.2, fun hlt => ?_, fun hlast hmore => ?_, fun hlast hover => ?_⟩
  · rw [exec_after, after_bHeader_of_lt b s hlt, htake]
  · rw [exec_after, after_bHeader_of_last b s hlast, hread hlast, unibComplete_more hmore.symm]
  · rw [exec_after, after_bHeader_of_last b s hlast, hread hlast, unibComplete_last hover.symm]
    rfl

/-- Settles O36: the byte is taken, and the total decides whether the frame is over. -/
theorem unibBodyBytes : Obligations.UnibBodyBytes := by
  intro b s
  obtain ⟨m, cur, htake, htaken⟩ := unibTake_taken s b
  refine ⟨m, cur, htaken.clauses.1, htaken.clauses.2, fun hmore => ?_, fun hlast => ?_⟩
  · rw [exec_after, after_bBody, htake, unibComplete_more hmore]
  · rw [exec_after, after_bBody, htake, unibComplete_last hlast]
    rfl

/-! ## RTCM3 -/

/-- Settles O37: the store, then the length in numbers, below 1024 because its high part is below four. -/
theorem rtcmLengthBytes : Obligations.RtcmLengthBytes := by
  intro b s
  obtain ⟨m, cur, hstore, htaken⟩ := store_taken s b
  refine ⟨m, cur, ?_⟩
  intro hi lo kept
  have hb : b.toNat < 256 := b.isLt
  have hlen : s.r.len.toNat < 1024 := s.r.len.isLt
  have hlo : lo < 1024 := by omega
  have htotal : rtcmTotal (BitVec.ofNat 10 lo) = BitVec.ofNat 11 (6 + lo) := by
    rw [rtcmTotal_eq, BitVec.toNat_ofNat, Nat.mod_eq_of_lt hlo]
  refine ⟨fun hroom => ?_, fun hfull => ?_, ?_, ?_, by omega, hlo⟩
  · obtain ⟨hcur, hread, hcond⟩ := htaken.clauses.1 hroom
    exact ⟨hcur, hread, hcond, hcond⟩
  · obtain ⟨hcur, hm, hcond⟩ := htaken.clauses.2 hfull
    exact ⟨hcur, hm, hcond, hcond⟩
  · rw [exec_after, after_rLenHi, hstore, setRtcmLenHi_eq]
  · rw [exec_after, after_rLenLo, hstore, setRtcmLenLo_eq, htotal]

theorem after_rBody_last {s : State} (b : Byte) (h : s.r.cnt + 1 = s.r.total) :
    after (.rBody b) s = State.rtcmComplete { s.store b with r := { s.r with cnt := s.r.cnt + 1 } } := by
  rw [after_rBody, if_pos h]

theorem after_rBody_more {s : State} (b : Byte) (h : s.r.cnt + 1 ≠ s.r.total) :
    after (.rBody b) s = { s.store b with r := { s.r with cnt := s.r.cnt + 1 } } := by
  rw [after_rBody, if_neg h]

/-- Settles O38: the byte is stored and counted, and the total decides whether the frame is over. -/
theorem rtcmBodyBytes : Obligations.RtcmBodyBytes := by
  intro b s
  obtain ⟨m, cur, hstore, htaken⟩ := store_taken s b
  refine ⟨m, cur, ?_⟩
  intro kept ty
  refine ⟨htaken.clauses.1, htaken.clauses.2, fun hmore => ?_, fun hlast => ?_⟩
  · rw [exec_after, after_rBody_more b hmore, hstore]
  · rw [exec_after, after_rBody_last b hlast, hstore, State.rtcmComplete, rtcmType_eq]
    rfl

end Sys2Proof.Binary

/-! Rules of the whole machine: the transitions of `proto` and `sync` (40_dispatcher.md R112), what
operation emits what (60_exceptions.md R209), the completion, the silent conditions and the hand-off. -/

namespace Sys2Proof.Rules

open Sys2Proof.Machine Sys2Proof.Contexts

/-- A step with a byte waiting that goes on ran the decoded operation. -/
theorem step_of_byte {s t : State} {b : Byte} {rest : List Stimulus} (hi : s.input = .byte b :: rest)
    (h : step s = .next t) : ∃ c, s.context = some c ∧ t = after (decode c b) (s.consume rest) := by
  obtain ⟨hempty, -⟩ | ⟨rest', hinit, -⟩ | ⟨b', rest', c, hbyte, hc, rfl⟩ := step_cases h
  · rw [hi] at hempty; cases hempty
  · rw [hi] at hinit; cases hinit
  · rw [hi] at hbyte; cases hbyte
    exact ⟨c, hc, rfl⟩

/-! ## Transitions -/

/-- The framer state an operation leads to. -/
def moves (i : Instr) (s : State) : Proto × Sync := ((after i s).proto, (after i s).sync)

/-- A byte examined as if nothing were held (40_dispatcher.md R112). -/
theorem moves_examine (held : Sync) (b : Byte) (s : State) : moves (examine held b) s =
    if b = 0x24 then (.nmea, .sIdle) else if b = 0xB5 then (s.proto, .sUbx1)
    else if b = 0xAA then (s.proto, .sUni1) else if b = 0xD3 then (.rtcm, .sIdle) else (s.proto, .sIdle) := by
  simp only [examine, apply_ite (moves · s)]
  rfl

/-- The idle rows of the transition summary: the continuing byte first, then the examined ones. -/
theorem moves_decodeIdle (held : Sync) (b : Byte) (s : State) (hp : s.proto = .none) :
    moves (decodeIdle held b) s =
      if held = .sUbx1 ∧ b = 0x62 then (.ubx, .sIdle)
      else if held = .sUni1 ∧ b = 0x44 then (.none, .sUni2)
      else if held = .sUni2 ∧ b = 0xB5 then (.unicoreBinary, .sIdle)
      else if b = 0x24 then (.nmea, .sIdle)
      else if b = 0xB5 then (.none, .sUbx1)
      else if b = 0xAA then (.none, .sUni1)
      else if b = 0xD3 then (.rtcm, .sIdle)
      else (.none, .sIdle) := by
  have hconfirm : moves .dUniSync2 s = (.none, .sUni2) := by rw [moves, after_dUniSync2, hp]
  cases held
  all_goals simp only [decodeIdle, apply_ite (moves · s), moves_examine, hp, hconfirm, reduceCtorEq, false_and,
    true_and, if_false]
  all_goals rfl

theorem moves_nDelimiter_handOff {s : State} (h : KeptCommand s) :
    moves .nComma s = (.unicore, s.sync) ∧ moves .nStar s = (.unicore, s.sync) := by
  rw [moves, moves, Nmea.after_nComma_handOff h, Nmea.after_nStar_handOff h]
  exact ⟨rfl, rfl⟩

theorem moves_nDelimiter_stays {s : State} (h : ¬ KeptCommand s) :
    moves .nComma s = (s.proto, s.sync) ∧ moves .nStar s = (s.proto, s.sync) := by
  rw [moves, moves, Nmea.after_nComma_stays h, Nmea.after_nStar_stays h]
  exact ⟨rfl, rfl⟩

/-- In a sentence, CR goes idle, a delimiter may hand off, and every other byte stays. -/
theorem moves_decodeNmea (b : Byte) (s : State) (hp : s.proto = .nmea) :
    (b = 0x0D → moves (decodeNmea b) s = (.none, .sIdle)) ∧
    ((b = 0x2C ∨ b = 0x2A) → KeptCommand s → moves (decodeNmea b) s = (.unicore, s.sync)) ∧
    (b ≠ 0x0D → ¬ ((b = 0x2C ∨ b = 0x2A) ∧ KeptCommand s) → moves (decodeNmea b) s = (.nmea, s.sync)) := by
  refine ⟨?_, ?_, fun hcr hno => ?_⟩
  · rintro rfl; rfl
  · rintro (rfl | rfl) hkept
    · exact (moves_nDelimiter_handOff hkept).1
    · exact (moves_nDelimiter_handOff hkept).2
  · rw [← hp]
    unfold decodeNmea
    split
    case isTrue hb => exact (moves_nDelimiter_stays fun hk => hno ⟨.inl hb, hk⟩).1
    split
    case isTrue hb => exact (moves_nDelimiter_stays fun hk => hno ⟨.inr hb, hk⟩).2
    rfl

theorem moves_decodeUnicore (b : Byte) (s : State) (hp : s.proto = .unicore) :
    (b = 0x0D → moves (decodeUnicore b) s = (.none, .sIdle)) ∧
    (b ≠ 0x0D → moves (decodeUnicore b) s = (.unicore, s.sync)) := by
  refine ⟨?_, fun hcr => ?_⟩
  · rintro rfl; rfl
  · rw [← hp]
    unfold decodeUnicore
    split
    case isTrue => rfl
    split
    case isTrue => rfl
    split <;> rfl

theorem moves_ubx {c : Context} (b : Byte) {s : State} (hp : s.proto = .ubx) (hc : s.context = some c) :
    (s.u.pos.toNat = 5 + s.u.len.toNat → moves (decode c b) s = (.none, .sIdle)) ∧
    (s.u.pos.toNat ≠ 5 + s.u.len.toNat → moves (decode c b) s = (.ubx, s.sync)) := by
  rw [Ubx.context_of_ubx hp] at hc
  refine ⟨fun hlast => ?_, fun hmore => ?_⟩
  · rw [hlast, ubxContext_ckB] at hc
    cases hc
    rfl
  · rw [← hp]
    obtain ⟨rfl, -⟩ | ⟨rfl, -⟩ | ⟨rfl, -⟩ | ⟨rfl, -⟩ | ⟨rfl, -⟩ | ⟨rfl, -⟩ | ⟨-, hlast⟩ :=
      Invariant.ubxContext_cases hc
    case inr.inr.inr.inr.inr.inr => exact absurd hlast hmore
    case inr.inr.inr.inr.inl => exact Prod.ext (State.store_proto s b) (State.store_sync s b)
    all_goals rfl

theorem moves_rBody (b : Byte) (s : State) : moves (.rBody b) s =
    if s.r.cnt + 1 = s.r.total then (.none, .sIdle) else (s.proto, s.sync) := by
  unfold moves
  split
  · rw [Binary.after_rBody_last b ‹_›]; rfl
  · rw [Binary.after_rBody_more b ‹_›]
    exact Prod.ext (State.store_proto s b) (State.store_sync s b)

theorem moves_rtcm {c : Context} (b : Byte) {s : State} (hp : s.proto = .rtcm) (hc : s.context = some c) :
    (3 ≤ s.r.cnt.toNat → s.r.cnt + 1 = s.r.total → moves (decode c b) s = (.none, .sIdle)) ∧
    (s.r.cnt.toNat < 3 ∨ s.r.cnt + 1 ≠ s.r.total → moves (decode c b) s = (.rtcm, s.sync)) := by
  have hstay : ((s.store b).proto, (s.store b).sync) = (s.proto, s.sync) :=
    Prod.ext (State.store_proto s b) (State.store_sync s b)
  rw [context_rtcm hp] at hc
  rw [← hp]
  obtain ⟨rfl, hat⟩ | ⟨rfl, hat⟩ | ⟨rfl, hat⟩ := Invariant.rtcmContext_cases hc
  · exact ⟨fun h3 => absurd h3 (by omega), fun _ => hstay⟩
  · exact ⟨fun h3 => absurd h3 (by omega), fun _ => hstay⟩
  · refine ⟨fun _ hlast => (moves_rBody b s).trans (if_pos hlast), fun hmore => ?_⟩
    exact (moves_rBody b s).trans (if_neg (hmore.resolve_left (by omega)))

/-- Where a Unicore-binary frame that has passed its header goes, in terms of the state it leads to. -/
theorem moves_unibComplete {s t : State} (h : t = s.unibComplete) :
    (t.b.cnt = t.b.total → (t.proto, t.sync) = (.none, .sIdle)) ∧
    (t.b.cnt ≠ t.b.total → (t.proto, t.sync) = (s.proto, s.sync)) := by
  subst h
  rw [State.unibComplete_b]
  refine ⟨fun hlast => ?_, fun hmore => ?_⟩
  · rw [Binary.unibComplete_last hlast]; rfl
  · rw [Binary.unibComplete_more hmore]

theorem moves_unib {c : Context} (b : Byte) {s t : State} (hp : s.proto = .unicoreBinary) (hc : s.context = some c)
    (ht : t = after (decode c b) s) :
    (s.b.cnt.toNat < 23 → (t.proto, t.sync) = (.unicoreBinary, s.sync)) ∧
    (23 ≤ s.b.cnt.toNat → (t.b.cnt = t.b.total → (t.proto, t.sync) = (.none, .sIdle)) ∧
      (t.b.cnt ≠ t.b.total → (t.proto, t.sync) = (.unicoreBinary, s.sync))) := by
  have hstay : ((s.unibTake b).proto, (s.unibTake b).sync) = (s.proto, s.sync) :=
    Prod.ext (State.unibTake_proto s b) (State.unibTake_sync s b)
  rw [context_unib hp] at hc
  rw [← hp]
  refine ⟨fun hlt => ?_, fun hge => ?_⟩
  · rw [if_pos (by omega)] at hc
    cases hc
    rw [ht, decode, after_bHeader_of_lt b s hlt]
    exact hstay
  · rw [← hstay]
    by_cases hlast : s.b.cnt.toNat = 23
    · rw [if_pos (by omega)] at hc
      cases hc
      exact moves_unibComplete (s := (s.unibTake b).unibReadHeader) (ht.trans (after_bHeader_of_last b s hlast))
    · rw [if_neg (by omega)] at hc
      cases hc
      exact moves_unibComplete ht

/-- Settles O39: the transition summary protocol by protocol. -/
theorem transitionTable : Obligations.TransitionTable := by
  intro s t b rest hi hstep
  obtain ⟨c, hc, rfl⟩ := step_of_byte hi hstep
  have hnmea (hp : s.proto = .nmea) : decode c b = decodeNmea b := by
    rw [context_nmea hp] at hc; cases hc; rfl
  have hunicore (hp : s.proto = .unicore) : decode c b = decodeUnicore b := by
    rw [context_unicore hp] at hc; cases hc; rfl
  refine ⟨fun hp => ?idle, fun hp => ?_, fun hp => ?_, fun hp => ?_, fun hp => ?_, fun hp => ?_, fun hp => ?_,
    fun hp => ?_, fun hp => ?_, fun hp => ?_, fun hp => ?_, fun hp => ?_⟩
  case idle =>
    rw [context_none hp] at hc
    cases hc
    exact moves_decodeIdle s.sync b (s.consume rest) hp
  · rw [hnmea hp]; exact (moves_decodeNmea b (s.consume rest) hp).1
  · rw [hnmea hp]; exact (moves_decodeNmea b (s.consume rest) hp).2.1
  · rw [hnmea hp]; exact (moves_decodeNmea b (s.consume rest) hp).2.2
  · rw [hunicore hp]; exact (moves_decodeUnicore b (s.consume rest) hp).1
  · rw [hunicore hp]; exact (moves_decodeUnicore b (s.consume rest) hp).2
  · exact (moves_ubx b (s := s.consume rest) hp hc).1
  · exact (moves_ubx b (s := s.consume rest) hp hc).2
  · exact (moves_rtcm b (s := s.consume rest) hp hc).1
  · exact (moves_rtcm b (s := s.consume rest) hp hc).2
  · exact (moves_unib b (s := s.consume rest) hp hc rfl).1
  · exact (moves_unib b (s := s.consume rest) hp hc rfl).2

end Sys2Proof.Rules

/-! The output ports (60_exceptions.md R202 to R209): four operations close a term, one acknowledges, six
complete a frame, and no other operation writes a port. -/

namespace Sys2Proof.Ports

open Sys2Proof.Machine Sys2Proof.Contexts

/-! ## Which operation writes which port -/

theorem after_evt_keeps {i : Instr} (s : State)
    (h : i.op ∉ [Op.nCr, .aCr, .uCkB, .rBody, .bHeader, .bBody]) : (after i s).evt = s.evt := by
  cases i
  case nCr | aCr | uCkB | rBody | bHeader | bBody => simp [Instr.op] at h
  case dUnibConfirm => simp [after_dUnibConfirm]
  case dStartRtcm held => simp [after_dStartRtcm]
  case nComma => rw [after_nComma]; split <;> rfl
  case nStar => rw [after_nStar]; split <;> rfl
  case uPayload b => simp [after_uPayload]
  case rLenHi b => simp [after_rLenHi]
  case rLenLo b => simp [after_rLenLo]
  all_goals rfl

theorem after_termOut_keeps {i : Instr} (s : State) (h : i.op ∉ [Op.nComma, .nStar, .aComma, .aStar]) :
    (after i s).termOut = s.termOut := by
  cases i
  case nComma | nStar | aComma | aStar => simp [Instr.op] at h
  case dUnibConfirm => simp [after_dUnibConfirm]
  case dStartRtcm held => simp [after_dStartRtcm]
  case nCr => rw [after_nCr]; split <;> rfl
  case aCr => rw [after_aCr]; split <;> rfl
  case uCkB b => rw [after_uCkB]; split <;> simp
  case uPayload b => simp [after_uPayload]
  case bHeader b => rw [after_bHeader]; split <;> simp
  case bBody b => simp [after_bBody]
  case rLenHi b => simp [after_rLenHi]
  case rLenLo b => simp [after_rLenLo]
  case rBody b => rw [after_rBody]; split <;> simp
  all_goals rfl

theorem after_ack_keeps {i : Instr} (s : State) (h : i.op ≠ .uCkB) : (after i s).ack = s.ack := by
  cases i
  case uCkB => exact absurd rfl h
  case dUnibConfirm => simp [after_dUnibConfirm]
  case dStartRtcm held => simp [after_dStartRtcm]
  case nComma => rw [after_nComma]; split <;> rfl
  case nStar => rw [after_nStar]; split <;> rfl
  case nCr => rw [after_nCr]; split <;> rfl
  case aCr => rw [after_aCr]; split <;> rfl
  case uPayload b => simp [after_uPayload]
  case bHeader b => rw [after_bHeader]; split <;> simp
  case bBody b => simp [after_bBody]
  case rLenHi b => simp [after_rLenHi]
  case rLenLo b => simp [after_rLenLo]
  case rBody b => rw [after_rBody]; split <;> simp
  all_goals rfl

/-! ## When -/

/-- When an operation completes a frame with an event (60_exceptions.md R209). -/
def Completes (i : Instr) (s : State) : Prop :=
  match i with
  | .nCr => s.nmeaCkOk = true
  | .aCr => s.uniCkOk = true
  | .uCkB b => s.u.rxA = s.u.ckA ∧ b = s.u.ckB
  | .rBody _ => s.r.cnt + 1 = s.r.total
  | .bHeader _ => (after i s).b.cnt = 24 ∧ (after i s).b.total = 24
  | .bBody _ => s.b.cnt + 1 = s.b.total
  | _ => False

/-- What a completing operation leaves: the event of its protocol, and an idle block with an empty buffer. -/
structure Completed (p : Proto) (t : State) : Prop where
  evt : ∃ m f, t.evt = some { kind := .dataParsed, proto := p, msg := m, frame := f } ∧
    (p = .nmea ∨ p = .unicore → f = [])
  proto : t.proto = .none
  sync : t.sync = .sIdle
  cur : t.cur = 0

theorem completed_unibComplete {s : State} (h : s.b.cnt = s.b.total) : Completed .unicoreBinary s.unibComplete := by
  rw [Binary.unibComplete_last h]
  exact ⟨⟨_, _, rfl, by simp⟩, rfl, rfl, rfl⟩

theorem evt_unibComplete_more {s : State} (h : s.b.cnt ≠ s.b.total) : s.unibComplete.evt = s.evt := by
  rw [Binary.unibComplete_more h]

/-- The 24th header byte, in terms of the state it leads to. -/
theorem after_bHeader_cases (b : Byte) (s : State) :
    ((after (.bHeader b) s).b.cnt ≠ 24 ∧ after (.bHeader b) s = s.unibTake b) ∨
    ((after (.bHeader b) s).b.cnt = 24 ∧ after (.bHeader b) s = (s.unibTake b).unibReadHeader.unibComplete) := by
  rw [after_bHeader]
  split
  · refine .inr ⟨?_, rfl⟩
    rw [State.unibComplete_b]
    exact BitVec.eq_of_toNat_eq ‹_›
  · rename_i hne
    exact .inl ⟨fun e => hne (congrArg BitVec.toNat e), rfl⟩

/-- A completing operation reports its frame. -/
theorem completed_of_completes {i : Instr} {s : State} (h : Completes i s) :
    Completed (protoOf (encode i).1) (after i s) := by
  cases i
  case nCr =>
    rw [after_nCr, if_pos (show s.nmeaCkOk = true from h)]
    exact ⟨⟨_, _, rfl, fun _ => rfl⟩, rfl, rfl, rfl⟩
  case aCr =>
    rw [after_aCr, if_pos (show s.uniCkOk = true from h)]
    exact ⟨⟨_, _, rfl, fun _ => rfl⟩, rfl, rfl, rfl⟩
  case uCkB b =>
    obtain ⟨hA, hB⟩ := h
    rw [Binary.after_uCkB_valid hA hB, State.ubxReport]
    split <;> exact ⟨⟨_, _, rfl, by simp [encode, protoOf]⟩, rfl, rfl, rfl⟩
  case rBody b =>
    rw [Binary.after_rBody_last b h]
    exact ⟨⟨_, _, rfl, by simp [encode, protoOf]⟩, rfl, rfl, rfl⟩
  case bBody b =>
    exact completed_unibComplete (s := s.unibTake b) h
  case bHeader b =>
    obtain ⟨hcnt, htotal⟩ := h
    obtain ⟨hne, -⟩ | ⟨-, heq⟩ := after_bHeader_cases b s
    · exact absurd hcnt hne
    · rw [heq, State.unibComplete_b] at hcnt htotal
      rw [heq]
      exact completed_unibComplete (hcnt.trans htotal.symm)
  all_goals exact absurd h id

/-- An operation that completes nothing writes no event. -/
theorem evt_of_not_completes {i : Instr} {s : State} (h : ¬ Completes i s) : (after i s).evt = s.evt := by
  cases i
  case nCr => rw [after_nCr, if_neg (show ¬ s.nmeaCkOk = true from h)]; rfl
  case aCr => rw [after_aCr, if_neg (show ¬ s.uniCkOk = true from h)]; rfl
  case uCkB b => rw [Binary.after_uCkB_invalid h]; rfl
  case rBody b => rw [Binary.after_rBody_more b h]; exact State.store_evt s b
  case bBody b => exact (evt_unibComplete_more (s := s.unibTake b) h).trans (State.unibTake_evt s b)
  case bHeader b =>
    obtain ⟨-, heq⟩ | ⟨hcnt, heq⟩ := after_bHeader_cases b s
    · rw [heq, State.unibTake_evt]
    · have hmore : (s.unibTake b).unibReadHeader.b.cnt ≠ (s.unibTake b).unibReadHeader.b.total := by
        intro hlast
        have hb := congrArg State.b heq
        rw [State.unibComplete_b] at hb
        exact h ⟨hcnt, by rw [hb, ← hlast, ← hb, hcnt]⟩
      rw [heq, evt_unibComplete_more hmore]
      exact State.unibTake_evt s b
  all_goals exact after_evt_keeps s (by simp [Instr.op])

theorem evt_isSome_iff {i : Instr} {s : State} (hq : s.evt = none) : (after i s).evt.isSome = true ↔ Completes i s := by
  refine ⟨fun hsome => ?_, fun h => ?_⟩
  · by_contra hno
    rw [evt_of_not_completes hno, hq] at hsome
    cases hsome
  · obtain ⟨m, f, hevt, -⟩ := (completed_of_completes h).evt
    rw [hevt]; rfl

theorem termOut_isSome_iff {i : Instr} {s : State} (hq : s.termOut = none) :
    (after i s).termOut.isSome = true ↔ i ∈ [Instr.nComma, .nStar, .aComma, .aStar] := by
  cases i
  case nComma => rw [after_nComma]; split <;> exact iff_of_true rfl (by simp)
  case nStar => rw [after_nStar]; split <;> exact iff_of_true rfl (by simp)
  case aComma => exact iff_of_true rfl (by simp)
  case aStar => exact iff_of_true rfl (by simp)
  all_goals
    rw [after_termOut_keeps s (by simp [Instr.op]), hq]
    simp

/-- The port of the ACK item, after the second trailer byte of a UBX frame. -/
theorem ack_isSome_uCkB (b : Byte) {s : State} (hq : s.ack = none) : (after (.uCkB b) s).ack.isSome = true ↔
    s.u.rxA = s.u.ckA ∧ b = s.u.ckB ∧ s.u.cls = 0x05 ∧ (s.u.id = 0x01 ∨ s.u.id = 0x00) ∧ 2 ≤ s.cur := by
  rw [← and_assoc]
  by_cases hok : s.u.rxA = s.u.ckA ∧ b = s.u.ckB
  · rw [Binary.after_uCkB_valid hok.1 hok.2, and_iff_right hok, ← ackApplies_iff s, State.ubxReport]
    split
    · exact iff_of_true rfl ‹_›
    · exact iff_of_false (by simp [hq]) ‹_›
  · rw [Binary.after_uCkB_invalid hok]
    exact iff_of_false (by simp [hq]) fun h => hok h.1

theorem ack_isSome_iff {i : Instr} {s : State} (hq : s.ack = none) : (after i s).ack.isSome = true ↔
    ∃ b, i = .uCkB b ∧ s.u.rxA = s.u.ckA ∧ b = s.u.ckB ∧
      s.u.cls = 0x05 ∧ (s.u.id = 0x01 ∨ s.u.id = 0x00) ∧ 2 ≤ s.cur := by
  cases i
  case uCkB b =>
    rw [ack_isSome_uCkB b hq]
    exact ⟨fun h => ⟨b, rfl, h⟩, fun ⟨b', hb, h⟩ => by cases hb; exact h⟩
  all_goals
    rw [after_ack_keeps s (by simp [Instr.op]), hq]
    simp

/-- The completing operations, listed as in the table of operations and ports. -/
theorem completes_iff (i : Instr) (s : State) : Completes i s ↔
    (i = .nCr ∧ ReceivedMatches s.n.toTermBuf .nmeaTerm s.n.ck s.n.star) ∨
    (i = .aCr ∧ ReceivedMatches s.a.toTermBuf .uniTerm s.a.ck s.a.star) ∨
    (∃ b, i = .uCkB b ∧ s.u.rxA = s.u.ckA ∧ b = s.u.ckB) ∨
    (∃ b, i = .rBody b ∧ s.r.cnt + 1 = s.r.total) ∨
    (∃ b, i = .bHeader b ∧ (after i s).b.cnt = 24 ∧ (after i s).b.total = 24) ∨
    (∃ b, i = .bBody b ∧ s.b.cnt + 1 = s.b.total) := by
  rw [← Text.nmeaCkOk_iff, ← Text.uniCkOk_iff]
  cases i
  case uCkB b => simp [Completes, and_comm]
  all_goals simp [Completes]

/-- Settles O40: port by port, the operations that write it and the test each makes. -/
theorem portsByOperation : Obligations.PortsByOperation := by
  rintro i s ⟨hevt, hterm, hack⟩
  refine ⟨after i s, exec_after i s, ?_, termOut_isSome_iff hterm, ack_isSome_iff hack⟩
  rw [evt_isSome_iff hevt, completes_iff]

/-- Settles O41: the event of a step is that of the completing operation, which is one of the protocol
that was active. -/
theorem eventLeavesBlockIdle : Obligations.EventLeavesBlockIdle := by
  intro s t e hstep he
  obtain ⟨-, rfl⟩ | ⟨rest, -, rfl⟩ | ⟨b, rest, c, hi, hc, rfl⟩ := step_cases hstep
  · cases he
  · cases he
  · have hcompletes : Completes (decode c b) (s.consume rest) := by
      refine (evt_isSome_iff (State.consume_evt s rest)).mp ?_
      rw [he]; rfl
    obtain ⟨⟨m, f, hevt, hframe⟩, hproto, hsync, hcur⟩ := completed_of_completes hcompletes
    rw [protoOf_decode b hc] at hevt hframe
    cases he.symm.trans hevt
    exact ⟨⟨b, rest, hi, after_keeps_input _ _⟩, rfl, hproto, hsync, hcur, hframe⟩

end Sys2Proof.Ports

/-! The hand-off from NMEA to Unicore (41_nmea.md R127, 43_unicore_framers.md R167). -/

namespace Sys2Proof.HandOff

open Sys2Proof.Machine Sys2Proof.Contexts Sys2Proof.Rules

/-- A step that goes on with a byte waiting does so from a real protocol. -/
theorem not_invalid_of_context {s : State} {c : Context} (h : s.context = some c) : s.proto ≠ .invalid :=
  fun hp => nomatch (context_invalid hp).symm.trans h

/-- An operation makes `proto` UNICORE only as a delimiter of a sentence whose term 0 is kept as `command`. -/
theorem handOff_of_after {s : State} {c : Context} {b : Byte} (hc : s.context = some c)
    (hbefore : s.proto ≠ .unicore) (hafter : (after (decode c b) s).proto = .unicore) :
    s.proto = .nmea ∧ KeptCommand s ∧ (b = 0x2C ∨ b = 0x2A) := by
  have hmoves : (moves (decode c b) s).1 = .unicore := hafter
  cases hp : s.proto
  case nmea =>
    rw [context_nmea hp] at hc
    cases hc
    obtain ⟨hcr, -, hstay⟩ := moves_decodeNmea b s hp
    by_cases h0D : b = 0x0D
    · rw [decode, hcr h0D] at hmoves; cases hmoves
    · by_cases hoff : (b = 0x2C ∨ b = 0x2A) ∧ KeptCommand s
      · exact ⟨rfl, hoff.2, hoff.1⟩
      · rw [decode, hstay h0D hoff] at hmoves; cases hmoves
  case none =>
    rw [context_none hp] at hc
    cases hc
    rw [decode, moves_decodeIdle _ b s hp] at hmoves
    repeat' split at hmoves
    all_goals cases hmoves
  case unicore => exact absurd hp hbefore
  case ubx =>
    obtain ⟨hlast, hmore⟩ := moves_ubx b hp hc
    by_cases h : s.u.pos.toNat = 5 + s.u.len.toNat
    · rw [hlast h] at hmoves; cases hmoves
    · rw [hmore h] at hmoves; cases hmoves
  case rtcm =>
    obtain ⟨hlast, hmore⟩ := moves_rtcm b hp hc
    by_cases h : s.r.cnt.toNat < 3 ∨ s.r.cnt + 1 ≠ s.r.total
    · rw [hmore h] at hmoves; cases hmoves
    · rw [not_or, Nat.not_lt, not_not] at h
      rw [hlast h.1 h.2] at hmoves; cases hmoves
  case unicoreBinary =>
    obtain ⟨hheader, hbody⟩ := moves_unib b hp hc rfl
    by_cases h : s.b.cnt.toNat < 23
    · cases (congrArg Prod.fst (hheader h)).symm.trans hafter
    · obtain ⟨hlast, hmore⟩ := hbody (by omega)
      by_cases hover : (after (decode c b) s).b.cnt = (after (decode c b) s).b.total
      · cases (congrArg Prod.fst (hlast hover)).symm.trans hafter
      · cases (congrArg Prod.fst (hmore hover)).symm.trans hafter
  case invalid => exact absurd hp (not_invalid_of_context hc)

/-- Within an NMEA sentence the term number is zero only until the first delimiter. -/
theorem tnum_ne_zero_after {s : State} (b : Byte) (hafter : (after (decodeNmea b) s).proto = .nmea) :
    (s.n.tnum ≠ 0 → (after (decodeNmea b) s).n.tnum ≠ 0) ∧
    (b = 0x2C ∨ b = 0x2A → (after (decodeNmea b) s).n.tnum ≠ 0) := by
  have hcomma (hp : (after .nComma s).proto = .nmea) : (after .nComma s).n.tnum ≠ 0 := by
    by_cases hkept : KeptCommand s
    · rw [Nmea.after_nComma_handOff hkept] at hp; cases hp
    · rw [Nmea.after_nComma_stays hkept]; exact satInc_ne_zero _
  have hstar (hp : (after .nStar s).proto = .nmea) : (after .nStar s).n.tnum ≠ 0 := by
    by_cases hkept : KeptCommand s
    · rw [Nmea.after_nStar_handOff hkept] at hp; cases hp
    · rw [Nmea.after_nStar_stays hkept]; exact satInc_ne_zero _
  unfold decodeNmea at hafter ⊢
  split at hafter
  case isTrue hb => rw [if_pos hb]; exact ⟨fun _ => hcomma hafter, fun _ => hcomma hafter⟩
  case isFalse hb2C =>
    rw [if_neg hb2C]
    split at hafter
    case isTrue hb => rw [if_pos hb]; exact ⟨fun _ => hstar hafter, fun _ => hstar hafter⟩
    case isFalse hb2A =>
      rw [if_neg hb2A]
      refine ⟨fun hne => ?_, fun hb => absurd hb (not_or.mpr ⟨hb2C, hb2A⟩)⟩
      split at hafter
      · cases hafter
      · rw [if_neg ‹_›]; exact hne

/-- Settles O43: UNICORE is entered by the delimiter that hands off, left to idle only, and once the term
number has left zero it stays away from it. -/
theorem unicoreEnteredOnlyByHandOff : Obligations.UnicoreEnteredOnlyByHandOff := by
  intro s t hstep
  obtain ⟨hi, rfl⟩ | ⟨rest, hi, rfl⟩ | ⟨b, rest, c, hi, hc, rfl⟩ := step_cases hstep
  · refine ⟨fun hafter hbefore => absurd hafter hbefore, fun hp => .inl hp, fun _ _ => ⟨fun h => h, ?_⟩⟩
    intro b rest hb; rw [hi] at hb; cases hb
  · exact ⟨nofun, fun _ => .inr rfl, fun _ => nofun⟩
  · refine ⟨fun hafter hbefore => ?entered, fun hp => ?left, fun hp hstays => ?once⟩
    case entered =>
      obtain ⟨hp, hkept, hb⟩ := handOff_of_after (s := s.consume rest) hc hbefore hafter
      rw [context_nmea (s := s) hp] at hc
      cases hc
      refine ⟨hp, hkept, ?_⟩
      obtain rfl | rfl := hb
      · have ht : after (decode .nmea 0x2C) (s.consume rest) = _ := Nmea.after_nComma_handOff hkept
        rw [ht]
        exact ⟨rfl, rfl, rfl, rfl, .inl ⟨rest, hi, rfl, rfl⟩⟩
      · have ht : after (decode .nmea 0x2A) (s.consume rest) = _ := Nmea.after_nStar_handOff hkept
        rw [ht]
        exact ⟨rfl, rfl, rfl, rfl, .inr ⟨rest, hi, rfl, rfl⟩⟩
    case left =>
      rw [context_unicore hp] at hc
      cases hc
      obtain ⟨hcr, hstay⟩ := moves_decodeUnicore b (s.consume rest) hp
      by_cases h0D : b = 0x0D
      · exact .inr (congrArg Prod.fst (hcr h0D))
      · exact .inl (congrArg Prod.fst (hstay h0D))
    case once =>
      rw [context_nmea hp] at hc
      cases hc
      obtain ⟨hkeeps, hdelimiter⟩ := tnum_ne_zero_after (s := s.consume rest) b hstays
      refine ⟨hkeeps, fun b' rest' hi' hb' => ?_⟩
      cases hi.symm.trans hi'
      exact hdelimiter hb'

end Sys2Proof.HandOff

/-! The silent conditions (60_exceptions.md R201): which operations meet each, and what they do then. -/

namespace Sys2Proof.Silent

open Sys2Proof.Machine

theorem mem_condIf {p : Bool} {c d : Condition} : c ∈ condIf p d ↔ p = true ∧ c = d := by
  cases p <;> simp [condIf]

/-! ## Which operations meet a condition -/

theorem of_ckMismatchText {i : Instr} {s : State} (h : Condition.ckMismatchText ∈ conditions i s) :
    (i = .nCr ∧ ¬ s.nmeaCkOk = true) ∨ (i = .aCr ∧ ¬ s.uniCkOk = true) := by
  cases i
  all_goals simp only [conditions, mem_condIf, List.not_mem_nil, reduceCtorEq, and_false, and_true] at h
  case nCr => exact .inl ⟨rfl, by simpa using h⟩
  case aCr => exact .inr ⟨rfl, by simpa using h⟩

theorem of_ckMismatchUbx {i : Instr} {s : State} (h : Condition.ckMismatchUbx ∈ conditions i s) :
    ∃ b, i = .uCkB b ∧ ¬ (s.u.rxA = s.u.ckA ∧ b = s.u.ckB) := by
  cases i
  all_goals simp only [conditions, mem_condIf, List.not_mem_nil, reduceCtorEq, and_false, and_true] at h
  case uCkB b => exact ⟨b, rfl, by simpa [imp_iff_not_or] using h⟩

theorem of_truncatedPayload {i : Instr} {s : State} (h : Condition.truncatedPayload ∈ conditions i s) :
    s.params.payloadCap ≤ s.cur ∧
      ∃ b, i ∈ [Instr.uPayload b, .rLenHi b, .rLenLo b, .rBody b, .bHeader b, .bBody b] := by
  cases i
  all_goals simp only [conditions, mem_condIf, List.not_mem_nil, reduceCtorEq, and_false, and_true] at h
  case uPayload b | rLenHi b | rLenLo b | rBody b | bHeader b | bBody b =>
    exact ⟨by simpa [State.payloadFull] using h, b, by simp⟩

theorem of_truncatedTerm {i : Instr} {s : State} (h : Condition.truncatedTerm ∈ conditions i s) :
    (∃ b, i = .nChar b ∧ s.params.nmeaTermCap ≤ s.n.tidx) ∨ (∃ b, i = .aChar b ∧ s.params.uniTermCap ≤ s.a.tidx) ∨
      (i = .aColon ∧ s.params.uniTermCap ≤ s.a.tidx) := by
  cases i
  all_goals simp only [conditions, mem_condIf, List.not_mem_nil, reduceCtorEq, and_false, and_true] at h
  case nChar b => exact .inl ⟨b, rfl, by simpa using h⟩
  case aChar b => exact .inr (.inl ⟨b, rfl, by simpa using h⟩)
  case aColon => exact .inr (.inr ⟨rfl, by simpa using h⟩)

theorem of_syncFail {i : Instr} {s : State} (h : Condition.syncFail ∈ conditions i s) :
    ∃ held, (∃ b, i = .dDiscard held b) ∨
      i ∈ [Instr.dStartNmea held, .dUbxSync1 held, .dUniSync1 held, .dStartRtcm held] := by
  cases i
  all_goals simp only [conditions, mem_condIf, List.not_mem_nil, reduceCtorEq, and_false] at h
  case dDiscard held b => exact ⟨held, .inl ⟨b, rfl⟩⟩
  case dStartNmea held | dUbxSync1 held | dUniSync1 held | dStartRtcm held => exact ⟨held, .inr (by simp)⟩

/-! ## What they do then -/

/-- A mismatch goes idle and changes nothing else. -/
theorem after_ckMismatchText {i : Instr} {s : State} (h : Condition.ckMismatchText ∈ conditions i s) :
    (i = .nCr ∨ i = .aCr) ∧ after i s = s.toIdle := by
  obtain ⟨rfl, hbad⟩ | ⟨rfl, hbad⟩ := of_ckMismatchText h
  · exact ⟨.inl rfl, by rw [after_nCr, if_neg hbad]⟩
  · exact ⟨.inr rfl, by rw [after_aCr, if_neg hbad]⟩

/-- A held sequence that is not continued leaves no trace: the byte acts as when nothing was held. -/
theorem exec_syncFail {i : Instr} {s : State} (hwf : i.wf = true) (h : Condition.syncFail ∈ conditions i s) :
    exec i s = exec (decode (.sync .sIdle) (encode i).2) s := by
  obtain ⟨held, ⟨b, rfl⟩ | hi⟩ := of_syncFail h
  · have hfree : wfDiscard .sIdle b = true := by
      obtain ⟨hstart, -⟩ := (Dispatcher.wfDiscard_iff held b).mp hwf
      exact (Dispatcher.wfDiscard_iff .sIdle b).mpr ⟨hstart, nofun, nofun⟩
    have hdecode : decode (.sync .sIdle) b = .dDiscard .sIdle b := Encoding.decodeIdle_of_wfDiscard hfree
    rw [encode, hdecode]
    rfl
  · simp only [List.mem_cons, List.not_mem_nil, or_false] at hi
    obtain rfl | rfl | rfl | rfl := hi <;> rfl

/-- The state that counts and folds a payload byte as a kept one and stores nothing (decision D8); the
fields that the operation reads off its byte are given by `t`. -/
def Counted (i : Instr) (s t counted : State) : Prop :=
  (∃ b, i = .uPayload b ∧ counted = { s with u := { s.u with
      pos := s.u.pos + 1, ckA := s.u.ckA + b, ckB := s.u.ckB + (s.u.ckA + b) } }) ∨
    (∃ b, i = .rLenHi b ∧ counted = { s with r := { s.r with len := t.r.len, cnt := 2 } }) ∨
    (∃ b, i = .rLenLo b ∧ counted = { s with r := { s.r with len := t.r.len, total := t.r.total, cnt := 3 } }) ∨
    (∃ b, i = .rBody b ∧ counted = { s with r := { s.r with mtype := t.r.mtype, cnt := s.r.cnt + 1 } }) ∨
    (∃ b, i = .bHeader b ∧ counted = { s with b := { t.b with cnt := s.b.cnt + 1 } }) ∨
    (∃ b, i = .bBody b ∧ counted = { s with b := { s.b with cnt := s.b.cnt + 1 } })

/-- A frame gone idle with its event, and nothing else changed. -/
def IdleWithEvent (counted t : State) : Prop :=
  t.evt.isSome = true ∧ t = { counted with proto := .none, sync := .sIdle, cur := 0, evt := t.evt }

theorem unibTake_full {s : State} (b : Byte) (h : s.params.payloadCap ≤ s.cur) :
    s.unibTake b = { s with b := { s.b with cnt := s.b.cnt + 1 } } := by
  rw [State.unibTake, State.store_of_full b (Nat.not_lt.mpr h)]

/-- Completion of a Unicore-binary frame, or the state as it was. -/
theorem unibComplete_cases {counted t : State} (h : t = counted.unibComplete) :
    (t.b.cnt ≠ t.b.total → t = counted) ∧ (t.b.cnt = t.b.total → IdleWithEvent counted t) := by
  subst h
  rw [State.unibComplete_b]
  refine ⟨fun hmore => Binary.unibComplete_more hmore, fun hlast => ?_⟩
  rw [Binary.unibComplete_last hlast]
  exact ⟨rfl, rfl⟩

/-- A truncated header byte; the 24th reads the fields from what the buffer holds. -/
theorem after_bHeader_full (b : Byte) {s t : State} (h : s.params.payloadCap ≤ s.cur) (ht : t = after (.bHeader b) s) :
    (¬ (t.b.cnt = 24 ∧ t.b.total = 24) → t = { s with b := { t.b with cnt := s.b.cnt + 1 } }) ∧
    (t.b.cnt = 24 ∧ t.b.total = 24 → IdleWithEvent { s with b := { t.b with cnt := s.b.cnt + 1 } } t) := by
  have htake := unibTake_full b h
  subst ht
  obtain ⟨hne, heq⟩ | ⟨hcnt, heq⟩ := Ports.after_bHeader_cases b s
  · refine ⟨fun _ => ?_, fun hlast => absurd hlast.1 hne⟩
    rw [heq, htake]
  · obtain ⟨hmore, hlast⟩ := unibComplete_cases heq
    have hcounted : { s with b := { (after (.bHeader b) s).b with cnt := s.b.cnt + 1 } } =
        (s.unibTake b).unibReadHeader := by
      rw [heq, State.unibComplete_b, htake]
      rfl
    rw [hcounted]
    exact ⟨fun hno => hmore fun e => hno ⟨hcnt, e ▸ hcnt⟩, fun hyes => hlast (hyes.1.trans hyes.2.symm)⟩

/-- The byte is the last of its frame. -/
def LastByte (i : Instr) (s t : State) : Prop :=
  (∃ b, i = .rBody b ∧ s.r.cnt + 1 = s.r.total) ∨ (∃ b, i = .bBody b ∧ s.b.cnt + 1 = s.b.total) ∨
    (∃ b, i = .bHeader b ∧ t.b.cnt = 24 ∧ t.b.total = 24)

/-- A truncated payload byte: counted as a kept one, the frame going on or completing as with it. -/
theorem after_truncatedPayload {i : Instr} {s t : State} (ht : t = after i s)
    (h : Condition.truncatedPayload ∈ conditions i s) :
    ∃ counted, Counted i s t counted ∧ (¬ LastByte i s t → t = counted) ∧
      (LastByte i s t → IdleWithEvent counted t) := by
  obtain ⟨hfull, b, hi⟩ := of_truncatedPayload h
  have hstore : s.store b = s := State.store_of_full b (Nat.not_lt.mpr hfull)
  simp only [List.mem_cons, List.not_mem_nil, or_false] at hi
  obtain rfl | rfl | rfl | rfl | rfl | rfl := hi
  · refine ⟨_, .inl ⟨b, rfl, rfl⟩, fun _ => ?_, by simp [LastByte]⟩
    rw [ht, after_uPayload, hstore]; rfl
  · refine ⟨_, .inr (.inl ⟨b, rfl, rfl⟩), fun _ => ?_, by simp [LastByte]⟩
    rw [ht, after_rLenHi, hstore]
  · refine ⟨_, .inr (.inr (.inl ⟨b, rfl, rfl⟩)), fun _ => ?_, by simp [LastByte]⟩
    rw [ht, after_rLenLo, hstore]
  · refine ⟨_, .inr (.inr (.inr (.inl ⟨b, rfl, rfl⟩))), fun hmore => ?_, fun hlast => ?_⟩
    · have hmore : s.r.cnt + 1 ≠ s.r.total := fun e => hmore (.inl ⟨b, rfl, e⟩)
      rw [ht, Binary.after_rBody_more b hmore, hstore]
    · have hlast : s.r.cnt + 1 = s.r.total := by simpa [LastByte] using hlast
      rw [ht, Binary.after_rBody_last b hlast, hstore]
      exact ⟨rfl, rfl⟩
  · obtain ⟨hmore, hlast⟩ := after_bHeader_full b hfull ht
    exact ⟨_, .inr (.inr (.inr (.inr (.inl ⟨b, rfl, rfl⟩)))), fun hno => hmore fun e => hno (.inr (.inr ⟨b, rfl, e⟩)),
      fun hyes => hlast (by simpa [LastByte] using hyes)⟩
  · have htake := unibTake_full b hfull
    obtain ⟨hmore, hlast⟩ := unibComplete_cases (ht.trans (by rw [after_bBody, htake]))
    have hb : t.b = { s.b with cnt := s.b.cnt + 1 } := by
      rw [ht, after_bBody, State.unibComplete_b, htake]
    rw [hb] at hmore hlast
    exact ⟨_, .inr (.inr (.inr (.inr (.inr ⟨b, rfl, rfl⟩)))), fun hno => hmore fun e => hno (.inr (.inl ⟨b, rfl, e⟩)),
      fun hyes => hlast (by simpa [LastByte] using hyes)⟩

/-- A truncated character leaves the term and its index and moves the checksum. -/
theorem after_truncatedTerm {i : Instr} {s : State} (h : Condition.truncatedTerm ∈ conditions i s) :
    let uniCk (v : Byte) := if s.a.star = false ∧ s.a.colon = false then s.a.ck ^^^ v else s.a.ck
    (∃ b, i = .nChar b ∧ s.params.nmeaTermCap ≤ s.n.tidx ∧
      after i s = { s with n := { s.n with ck := if s.n.star then s.n.ck else s.n.ck ^^^ b } }) ∨
    (∃ b, i = .aChar b ∧ s.params.uniTermCap ≤ s.a.tidx ∧ after i s = { s with a := { s.a with ck := uniCk b } }) ∨
    (i = .aColon ∧ s.params.uniTermCap ≤ s.a.tidx ∧
      after i s = { s with a := { s.a with ck := uniCk 0x3A, colon := true } }) := by
  intro uniCk
  obtain ⟨b, rfl, hfull⟩ | ⟨b, rfl, hfull⟩ | ⟨rfl, hfull⟩ := of_truncatedTerm h
  · exact .inl ⟨b, rfl, hfull, Text.after_nChar_full b hfull⟩
  · exact .inr (.inl ⟨b, rfl, hfull, Text.after_aChar_full b hfull⟩)
  · refine .inr (.inr ⟨rfl, hfull, ?_⟩)
    rw [Text.after_aColon_eq, Text.after_aChar_full 0x3A hfull]

/-- Settles O42: condition by condition, the operations that meet it and the state they lead to. -/
theorem silentConditionsOnlyDrop : Obligations.SilentConditionsOnlyDrop := by
  intro i s t hwf _ hexec idle completes
  obtain rfl : after i s = t := Host.Outcome.next.inj ((exec_after i s).symm.trans hexec)
  refine ⟨after_ckMismatchText, fun h => ?_, fun h => ?_, after_truncatedTerm, exec_syncFail hwf⟩
  · obtain ⟨b, rfl, hbad⟩ := of_ckMismatchUbx h
    exact ⟨b, rfl, Binary.after_uCkB_invalid hbad⟩
  · exact ⟨(of_truncatedPayload h).1, after_truncatedPayload rfl h⟩

end Sys2Proof.Silent

/-! Byte streams (00_scope.md R8): a stream run in two chunks, a run that emits nothing, and what the
payload buffer holds of a stream. -/

namespace Sys2Proof.Streams

open Sys2Proof.Machine

/-- Settles O45: by induction on the first chunk; a stream stops where a byte finds no context, in one
piece as in two. -/
theorem chunkingIsIrrelevant : Obligations.ChunkingIsIrrelevant := by
  intro s t xs ys hi
  induction xs generalizing s with
  | nil => simp [runs_nil]
  | cons b xs ih =>
    cases hc : s.context with
    | none => simp [runs_cons_none hi hc]
    | some c =>
      rw [List.cons_append, runs_cons hi hc, ih _ (after_keeps_input _ _)]
      simp only [runs_cons hi hc]

theorem runs_append {s m t : State} {xs ys : List Byte} (hi : s.input = []) (hxs : Runs s xs m) (hys : Runs m ys t) :
    Runs s (xs ++ ys) t :=
  (chunkingIsIrrelevant s t xs ys hi).mpr ⟨m, hxs, hys⟩

/-- The state an operation leads to, from what `exec` answers. -/
theorem after_of_exec {i : Instr} {s t : State} (h : exec i s = .next t) : after i s = t :=
  Host.Outcome.next.inj ((exec_after i s).symm.trans h)

/-- A stream that is not empty has a last byte. -/
theorem exists_snoc {xs : List Byte} (h : 0 < xs.length) : ∃ front y, xs = front ++ [y] :=
  ⟨xs.dropLast, xs.getLast (List.ne_nil_of_length_pos h), (List.dropLast_append_getLast _).symm⟩

/-! ## Runs that emit nothing -/

/-- The stream runs to `t`, and after each of its bytes the ports are quiet. -/
def QuietRun (s : State) (xs : List Byte) (t : State) : Prop :=
  Runs s xs t ∧ ∀ k, 0 < k → k ≤ xs.length → ∃ m, Runs s (xs.take k) m ∧ Quiet m

theorem quietRun_nil (s : State) : QuietRun s [] s :=
  ⟨(runs_nil s s).mpr rfl, fun _ hk hle => absurd hk (Nat.not_lt.mpr hle)⟩

/-- One quiet byte. -/
theorem quietRun_one {s : State} {c : Context} (b : Byte) (hi : s.input = []) (hc : s.context = some c)
    (hq : Quiet (after (decode c b) (s.consume []))) : QuietRun s [b] (after (decode c b) (s.consume [])) := by
  refine ⟨runs_one hi hc b, fun k hk hle => ?_⟩
  obtain rfl : k = 1 := Nat.le_antisymm hle hk
  exact ⟨_, runs_one hi hc b, hq⟩

theorem quietRun_append {s m t : State} {xs ys : List Byte} (hi : s.input = []) (hxs : QuietRun s xs m)
    (hys : QuietRun m ys t) : QuietRun s (xs ++ ys) t := by
  refine ⟨runs_append hi hxs.1 hys.1, fun k hk hle => ?_⟩
  by_cases hkxs : k ≤ xs.length
  · rw [List.take_append_of_le_length hkxs]
    exact hxs.2 k hk hkxs
  · obtain ⟨j, rfl⟩ : ∃ j, k = xs.length + j := ⟨k - xs.length, by omega⟩
    rw [List.length_append] at hle
    obtain ⟨m', hrun, hquiet⟩ := hys.2 j (by omega) (by omega)
    rw [List.take_length_add_append]
    exact ⟨m', runs_append hi hxs.1 hrun, hquiet⟩

theorem quietRun_cons {s t : State} {c : Context} {b : Byte} {xs : List Byte} (hi : s.input = [])
    (hc : s.context = some c) (hq : Quiet (after (decode c b) (s.consume [])))
    (h : QuietRun (after (decode c b) (s.consume [])) xs t) : QuietRun s (b :: xs) t :=
  quietRun_append hi (quietRun_one b hi hc hq) h

/-- Before the byte that follows a quiet run nothing has left. -/
theorem quietUntilLast_snoc {s m : State} {xs : List Byte} (h : QuietRun s xs m) (y : Byte) :
    QuietUntilLast s (xs ++ [y]) := by
  intro k hk hlt
  rw [List.length_append, List.length_singleton] at hlt
  rw [List.take_append_of_le_length (by omega)]
  exact h.2 k hk (by omega)

/-- A property of the bytes taken so far that each byte carries on, up to a number of bytes. -/
theorem quietRun_of_step {P : List Byte → State → Prop} {n : Nat} (hinput : ∀ {done s}, P done s → s.input = [])
    (hstep : ∀ {done s} b, P done s → done.length < n → ∃ t, QuietRun s [b] t ∧ P (done ++ [b]) t)
    (xs : List Byte) {done : List Byte} {s : State} (h : P done s) (hlen : done.length + xs.length ≤ n) :
    ∃ t, QuietRun s xs t ∧ P (done ++ xs) t := by
  induction xs generalizing done s with
  | nil => exact ⟨s, quietRun_nil s, by rwa [List.append_nil]⟩
  | cons b xs ih =>
    rw [List.length_cons] at hlen
    obtain ⟨m, hone, hm⟩ := hstep b h (by omega)
    obtain ⟨t, hrest, ht⟩ := ih hm (by rw [List.length_append, List.length_singleton]; omega)
    rw [List.append_assoc] at ht
    exact ⟨t, quietRun_append (hinput h) hone hrest, ht⟩

/-! ## What the payload buffer holds -/

/-- The payload buffer holds a stream, cut at the capacity (20_memory.md R44, R48). -/
def Holds (s : State) (xs : List Byte) : Prop := s.frame = xs.take s.params.payloadCap

theorem Holds.cur_eq {s : State} {xs : List Byte} (h : Holds s xs) : s.cur = min s.params.payloadCap xs.length := by
  have hlen := congrArg List.length h
  rwa [State.frame, Memory.length_bytes, List.length_take] at hlen

theorem holds_clear (s : State) : Holds s.clear [] := by
  rw [Holds, List.take_nil]
  rfl

/-- A stored byte joins the stream, or is cut off with a full buffer. -/
theorem Holds.store {s : State} {xs : List Byte} (h : Holds s xs) (b : Byte) : Holds (s.store b) (xs ++ [b]) := by
  have hcur := h.cur_eq
  rw [Holds, State.store_params, State.store_frame, h]
  split
  · rw [List.take_of_length_le (by omega : xs.length ≤ _), List.take_of_length_le]
    rw [List.length_append, List.length_singleton]; omega
  · rw [List.take_append_of_le_length (by omega)]

/-- A byte below the cursor is the byte of the stream. -/
theorem Holds.bufByte {s : State} {xs : List Byte} (h : Holds s xs) {i : Nat} (hcap : i < s.params.payloadCap)
    (hlen : i < xs.length) : s.bufByte i = xs.getD i 0 := by
  have hcur := h.cur_eq
  rw [State.bufByte_eq_frame s i (by omega), h, List.getD_eq_getElem?_getD, List.getD_eq_getElem?_getD,
    List.getElem?_take_of_lt hcap]

end Sys2Proof.Streams

/-! A whole UBX frame (30_encoding.md R71, 42_ubx.md): the header gives class, id and length, each payload
byte joins the buffer and the sums, and the trailer is compared with the sums. -/

namespace Sys2Proof.UbxFrame

open Sys2Proof.Machine Sys2Proof.Contexts Sys2Proof.Streams

/-- The four header bytes that the checksum covers. -/
def header (cls id : Byte) (n : Nat) : List Byte := [cls, id, BitVec.ofNat 8 n, BitVec.ofNat 8 (n / 256)]

/-- The UBX registers with these bytes folded into the sums and no trailer byte received. -/
def regsAt (pos : Count17) (cls id : Byte) (len : Half) (covered : List Byte) : UbxRegs where
  pos := pos
  cls := cls
  id := id
  len := len
  rxA := 0
  rxB := 0
  ckA := (ubxSums covered).1
  ckB := (ubxSums covered).2

/-- A frame of this class, id and length with these payload bytes taken. -/
structure Taken (p : Params) (cls id : Byte) (n : Nat) (done : List Byte) (t : State) : Prop where
  input : t.input = []
  params : t.params = p
  proto : t.proto = .ubx
  holds : Holds t done
  regs : t.u = regsAt (BitVec.ofNat 17 (4 + done.length)) cls id (BitVec.ofNat 16 n) (header cls id n ++ done)

section
variable {p : Params} {cls id : Byte} {n : Nat} {done : List Byte} {t : State}

/-- The position after the payload bytes taken does not wrap. -/
theorem Taken.pos (h : Taken p cls id n done t) (hn : n < 65536) (hlen : done.length ≤ n) :
    t.u.pos.toNat = 4 + done.length := by
  rw [h.regs]
  exact Nat.mod_eq_of_lt (by omega)

theorem Taken.len (h : Taken p cls id n done t) (hn : n < 65536) : t.u.len.toNat = n := by
  rw [h.regs]
  exact Nat.mod_eq_of_lt hn

/-- While payload bytes are missing the next byte is one (30_encoding.md R80). -/
theorem Taken.context_payload (h : Taken p cls id n done t) (hn : n < 65536) (hlen : done.length < n) :
    t.context = some .ubxPayload := by
  rw [Ubx.context_of_ubx h.proto, h.pos hn (by omega), h.len hn]
  exact ubxContext_payload (by omega) (by omega)

/-- One payload byte (42_ubx.md R146). -/
theorem Taken.step (hn : n < 65536) (b : Byte) (h : Taken p cls id n done t) (hlen : done.length < n) :
    ∃ t', QuietRun t [b] t' ∧ Taken p cls id n (done ++ [b]) t' := by
  have hrun := quietRun_one b h.input (h.context_payload hn hlen)
  refine ⟨after (.uPayload b) (t.consume []), hrun ?_, ?_⟩
  · exact ⟨State.store_evt _ b, State.store_termOut _ b, State.store_ack _ b⟩
  · have hpos : BitVec.ofNat 17 (4 + done.length) + 1 = BitVec.ofNat 17 (4 + (done ++ [b]).length) := by
      rw [List.length_append, List.length_singleton, ← Nat.add_assoc]
      exact (BitVec.ofNat_add _ 1).symm
    have hholds : Holds (t.consume []) done := h.holds
    refine ⟨State.store_input _ b, (State.store_params _ b).trans h.params, (State.store_proto _ b).trans h.proto,
      hholds.store b, ?_⟩
    rw [after_uPayload, ← hpos, ← List.append_assoc, regsAt, ubxSums_snoc]
    simp [h.regs, regsAt]

end

/-- A frame opened in a state, with these UBX registers. -/
def opened (s : State) (u : UbxRegs) : State :=
  { s.consume [] with proto := .ubx, sync := .sIdle, cur := 0, u := u }

/-- A byte in an open frame that changes the UBX registers alone. -/
theorem opened_run {s : State} {u u' : UbxRegs} {c : Context} (b : Byte)
    (hc : ubxContext u.pos.toNat u.len.toNat = some c)
    (h : after (decode c b) (opened s u) = opened s u') : QuietRun (opened s u) [b] (opened s u') := by
  rw [← h]
  exact quietRun_one (s := opened s u) b rfl hc (h ▸ ⟨rfl, rfl, rfl⟩)

/-- The two sync bytes from idle open a frame with every UBX register zero (40_dispatcher.md R102, R103). -/
theorem opened_from_idle {s : State} (hidle : Idle s) : QuietRun s [0xB5, 0x62] (opened s (regsAt 0 0 0 0 [])) := by
  obtain ⟨hproto, hsync, -, hinput⟩ := hidle
  have hc : s.context = some (.sync .sIdle) := by rw [context_none hproto, hsync]
  have hheld := quietRun_one 0xB5 hinput hc ⟨rfl, rfl, rfl⟩
  have hopen := quietRun_one (s := { s.consume [] with sync := .sUbx1 }) 0x62 rfl (context_none hproto)
    ⟨rfl, rfl, rfl⟩
  exact quietRun_append hinput hheld hopen

/-- The header of a frame from idle, up to its length (42_ubx.md R142 to R145). -/
theorem header_run {s : State} (cls id : Byte) {n : Nat} (hidle : Idle s) (hn : n < 65536) :
    ∃ t, QuietRun s ([0xB5, 0x62] ++ header cls id n) t ∧ Taken s.params cls id n [] t := by
  have hlen : setLenHi (setLenLo 0 (BitVec.ofNat 8 n)) (BitVec.ofNat 8 (n / 256)) = BitVec.ofNat 16 n := by
    rw [setLenHi_eq, setLenLo_eq]
    apply BitVec.eq_of_toNat_eq
    simp only [BitVec.toNat_ofNat]
    omega
  have hcls := opened_run (s := s) (u := regsAt 0 0 0 0 []) (u' := regsAt 1 cls 0 0 [cls]) cls rfl rfl
  have hid := opened_run (s := s) (u := regsAt 1 cls 0 0 [cls]) (u' := regsAt 2 cls id 0 [cls, id]) id rfl rfl
  have hlo := opened_run (s := s) (u := regsAt 2 cls id 0 [cls, id])
    (u' := regsAt 3 cls id (setLenLo 0 (BitVec.ofNat 8 n)) [cls, id, BitVec.ofNat 8 n]) (BitVec.ofNat 8 n) rfl rfl
  have hhi := opened_run (s := s) (u := regsAt 3 cls id (setLenLo 0 (BitVec.ofNat 8 n)) [cls, id, BitVec.ofNat 8 n])
    (u' := regsAt 4 cls id (setLenHi (setLenLo 0 (BitVec.ofNat 8 n)) (BitVec.ofNat 8 (n / 256))) (header cls id n))
    (BitVec.ofNat 8 (n / 256)) rfl rfl
  refine ⟨_, quietRun_append hidle.2.2.2 (opened_from_idle hidle) <| quietRun_append rfl hcls <|
    quietRun_append rfl hid <| quietRun_append rfl hlo hhi, rfl, rfl, rfl, ?_, ?_⟩
  · exact holds_clear _
  · rw [← hlen]; rfl

/-! ## The trailer -/

/-- A frame with its payload and its first trailer byte taken. -/
structure Awaits (p : Params) (cls id : Byte) (payload : List Byte) (x : Byte) (t : State) : Prop where
  input : t.input = []
  quiet : Quiet t
  params : t.params = p
  context : t.context = some .ubxCkB
  holds : Holds t payload
  regs : t.u = { regsAt (BitVec.ofNat 17 (5 + payload.length)) cls id (BitVec.ofNat 16 payload.length)
    (header cls id payload.length ++ payload) with rxA := x }

/-- The first trailer byte is recorded (42_ubx.md R147). -/
theorem Taken.ckA {p : Params} {cls id : Byte} {payload : List Byte} {m : State} (hn : payload.length < 65536)
    (h : Taken p cls id payload.length payload m) (x : Byte) :
    ∃ t, QuietRun m [x] t ∧ Awaits p cls id payload x t := by
  have hpos := h.pos hn (Nat.le_refl _)
  have hlen := h.len hn
  have hc : m.context = some .ubxCkA := by rw [Ubx.context_of_ubx h.proto, hpos, hlen, ubxContext_ckA]
  have hsucc : (m.u.pos + 1).toNat = m.u.pos.toNat + 1 := Invariant.toNat_succ _ (by omega)
  have hquiet : Quiet (after (.uCkA x) (m.consume [])) := ⟨rfl, rfl, rfl⟩
  refine ⟨_, quietRun_one x h.input hc hquiet, rfl, hquiet, h.params, ?_, h.holds, ?_⟩
  · have hproto : (after (.uCkA x) (m.consume [])).proto = .ubx := h.proto
    refine (Ubx.context_of_ubx hproto).trans ?_
    show ubxContext (m.u.pos + 1).toNat m.u.len.toNat = _
    rw [hsucc, hpos, hlen, Nat.add_right_comm, ubxContext_ckB]
  · have hregs : (after (.uCkA x) (m.consume [])).u = { m.u with rxA := x, pos := m.u.pos + 1 } := rfl
    have hfive : BitVec.ofNat 17 (4 + payload.length) + 1 = BitVec.ofNat 17 (5 + payload.length) := by
      rw [show 5 + payload.length = 4 + payload.length + 1 by omega]
      exact (BitVec.ofNat_add _ 1).symm
    rw [decode, hregs, h.regs, ← hfive]
    rfl

/-- The event of a frame with this payload (42_ubx.md R151). -/
def frameEvent (p : Params) (cls id : Byte) (payload : List Byte) : EvtItem where
  kind := .dataParsed
  proto := .ubx
  msg := .ubx cls id (ubxKind cls id) (BitVec.ofNat 16 payload.length)
  frame := payload.take p.payloadCap

/-- The second trailer byte decides (42_ubx.md R148, R149, R151, R152). -/
theorem Awaits.ckB {p : Params} {cls id : Byte} {payload : List Byte} {x : Byte} {m : State}
    (hcap : 24 ≤ p.payloadCap) (h : Awaits p cls id payload x m) (y : Byte) :
    ∃ t, Runs m [y] t ∧ Idle t ∧ t.params = p ∧ t.termOut = none ∧
      ((x, y) = ubxSums (header cls id payload.length ++ payload) →
        t.evt = some (frameEvent p cls id payload) ∧
        t.ack = if cls = 0x05 ∧ (id = 0x01 ∨ id = 0x00) ∧ 2 ≤ payload.length
          then some { wasAck := decide (id = 0x01), cls := payload.getD 0 0, id := payload.getD 1 0 } else none) ∧
      ((x, y) ≠ ubxSums (header cls id payload.length ++ payload) → t.evt = none ∧ t.ack = none) := by
  obtain ⟨hinput, -, hparams, hc, hholds, hregs⟩ := h
  have hsums : (x, y) = ubxSums (header cls id payload.length ++ payload) ↔ m.u.rxA = m.u.ckA ∧ y = m.u.ckB := by
    rw [hregs]; exact Prod.ext_iff
  have hcur := hholds.cur_eq
  rw [hparams] at hcur
  have hacks : (m.u.cls = 0x05 ∧ (m.u.id = 0x01 ∨ m.u.id = 0x00) ∧ 2 ≤ m.cur) ↔
      (cls = 0x05 ∧ (id = 0x01 ∨ id = 0x00) ∧ 2 ≤ payload.length) := by
    have htwo : 2 ≤ m.cur ↔ 2 ≤ payload.length := by omega
    rw [hregs, htwo]; rfl
  have hevt : EvtItem.mk .dataParsed .ubx (.ubx m.u.cls m.u.id (ubxKind m.u.cls m.u.id) m.u.len) m.frame =
      frameEvent p cls id payload := by
    rw [hholds, hparams, hregs]; rfl
  obtain ⟨hacked, hplain, -, hbad⟩ := Binary.ubxSecondTrailerByteDecides y (m.consume [])
  refine ⟨_, runs_one hinput hc y, ⟨rfl, rfl, rfl, after_keeps_input _ _⟩, (Steps.after_params _ _).trans hparams,
    Ports.after_termOut_keeps (i := .uCkB y) _ (by simp [Instr.op]), ?_, ?_⟩
  · intro hok
    obtain ⟨hA, hB⟩ := hsums.mp hok
    by_cases hack : m.u.cls = 0x05 ∧ (m.u.id = 0x01 ∨ m.u.id = 0x00) ∧ 2 ≤ m.cur
    · rw [decode, after_of_exec (hacked hA hB hack), if_pos (hacks.mp hack)]
      refine ⟨congrArg some hevt, congrArg some ?_⟩
      have htwo := (hacks.mp hack).2.2
      have h0 : m.bufByte 0 = payload.getD 0 0 := hholds.bufByte (by rw [hparams]; omega) (by omega)
      have h1 : m.bufByte 1 = payload.getD 1 0 := hholds.bufByte (by rw [hparams]; omega) (by omega)
      show AckItem.mk (decide (m.u.id = 0x01)) (m.bufByte 0) (m.bufByte 1) = _
      rw [h0, h1, hregs]; rfl
    · rw [decode, after_of_exec (hplain hA hB hack), if_neg (mt hacks.mpr hack)]
      exact ⟨congrArg some hevt, rfl⟩
  · intro hno
    rw [decode, after_of_exec (hbad (mt hsums.mpr hno)).1]
    exact ⟨rfl, rfl⟩

/-- Settles O46: the header, the payload byte by byte, and the two trailer bytes. -/
theorem ubxFrameReceived : Obligations.UbxFrameReceived := by
  intro s cls id x y payload hidle hok hn n covered frame
  obtain ⟨hcap, -⟩ := (Invariant.params_ok_iff _).mp hok
  obtain ⟨m0, hheader, h0⟩ := header_run cls id hidle hn
  obtain ⟨m1, hpayload, h1⟩ := quietRun_of_step Taken.input (Taken.step hn) payload h0 (Nat.zero_add _).le
  obtain ⟨m2, hckA, h2⟩ := Taken.ckA hn h1 x
  obtain ⟨t, hckB, ht⟩ := h2.ckB hcap y
  have hquiet := quietRun_append hidle.2.2.2 (quietRun_append hidle.2.2.2 hheader hpayload) hckA
  have hframe : frame = ([0xB5, 0x62] ++ header cls id payload.length ++ payload ++ [x]) ++ [y] := by
    simp [frame, covered, header, n]
  rw [hframe]
  exact ⟨t, runs_append hidle.2.2.2 hquiet.1 hckB, quietUntilLast_snoc hquiet y, ht⟩

end Sys2Proof.UbxFrame

/-! A whole RTCM3 frame (30_encoding.md R72, 44_rtcm3.md): every byte joins the buffer and the count, the
second and third give the length, and the count reaches the total on the last. -/

namespace Sys2Proof.RtcmFrame

open Sys2Proof.Machine Sys2Proof.Contexts Sys2Proof.Streams

/-- A frame with these bytes taken and these registers. -/
structure Opened (p : Params) (done : List Byte) (r : RtcmRegs) (t : State) : Prop where
  input : t.input = []
  params : t.params = p
  proto : t.proto = .rtcm
  holds : Holds t done
  regs : t.r = r

/-- The registers once the length is known, at a count. -/
def regsAt (len cnt : Nat) : RtcmRegs where
  len := BitVec.ofNat 10 len
  mtype := 0
  cnt := BitVec.ofNat 11 cnt
  total := BitVec.ofNat 11 (6 + len)

/-- The event of a frame of these bytes (44_rtcm3.md R185, R186). -/
def frameEvent (p : Params) (len : Nat) (frame : List Byte) : EvtItem where
  kind := .dataParsed
  proto := .rtcm
  msg := .rtcm (rtcmType (frame.getD 3 0) (frame.getD 4 0)) (BitVec.ofNat 10 len) (BitVec.ofNat 11 (6 + len))
  frame := frame.take p.payloadCap

section
variable {p : Params} {done : List Byte} {r : RtcmRegs} {t : State}

/-- An operation that stores its byte and writes the registers (44_rtcm3.md R181 to R183). -/
theorem Opened.store (h : Opened p done r t) {c : Context} (b : Byte) (hc : rtcmContext r.cnt.toNat = some c)
    (r' : RtcmRegs) (hafter : ∀ s : State, s.r = r → after (decode c b) s = { s.store b with r := r' }) :
    ∃ t', QuietRun t [b] t' ∧ Opened p (done ++ [b]) r' t' := by
  have hc' : t.context = some c := by rw [context_rtcm h.proto, h.regs, hc]
  have hafter := hafter (t.consume []) h.regs
  have hrun := quietRun_one b h.input hc'
  rw [hafter] at hrun
  have hholds : Holds (t.consume []) done := h.holds
  exact ⟨_, hrun ⟨State.store_evt _ b, State.store_termOut _ b, State.store_ack _ b⟩, State.store_input _ b,
    (State.store_params _ b).trans h.params, (State.store_proto _ b).trans h.proto, hholds.store b, rfl⟩

/-- One byte of the body that is not the last (44_rtcm3.md R183). -/
theorem Opened.body {len : Nat} (hlen : len < 1024) (b : Byte)
    (h : 3 ≤ done.length ∧ Opened p done (regsAt len done.length) t) (hmore : done.length < 5 + len) :
    ∃ t', QuietRun t [b] t' ∧ 3 ≤ (done ++ [b]).length ∧
      Opened p (done ++ [b]) (regsAt len (done ++ [b]).length) t' := by
  obtain ⟨hthree, hopen⟩ := h
  have hcnt : (regsAt len done.length).cnt.toNat = done.length := Nat.mod_eq_of_lt (by omega)
  have hc : rtcmContext (regsAt len done.length).cnt.toNat = some .rtcmBody := by
    rw [hcnt]; exact rtcmContext_body hthree
  have hsucc : (regsAt len done.length).cnt + 1 = BitVec.ofNat 11 (done.length + 1) := (BitVec.ofNat_add _ 1).symm
  have hne : (regsAt len done.length).cnt + 1 ≠ (regsAt len done.length).total := by
    rw [hsucc]
    intro e
    have := congrArg BitVec.toNat e
    simp only [regsAt, BitVec.toNat_ofNat] at this
    omega
  rw [List.length_append, List.length_singleton]
  obtain ⟨t', hrun, ht'⟩ := hopen.store b hc (regsAt len (done.length + 1)) fun s hs => by
    rw [decode, Binary.after_rBody_more b (by rw [hs]; exact hne), hs, hsucc]
    rfl
  exact ⟨t', hrun, by omega, ht'⟩

/-- The last byte completes the frame (44_rtcm3.md R183, R185, R186). -/
theorem Opened.last {len : Nat} (hcap : 24 ≤ p.payloadCap) (hlen : len < 1024) (b : Byte)
    (h : Opened p done (regsAt len done.length) t) (hlast : done.length = 5 + len) :
    ∃ t', Runs t [b] t' ∧ Idle t' ∧ t'.params = p ∧ t'.termOut = none ∧ t'.ack = none ∧
      t'.evt = some (frameEvent p len (done ++ [b])) := by
  have hcnt : (regsAt len done.length).cnt.toNat = done.length := Nat.mod_eq_of_lt (by omega)
  have hc : t.context = some .rtcmBody := by
    rw [context_rtcm h.proto, h.regs, hcnt]; exact rtcmContext_body (by omega)
  have htotal : (t.consume []).r.cnt + 1 = (t.consume []).r.total := by
    show t.r.cnt + 1 = t.r.total
    rw [h.regs, regsAt, hlast, show 6 + len = 5 + len + 1 by omega]
    exact (BitVec.ofNat_add _ 1).symm
  have hholds : Holds (t.consume []) done := h.holds
  have hframe : ((t.consume []).store b).frame = (done ++ [b]).take p.payloadCap := by
    rw [hholds.store b, State.store_params]
    exact congrArg (fun q : Params => (done ++ [b]).take q.payloadCap) h.params
  have hbyte {i : Nat} (hi : i < 6) : ((t.consume []).store b).bufByte i = (done ++ [b]).getD i 0 := by
    have hparams : ((t.consume []).store b).params = p := (State.store_params _ b).trans h.params
    refine (hholds.store b).bufByte (by rw [hparams]; omega) ?_
    rw [List.length_append, List.length_singleton]; omega
  refine ⟨_, runs_one h.input hc b, ?_⟩
  rw [decode, Binary.after_rBody_last b htotal]
  refine ⟨⟨rfl, rfl, rfl, State.store_input _ b⟩, (State.store_params _ b).trans h.params,
    State.store_termOut _ b, State.store_ack _ b, congrArg some ?_⟩
  show EvtItem.mk .dataParsed .rtcm (.rtcm (rtcmType (((t.consume []).store b).bufByte 3)
    (((t.consume []).store b).bufByte 4)) t.r.len t.r.total) ((t.consume []).store b).frame = _
  rw [hframe, hbyte (by decide), hbyte (by decide), h.regs]
  rfl

end

/-- The preamble and the two length bytes from idle (40_dispatcher.md R106, 44_rtcm3.md R181, R182). -/
theorem header_run {s : State} (hi lo : Byte) (hidle : Idle s) :
    ∃ t, QuietRun s [0xD3, hi, lo] t ∧
      Opened s.params [0xD3, hi, lo] (regsAt (256 * (hi.toNat % 4) + lo.toNat) 3) t := by
  obtain ⟨hproto, hsync, -, hinput⟩ := hidle
  have hc : s.context = some (.sync .sIdle) := by rw [context_none hproto, hsync]
  have hlen : setRtcmLenLo (setRtcmLenHi 0 hi) lo = BitVec.ofNat 10 (256 * (hi.toNat % 4) + lo.toNat) := by
    have := lo.isLt
    rw [setRtcmLenLo_eq, setRtcmLenHi_eq]
    apply BitVec.eq_of_toNat_eq
    simp only [BitVec.toNat_ofNat]
    omega
  have hsmall : 256 * (hi.toNat % 4) + lo.toNat < 1024 := by
    have := lo.isLt
    omega
  have hquiet : Quiet (after (.dStartRtcm .sIdle) (s.consume [])) :=
    ⟨State.store_evt _ _, State.store_termOut _ _, State.store_ack _ _⟩
  have hopen : Opened s.params [0xD3] { cnt := 1, len := 0, total := 0, mtype := 0 }
      (after (.dStartRtcm .sIdle) (s.consume [])) :=
    ⟨State.store_input _ _, State.store_params _ _, rfl, (holds_clear _).store 0xD3, rfl⟩
  obtain ⟨t1, hhi, h1⟩ := hopen.store (c := .rtcmC1) hi rfl
    { cnt := 2, len := setRtcmLenHi 0 hi, total := 0, mtype := 0 } fun s hs => by rw [decode, after_rLenHi, hs]
  obtain ⟨t2, hlo, h2⟩ := h1.store (c := .rtcmC2) lo rfl (regsAt (256 * (hi.toNat % 4) + lo.toNat) 3)
    fun s hs => by
      rw [decode, after_rLenLo, hs, hlen, rtcmTotal_eq, BitVec.toNat_ofNat, Nat.mod_eq_of_lt hsmall]
      rfl
  exact ⟨t2, quietRun_cons hinput hc hquiet (quietRun_append hopen.input hhi hlo), h2⟩

/-- Settles O47: the preamble and the length, the body byte by byte, and the byte that reaches the total. -/
theorem rtcmFrameReceived : Obligations.RtcmFrameReceived := by
  intro s hi lo p0 p1 rest hidle hok len frame hframeLen
  obtain ⟨hcap, -⟩ := (Invariant.params_ok_iff _).mp hok
  have hsmall : len < 1024 := by
    have := lo.isLt
    omega
  have hrest : rest.length = 1 + len := by
    simp only [frame, List.length_append, List.length_cons, List.length_nil] at hframeLen
    omega
  obtain ⟨mid, y, rfl⟩ := exists_snoc (xs := rest) (by omega)
  rw [List.length_append, List.length_singleton] at hrest
  obtain ⟨m0, hheader, h0⟩ := header_run hi lo hidle
  obtain ⟨m1, hbody, -, h1⟩ := quietRun_of_step
    (P := fun done t => 3 ≤ done.length ∧ Opened s.params done (regsAt len done.length) t) (fun h => h.2.input) (Opened.body hsmall) (p0 :: p1 :: mid) (done := [0xD3, hi, lo]) ⟨Nat.le_refl 3, h0⟩
    (by simp only [List.length_cons, List.length_nil]; omega)
  obtain ⟨t, hlast, ht⟩ := h1.last hcap hsmall y
    (by simp only [List.length_append, List.length_cons, List.length_nil]; omega)
  have hquiet := quietRun_append hidle.2.2.2 hheader hbody
  have hframe : frame = ([0xD3, hi, lo] ++ p0 :: p1 :: mid) ++ [y] := by simp [frame]
  rw [frameEvent, rtcmType_eq] at ht
  rw [hframe]
  exact ⟨t, runs_append hidle.2.2.2 hquiet.1 hlast, quietUntilLast_snoc hquiet y, ht⟩

end Sys2Proof.RtcmFrame

/-! A whole Unicore binary frame (30_encoding.md R74, 43_unicore_framers.md part 2): every byte joins the
buffer and the count, the 24th gives the fields, and the count reaches the total on the last. -/

namespace Sys2Proof.UnibFrame

open Sys2Proof.Machine Sys2Proof.Contexts Sys2Proof.Streams

/-- A frame with these bytes taken and these registers. -/
structure Opened (p : Params) (done : List Byte) (r : UnibRegs) (t : State) : Prop where
  input : t.input = []
  params : t.params = p
  proto : t.proto = .unicoreBinary
  holds : Holds t done
  regs : t.b = r

/-- The registers before the header is read, at a count. -/
def headerRegs (cnt : Nat) : UnibRegs where
  cnt := BitVec.ofNat 17 cnt
  mid := 0
  mlen := 0
  total := 0

/-- The registers once the header is read, at a count. -/
def bodyRegs (mid len trailer cnt : Nat) : UnibRegs where
  cnt := BitVec.ofNat 17 cnt
  mid := BitVec.ofNat 16 mid
  mlen := BitVec.ofNat 16 len
  total := BitVec.ofNat 17 (24 + len + trailer)

/-- A little-endian field of a header, in numbers (30_encoding.md R79). -/
def field (header : List Byte) (offset : Nat) : Nat :=
  256 * (header.getD (offset + 1) 0).toNat + (header.getD offset 0).toNat

theorem field_lt (header : List Byte) (offset : Nat) : field header offset < 65536 := by
  have hhi := (header.getD (offset + 1) 0).isLt
  have hlo := (header.getD offset 0).isLt
  unfold field
  omega

theorem quiet_unibTake {s : State} (b : Byte) (h : Quiet s) : Quiet (s.unibTake b) := by
  obtain ⟨hevt, hterm, hack⟩ := h
  exact ⟨(State.unibTake_evt s b).trans hevt, (State.unibTake_termOut s b).trans hterm,
    (State.unibTake_ack s b).trans hack⟩

/-- A count that reaches a total it was below. -/
theorem ofNat_succ_ne {n total : Nat} (h : n + 1 < total) (htotal : total < 131072) :
    BitVec.ofNat 17 (n + 1) ≠ BitVec.ofNat 17 total := by
  intro e
  have := congrArg BitVec.toNat e
  simp only [BitVec.toNat_ofNat] at this
  omega

/-- The event of a frame of these bytes (43_unicore_framers.md R174). -/
def frameEvent (p : Params) (r : UnibRegs) (frame : List Byte) : EvtItem where
  kind := .dataParsed
  proto := .unicoreBinary
  msg := .unicoreBinary r.mid r.mlen
  frame := frame.take p.payloadCap

section
variable {p : Params} {done : List Byte} {t : State}

/-- One byte stored and counted (43_unicore_framers.md R171, R172). -/
theorem Opened.take {r : UnibRegs} (h : Opened p done r t) (b : Byte) :
    Opened p (done ++ [b]) { r with cnt := r.cnt + 1 } ((t.consume []).unibTake b) := by
  have hholds : Holds (t.consume []) done := h.holds
  refine ⟨State.unibTake_input _ b, (State.unibTake_params _ b).trans h.params,
    (State.unibTake_proto _ b).trans h.proto, hholds.store b, ?_⟩
  show { t.b with cnt := t.b.cnt + 1 } = _
  rw [h.regs]

/-- A frame whose count has reached its total is reported as it stands (43_unicore_framers.md R174). -/
theorem Opened.complete {r : UnibRegs} (h : Opened p done r t) (hquiet : Quiet t) (hlast : r.cnt = r.total) :
    Idle t.unibComplete ∧ t.unibComplete.params = p ∧ t.unibComplete.termOut = none ∧ t.unibComplete.ack = none ∧
      t.unibComplete.evt = some (frameEvent p r done) := by
  obtain ⟨-, hterm, hack⟩ := hquiet
  rw [Binary.unibComplete_last (by rw [h.regs]; exact hlast), h.holds, h.regs, h.params]
  exact ⟨⟨rfl, rfl, rfl, h.input⟩, h.params, hterm, hack, rfl⟩

/-- One header byte before the 24th. -/
theorem Opened.header (b : Byte) (h : 3 ≤ done.length ∧ Opened p done (headerRegs done.length) t)
    (hmore : done.length < 23) : ∃ t', QuietRun t [b] t' ∧ 3 ≤ (done ++ [b]).length ∧
      Opened p (done ++ [b]) (headerRegs (done ++ [b]).length) t' := by
  obtain ⟨hthree, hopen⟩ := h
  have hcnt : t.b.cnt.toNat = done.length := by rw [hopen.regs]; exact Nat.mod_eq_of_lt (by omega)
  have hc : t.context = some .unibHdr := by rw [context_unib hopen.proto, if_pos (by omega)]
  have hafter : after (.bHeader b) (t.consume []) = (t.consume []).unibTake b :=
    after_bHeader_of_lt b _ (by rw [State.consume_b]; omega)
  have hrun := quietRun_one b hopen.input hc
  rw [decode, hafter] at hrun
  have htake := hopen.take b
  have hregs : { headerRegs done.length with cnt := (headerRegs done.length).cnt + 1 } =
      headerRegs (done.length + 1) :=
    congrArg (fun c => { headerRegs done.length with cnt := c }) (BitVec.ofNat_add _ 1).symm
  rw [List.length_append, List.length_singleton, ← hregs]
  exact ⟨_, hrun (quiet_unibTake b ⟨rfl, rfl, rfl⟩), by omega, htake⟩

/-- The 24th byte: the fields are read from the header the buffer holds (43_unicore_framers.md R173). -/
theorem Opened.header_end (hok : p.ok = true) (h : Opened p done (headerRegs done.length) t) (hlen : done.length = 23)
    (b : Byte) : ∃ t', t.context = some .unibHdr ∧ after (.bHeader b) (t.consume []) = t'.unibComplete ∧ Quiet t' ∧
      Opened p (done ++ [b]) (bodyRegs (field (done ++ [b]) p.unibIdOff) (field (done ++ [b]) p.unibLenOff)
        p.unibTrailerLen 24) t' := by
  obtain ⟨hcap, -, -, hlenOff, hidOff, -⟩ := (Invariant.params_ok_iff p).mp hok
  have hcnt : t.b.cnt.toNat = 23 := by rw [h.regs, hlen]; rfl
  have hc : t.context = some .unibHdr := by rw [context_unib h.proto, if_pos (by omega)]
  have htake := h.take b
  have hbyte {i : Nat} (hi : i < 24) : ((t.consume []).unibTake b).buf.byteAt .payload i = (done ++ [b]).getD i 0 := by
    refine htake.holds.bufByte (by rw [htake.params]; omega) ?_
    rw [List.length_append, List.length_singleton]; omega
  refine ⟨((t.consume []).unibTake b).unibReadHeader, hc, after_bHeader_of_last b _ hcnt,
    quiet_unibTake b ⟨rfl, rfl, rfl⟩, htake.input, htake.params, htake.proto, htake.holds, ?_⟩
  have hfield {offset : Nat} (hoff : offset + 1 < 24) :
      256 * (((t.consume []).unibTake b).buf.byteAt .payload (offset + 1)).toNat +
        (((t.consume []).unibTake b).buf.byteAt .payload offset).toNat = field (done ++ [b]) offset := by
    rw [hbyte hoff, hbyte (Nat.lt_of_succ_lt hoff)]; rfl
  rw [Binary.unibReadHeader_eq]
  beta_reduce
  rw [htake.params, htake.regs, hfield hidOff, hfield hlenOff, hlen]
  rfl

section
variable {mid len trailer : Nat}

/-- One byte after the header, up to completion. -/
theorem Opened.body (h : Opened p done (bodyRegs mid len trailer done.length) t) (hheader : 24 ≤ done.length)
    (hfits : done.length < 131072) (b : Byte) : t.context = some .unibBody ∧
      Opened p (done ++ [b]) (bodyRegs mid len trailer (done ++ [b]).length) ((t.consume []).unibTake b) := by
  have hcnt : t.b.cnt.toNat = done.length := by rw [h.regs]; exact Nat.mod_eq_of_lt hfits
  have hregs : { bodyRegs mid len trailer done.length with cnt := (bodyRegs mid len trailer done.length).cnt + 1 } =
      bodyRegs mid len trailer (done.length + 1) :=
    congrArg (fun c => { bodyRegs mid len trailer done.length with cnt := c }) (BitVec.ofNat_add _ 1).symm
  have htake := h.take b
  rw [hregs] at htake
  rw [List.length_append, List.length_singleton]
  exact ⟨by rw [context_unib h.proto, if_neg (by omega)], htake⟩

/-- One byte after the header that is not the last (43_unicore_framers.md R172). -/
theorem Opened.body_more (hlen : 24 + len + trailer < 131072) (b : Byte)
    (h : 24 ≤ done.length ∧ Opened p done (bodyRegs mid len trailer done.length) t)
    (hmore : done.length < 23 + len + trailer) : ∃ t', QuietRun t [b] t' ∧ 24 ≤ (done ++ [b]).length ∧
      Opened p (done ++ [b]) (bodyRegs mid len trailer (done ++ [b]).length) t' := by
  obtain ⟨hheader, hopen⟩ := h
  obtain ⟨hc, htake⟩ := hopen.body hheader (by omega) b
  have hne : ((t.consume []).unibTake b).b.cnt ≠ ((t.consume []).unibTake b).b.total := by
    rw [htake.regs, List.length_append, List.length_singleton]
    exact ofNat_succ_ne (by omega) hlen
  have hrun := quietRun_one b hopen.input hc
  rw [decode, after_bBody, Binary.unibComplete_more hne] at hrun
  refine ⟨_, hrun (quiet_unibTake b ⟨rfl, rfl, rfl⟩), ?_, htake⟩
  rw [List.length_append]; omega

end
end

/-- The three sync bytes from idle (40_dispatcher.md R104, R108, R105). -/
theorem sync_run {s : State} (hidle : Idle s) :
    ∃ t, QuietRun s [0xAA, 0x44, 0xB5] t ∧ Opened s.params [0xAA, 0x44, 0xB5] (headerRegs 3) t := by
  obtain ⟨hproto, hsync, -, hinput⟩ := hidle
  have hc : s.context = some (.sync .sIdle) := by rw [context_none hproto, hsync]
  have hfirst := quietRun_one 0xAA hinput hc ⟨rfl, rfl, rfl⟩
  have hsecond := quietRun_one (s := { s.consume [] with sync := .sUni1 }) 0x44 rfl (context_none hproto)
    ⟨rfl, rfl, rfl⟩
  have hquiet : Quiet (after .dUnibConfirm { s.consume [] with sync := .sUni2 }) := by
    rw [after_dUnibConfirm]
    exact ⟨by simp, by simp, by simp⟩
  have hthird := quietRun_one (s := { s.consume [] with sync := .sUni2 }) 0xB5 rfl (context_none hproto) hquiet
  have hopen : Opened s.params [0xAA, 0x44, 0xB5] (headerRegs 3)
      (after .dUnibConfirm { s.consume [] with sync := .sUni2 }) := by
    rw [after_dUnibConfirm]
    exact ⟨by simp, by simp, rfl, (((holds_clear _).store 0xAA).store 0x44).store 0xB5, rfl⟩
  exact ⟨_, quietRun_append hinput hfirst (quietRun_append rfl hsecond hthird), hopen⟩

/-- Settles O48: the sync bytes, the header byte by byte, the fields, and what they announce byte by byte;
the frame is over at once where they announce nothing. -/
theorem unibFrameReceived : Obligations.UnibFrameReceived := by
  intro s header body hidle hok hheaderLen hsync byte len mid hbodyLen frame
  obtain ⟨-, -, -, -, -, htrailer⟩ := (Invariant.params_ok_iff _).mp hok
  have hlen : len < 65536 := field_lt header s.params.unibLenOff
  have hinput := hidle.2.2.2
  obtain ⟨rest, z, hdrop⟩ := exists_snoc (xs := header.drop 3) (by rw [List.length_drop]; omega)
  have hheader : header = [0xAA, 0x44, 0xB5] ++ rest ++ [z] := by
    rw [← List.take_append_drop 3 header, hsync, hdrop, List.append_assoc]
  have hfront : ([0xAA, 0x44, 0xB5] ++ rest).length = 23 := by
    rw [hheader, List.length_append, List.length_singleton] at hheaderLen
    omega
  obtain ⟨m0, hsyncRun, h0⟩ := sync_run hidle
  obtain ⟨m1, hrestRun, -, h1⟩ := quietRun_of_step
    (P := fun done t => 3 ≤ done.length ∧ Opened s.params done (headerRegs done.length) t) (fun h => h.2.input)
    Opened.header rest (done := [0xAA, 0x44, 0xB5]) ⟨Nat.le_refl 3, h0⟩ (by rw [← List.length_append]; omega)
  have hquiet1 := quietRun_append hinput hsyncRun hrestRun
  obtain ⟨m2, hc, hafter, hquiet2, h2⟩ := h1.header_end hok hfront z
  rw [← hheader] at h2
  have hrun2 := runs_one h1.input hc z
  rw [decode, hafter] at hrun2
  by_cases hempty : len + s.params.unibTrailerLen = 0
  · obtain rfl : body = [] := List.eq_nil_of_length_eq_zero (by omega)
    have htotal : BitVec.ofNat 17 24 = BitVec.ofNat 17 (24 + len + s.params.unibTrailerLen) := by
      rw [Nat.add_assoc, hempty]
    have hrun : Runs s header m2.unibComplete := by
      rw [hheader]; exact runs_append hinput hquiet1.1 hrun2
    have hsilent : QuietUntilLast s header := by
      rw [hheader]; exact quietUntilLast_snoc hquiet1 z
    have hframe : frame = header := List.append_nil header
    rw [hframe]
    exact ⟨_, hrun, hsilent, h2.complete hquiet2 htotal⟩
  · obtain ⟨front, y, rfl⟩ := exists_snoc (xs := body) (by omega)
    rw [List.length_append, List.length_singleton] at hbodyLen
    have hmore : m2.b.cnt ≠ m2.b.total := by
      rw [h2.regs]
      show BitVec.ofNat 17 (23 + 1) ≠ BitVec.ofNat 17 (24 + len + s.params.unibTrailerLen)
      exact ofNat_succ_ne (by omega) (by omega)
    have hone := quietRun_one z h1.input hc
    rw [decode, hafter, Binary.unibComplete_more hmore] at hone
    rw [← hheaderLen] at h2
    obtain ⟨m3, hbodyRun, hlong, h3⟩ := quietRun_of_step
      (P := fun done t => 24 ≤ done.length ∧
        Opened s.params done (bodyRegs mid len s.params.unibTrailerLen done.length) t)
      (fun h => h.2.input) (Opened.body_more (by omega)) front (done := header) ⟨hheaderLen.ge, h2⟩
      (n := 23 + len + s.params.unibTrailerLen) (by omega)
    have hquiet3 := quietRun_append hinput (quietRun_append hinput hquiet1 (hone hquiet2)) hbodyRun
    rw [← hheader] at hquiet3
    obtain ⟨hc3, h4⟩ := h3.body hlong (by rw [List.length_append]; omega) y
    have hlast : (header ++ front ++ [y]).length = 24 + len + s.params.unibTrailerLen := by
      rw [List.length_append, List.length_append, List.length_singleton]; omega
    have ht := h4.complete (quiet_unibTake y ⟨rfl, rfl, rfl⟩) (congrArg (BitVec.ofNat 17) hlast)
    have hframe : frame = header ++ front ++ [y] := (List.append_assoc _ _ _).symm
    rw [hframe]
    exact ⟨_, runs_append hinput hquiet3.1 (runs_one h3.input hc3 y), quietUntilLast_snoc hquiet3 y, ht⟩

end Sys2Proof.UnibFrame

/-! NMEA and Unicore sentences as byte streams (41_nmea.md R120 to R129, 43_unicore_framers.md R168): what
each byte does to an open term, which bytes the checksum covers, and a whole sentence. -/

namespace Sys2Proof.Sentence

open Sys2Proof.Machine Sys2Proof.Contexts Sys2Proof.Streams

/-! ## An open NMEA term -/

/-- A term buffer keeps a text, cut at its capacity (20_memory.md R46). -/
def Keeps (t : TermBuf) (cap : Nat) (text : List Byte) : Prop := t.text .nmeaTerm = text.take cap

theorem Keeps.tidx_eq {t : TermBuf} {cap : Nat} {text : List Byte} (h : Keeps t cap text) :
    t.tidx = (text.take cap).length := by
  have hlen := congrArg List.length h
  rwa [TermBuf.text, Memory.length_bytes] at hlen

theorem keeps_nil (term : Memory) (cap : Nat) : Keeps { term := term, tidx := 0 } cap [] := by
  rw [Keeps, List.take_nil]; rfl

theorem Keeps.append {t : TermBuf} {cap : Nat} {text : List Byte} (h : Keeps t cap text) (b : Byte) :
    Keeps (t.append cap b) cap (text ++ [b]) := by
  have hidx := h.tidx_eq
  rw [List.length_take] at hidx
  rw [Keeps, TermBuf.append_text, h]
  split
  · rw [List.take_of_length_le (by omega : text.length ≤ _), List.take_of_length_le]
    rw [List.length_append, List.length_singleton]; omega
  · rw [List.take_append_of_le_length (by omega)]

/-- Three bytes of a range read (41_nmea.md R126). -/
theorem bytes_slice (m : Memory) (name : BufferName) {count : Nat} (h : 5 ≤ count) :
    m.bytes name 2 3 = ((m.bytes name 0 count).drop 2).take 3 := by
  refine List.ext_getElem ?_ fun i _ _ => by simp [Memory.bytes]
  simp only [List.length_take, List.length_drop, Memory.length_bytes]
  omega

/-- An open NMEA term: the text so far and the registers of the sentence. -/
structure At (p : Params) (ck : Byte) (star : Bool) (tnum : TermNo) (ty : SentenceType) (text : List Byte)
    (s : State) : Prop where
  input : s.input = []
  params : s.params = p
  proto : s.proto = .nmea
  ck_eq : s.n.ck = ck
  star_eq : s.n.star = star
  tnum_eq : s.n.tnum = tnum
  type_eq : s.n.stype = ty
  keeps : Keeps s.n.toTermBuf p.nmeaTermCap text

/-- The state after a byte of a sentence. -/
def taking (s : State) (b : Byte) : State := after (decodeNmea b) (s.consume [])

/-- The running checksum after a byte that is folded unless a `*` was seen (41_nmea.md R121). -/
def folded (ck : Byte) (star : Bool) (b : Byte) : Byte := if star then ck else ck ^^^ b

section
variable {p : Params} {ck : Byte} {star : Bool} {tnum : TermNo} {ty : SentenceType} {text : List Byte} {s : State}
  (h : At p ck star tnum ty text s)
include h

theorem At.runs_cons (b : Byte) (bs : List Byte) (t : State) : Runs s (b :: bs) t ↔ Runs (taking s b) bs t :=
  Machine.runs_cons h.input (context_nmea h.proto) b bs t

/-- A character (41_nmea.md R121). -/
theorem At.char {b : Byte} (hb : wfNmeaChar b = true) :
    At p (folded ck star b) star tnum ty (text ++ [b]) (taking s b) := by
  have hkeeps := h.keeps.append b
  rw [← h.params] at hkeeps
  rw [taking, Encoding.decodeNmea_of_wf hb]
  refine ⟨after_keeps_input _ _, h.params, h.proto, ?_, h.star_eq, h.tnum_eq, h.type_eq, h.params ▸ hkeeps⟩
  rw [folded, ← h.ck_eq, ← h.star_eq]
  rfl

/-- The hand-off test on the text kept (41_nmea.md R127). -/
theorem At.keptCommand_iff : KeptCommand s ↔ tnum = 0 ∧ text.take p.nmeaTermCap = commandText := by
  have hidx := h.keeps.tidx_eq
  have htext : s.n.term.bytes .nmeaTerm 0 s.n.tidx = text.take p.nmeaTermCap := h.keeps
  rw [KeptCommand, h.tnum_eq]
  refine and_congr_right fun _ => ⟨fun ⟨hseven, hbytes⟩ => ?_, fun hbytes => ?_⟩
  · rw [← htext, hseven, hbytes]
  · have hseven : s.n.tidx = 7 := by rw [hidx, hbytes]; rfl
    rw [hseven, hbytes] at htext
    exact ⟨hseven, htext⟩

/-- The type that the next delimiter leaves (41_nmea.md R125, R126). -/
theorem At.typeAfter_eq : Text.typeAfter s = if tnum = 0 then typeOfText (text.take p.nmeaTermCap) else ty := by
  have htext : s.n.term.bytes .nmeaTerm 0 s.n.tidx = text.take p.nmeaTermCap := h.keeps
  have hclassify : s.classify = typeOfText (text.take p.nmeaTermCap) := by
    rw [State.classify, typeOfText, ← h.keeps.tidx_eq]
    split
    · rw [bytes_slice _ _ ‹_›, htext]
    · rfl
  rw [Text.typeAfter, h.tnum_eq, h.type_eq, hclassify]

/-- A comma that does not hand off (41_nmea.md R122). -/
theorem At.comma (hkept : ¬ KeptCommand s) :
    At p (folded ck star 0x2C) star (satInc tnum) (Text.typeAfter s) [] (taking s 0x2C) := by
  have htaking : taking s 0x2C = _ := Nmea.after_nComma_stays (s := s.consume []) hkept
  rw [htaking]
  refine ⟨rfl, h.params, h.proto, ?_, h.star_eq, congrArg satInc h.tnum_eq, rfl, keeps_nil _ _⟩
  rw [folded, ← h.ck_eq, ← h.star_eq]
  rfl

/-- A star that does not hand off (41_nmea.md R123). -/
theorem At.starByte (hkept : ¬ KeptCommand s) :
    At p ck true (satInc tnum) (Text.typeAfter s) [] (taking s 0x2A) := by
  have htaking : taking s 0x2A = _ := Nmea.after_nStar_stays (s := s.consume []) hkept
  rw [htaking]
  exact ⟨rfl, h.params, h.proto, h.ck_eq, rfl, congrArg satInc h.tnum_eq, rfl, keeps_nil _ _⟩

end

/-- The dollar from idle opens a sentence (40_dispatcher.md R101). -/
theorem dollar_runs {s : State} (hidle : Idle s) : ∃ m, At s.params 0 false 0 .none [] m ∧
    ∀ bs t, Runs s (0x24 :: bs) t ↔ Runs m bs t := by
  obtain ⟨hproto, hsync, -, hinput⟩ := hidle
  have hc : s.context = some (.sync .sIdle) := by rw [context_none hproto, hsync]
  refine ⟨after (.dStartNmea .sIdle) (s.consume []), ?_, fun bs t => Machine.runs_cons hinput hc 0x24 bs t⟩
  exact ⟨rfl, rfl, rfl, rfl, rfl, rfl, rfl, keeps_nil _ _⟩

/-! ## An open Unicore term -/

/-- The Unicore checksum after these bytes of a sentence, from a point where a star and a colon have or have
not been seen (43_unicore_framers.md R161 to R164). -/
def uniChecksum (ck : Byte) (star colon : Bool) (bytes : List Byte) : Byte :=
  if star then ck else ck ^^^ xorAll (uniCovered colon bytes)

theorem uniCovered_true {b : Byte} (hcomma : b ≠ 0x2C) (hstar : b ≠ 0x2A) (bs : List Byte) :
    uniCovered true (b :: bs) = uniCovered true bs := by
  rw [uniCovered, if_neg hstar, if_neg hcomma, if_pos rfl]

theorem uniCovered_false {b : Byte} (hcomma : b ≠ 0x2C) (hstar : b ≠ 0x2A) (bs : List Byte) :
    uniCovered false (b :: bs) = b :: uniCovered (b == 0x3A) bs := by
  rw [uniCovered, if_neg hstar, if_neg hcomma, if_neg Bool.false_ne_true]

/-- A term character or the term's colon, as it moves the checksum (43_unicore_framers.md R161, R162). -/
theorem uniChecksum_char {b : Byte} (hcomma : b ≠ 0x2C) (hstar : b ≠ 0x2A) (ck : Byte) (star colon : Bool)
    (bs : List Byte) : uniChecksum (if !star && !colon then ck ^^^ b else ck) star (colon || b == 0x3A) bs =
      uniChecksum ck star colon (b :: bs) := by
  cases star
  case true => rfl
  case false =>
    cases colon
    case true =>
      rw [uniChecksum, uniChecksum, uniCovered_true hcomma hstar]
      rfl
    case false =>
      rw [uniChecksum, uniChecksum, uniCovered_false hcomma hstar, xorAll_cons, ← BitVec.xor_assoc]
      rfl

/-- One byte of a Unicore sentence that is no CR: the block stays in UNICORE, and what it does to checksum,
star and colon is what `uniCovered` says. -/
theorem unicore_byte {s : State} (hp : s.proto = .unicore) {b : Byte} (hcr : b ≠ 0x0D) (bs : List Byte) :
    (after (decodeUnicore b) s).proto = .unicore ∧
    uniChecksum (after (decodeUnicore b) s).a.ck (after (decodeUnicore b) s).a.star
        (after (decodeUnicore b) s).a.colon bs =
      uniChecksum s.a.ck s.a.star s.a.colon (b :: bs) := by
  refine ⟨congrArg Prod.fst ((Rules.moves_decodeUnicore b s hp).2 hcr), ?_⟩
  by_cases hcomma : b = 0x2C
  · subst hcomma
    show uniChecksum (if !s.a.star then s.a.ck ^^^ 0x2C else s.a.ck) s.a.star false bs = _
    cases s.a.star <;> simp [uniChecksum, uniCovered, xorAll_cons, BitVec.xor_assoc]
  by_cases hstar : b = 0x2A
  · subst hstar
    show s.a.ck = _
    cases s.a.star <;> simp [uniChecksum, uniCovered, xorAll]
  rw [← uniChecksum_char hcomma hstar]
  by_cases hcolon : b = 0x3A
  · subst hcolon
    show uniChecksum _ s.a.star true bs = _
    rw [show (s.a.colon || (0x3A : Byte) == 0x3A) = true from Bool.or_true _]
    rfl
  · have hdecode : decodeUnicore b = .aChar b := by
      simp only [decodeUnicore, hcomma, hstar, hcr, hcolon, if_false]
    rw [hdecode, beq_false_of_ne hcolon, Bool.or_false]
    rfl

/-- A Unicore sentence without its CR stays in UNICORE, with the checksum of the covered bytes. -/
theorem unicore_run {s t : State} (bs : List Byte) (hi : s.input = []) (hp : s.proto = .unicore)
    (hcr : (0x0D : Byte) ∉ bs) (h : Runs s bs t) :
    t.proto = .unicore ∧ t.a.ck = uniChecksum s.a.ck s.a.star s.a.colon bs := by
  induction bs generalizing s with
  | nil =>
    obtain rfl := (runs_nil s t).mp h
    refine ⟨hp, ?_⟩
    simp [uniChecksum, uniCovered, xorAll]
  | cons b bs ih =>
    rw [List.mem_cons, not_or] at hcr
    obtain ⟨hb, hbs⟩ := hcr
    obtain ⟨hproto, hck⟩ := unicore_byte (s := s.consume []) hp (Ne.symm hb) bs
    have hck : uniChecksum _ _ _ bs = uniChecksum s.a.ck s.a.star s.a.colon (b :: bs) := hck
    rw [← hck]
    exact ih (after_keeps_input _ _) hproto hbs ((Machine.runs_cons hi (context_unicore hp) b bs t).mp h)

/-! ## Checksum coverage -/

/-- The NMEA checksum after these bytes of a sentence, from a point where a star has or has not been seen
(41_nmea.md R129). -/
def nmeaChecksum (ck : Byte) (star : Bool) (bytes : List Byte) : Byte :=
  if star then ck else ck ^^^ xorAll (bytes.takeWhile (· ≠ 0x2A))

theorem nmeaChecksum_cons {b : Byte} (h : b ≠ 0x2A) (ck : Byte) (star : Bool) (bs : List Byte) :
    nmeaChecksum (folded ck star b) star bs = nmeaChecksum ck star (b :: bs) := by
  cases star
  case true => rfl
  case false =>
    rw [nmeaChecksum, nmeaChecksum, List.takeWhile_cons, if_pos (decide_eq_true h), xorAll_cons, ← BitVec.xor_assoc]
    rfl

theorem nmeaChecksum_star (ck : Byte) (star : Bool) (bs : List Byte) :
    nmeaChecksum ck star (0x2A :: bs) = ck := by
  cases star
  case true => rfl
  case false => exact BitVec.xor_zero

/-- A byte that is no delimiter is a term character. -/
theorem wfNmeaChar_of {b : Byte} (hcomma : b ≠ 0x2C) (hstar : b ≠ 0x2A) (hcr : b ≠ 0x0D) : wfNmeaChar b = true := by
  simp only [wfNmeaChar, Bool.and_eq_true, bne_iff_ne]
  exact ⟨⟨hcomma, hstar⟩, hcr⟩

/-- A delimiter that hands off leaves a state in UNICORE. -/
theorem taking_handOff {s : State} {b : Byte} (hp : s.proto = .nmea) (hb : b = 0x2C ∨ b = 0x2A)
    (hkept : KeptCommand s) : (taking s b).proto = .unicore :=
  congrArg Prod.fst ((Rules.moves_decodeNmea b (s.consume []) hp).2.1 hb hkept)

/-- Every byte of a body that leaves the block in NMEA moves the checksum, kept or not. -/
theorem nmea_run {p : Params} {ck : Byte} {star : Bool} {tnum : TermNo} {ty : SentenceType} {text : List Byte}
    {s t : State} (bs : List Byte) (h : At p ck star tnum ty text s) (hcr : (0x0D : Byte) ∉ bs) (hrun : Runs s bs t)
    (ht : t.proto = .nmea) : t.n.ck = nmeaChecksum ck star bs := by
  induction bs generalizing s ck star tnum ty text with
  | nil =>
    obtain rfl := (runs_nil s t).mp hrun
    simp [h.ck_eq, nmeaChecksum, xorAll]
  | cons b bs ih =>
    rw [List.mem_cons, not_or] at hcr
    obtain ⟨hb, hbs⟩ := hcr
    rw [h.runs_cons] at hrun
    have hstays (hdelim : b = 0x2C ∨ b = 0x2A) : ¬ KeptCommand s := fun hkept => by
      obtain ⟨huni, -⟩ := unicore_run bs (after_keeps_input _ _) (taking_handOff h.proto hdelim hkept) hbs hrun
      cases ht.symm.trans huni
    by_cases hcomma : b = 0x2C
    · subst hcomma
      rw [ih (h.comma (hstays (.inl rfl))) hbs hrun, nmeaChecksum_cons (by decide)]
    by_cases hstar : b = 0x2A
    · subst hstar
      rw [ih (h.starByte (hstays (.inr rfl))) hbs hrun, nmeaChecksum_star]
      rfl
    · rw [ih (h.char (wfNmeaChar_of hcomma hstar (Ne.symm hb))) hbs hrun, nmeaChecksum_cons hstar]

/-- Settles O49: from the dollar on, with the checksum 0 and no star seen. -/
theorem nmeaChecksumCoverage : Obligations.NmeaChecksumCoverage := by
  intro s t body hidle hcr hrun ht
  obtain ⟨m, hm, hdollar⟩ := dollar_runs hidle
  have hck := nmea_run body hm hcr ((hdollar body t).mp hrun) ht
  exact hck.trans BitVec.zero_xor

/-- After its first delimiter a sentence that did not hand off never does (41_nmea.md R127). -/
theorem nmea_stays {p : Params} {ck : Byte} {star : Bool} {tnum : TermNo} {ty : SentenceType} {text : List Byte}
    {s t : State} (bs : List Byte) (h : At p ck star tnum ty text s) (hlater : tnum ≠ 0) (hcr : (0x0D : Byte) ∉ bs)
    (hrun : Runs s bs t) : t.proto = .nmea := by
  induction bs generalizing s ck star tnum ty text with
  | nil =>
    obtain rfl := (runs_nil s t).mp hrun
    exact h.proto
  | cons b bs ih =>
    rw [List.mem_cons, not_or] at hcr
    obtain ⟨hb, hbs⟩ := hcr
    rw [h.runs_cons] at hrun
    have hkept : ¬ KeptCommand s := fun hk => hlater (h.keptCommand_iff.mp hk).1
    by_cases hcomma : b = 0x2C
    · subst hcomma
      exact ih (h.comma hkept) (satInc_ne_zero _) hbs hrun
    by_cases hstar : b = 0x2A
    · subst hstar
      exact ih (h.starByte hkept) (satInc_ne_zero _) hbs hrun
    · exact ih (h.char (wfNmeaChar_of hcomma hstar (Ne.symm hb))) hlater hbs hrun

/-- In a buffer of at least eight only `command` itself is kept as `command`. -/
theorem take_eq_command {cap : Nat} (hcap : 8 ≤ cap) (text : List Byte) :
    text.take cap = commandText ↔ text = commandText := by
  refine ⟨fun h => ?_, fun h => ?_⟩
  · have hlen := congrArg List.length h
    rw [List.length_take, show commandText.length = 7 from rfl] at hlen
    rwa [List.take_of_length_le (by omega)] at h
  · rw [h]
    exact List.take_of_length_le (Nat.le_trans (by decide) hcap)

/-- `command` has no colon and no star: the bytes after its delimiter are covered as a sentence of their own. -/
theorem uniCovered_command (bs : List Byte) :
    uniCovered false (commandText ++ 0x2C :: bs) = commandText ++ 0x2C :: uniCovered false bs ∧
      uniCovered false (commandText ++ 0x2A :: bs) = commandText :=
  ⟨rfl, rfl⟩

/-- From term 0 of an NMEA sentence that ends in UNICORE: the text so far and what follows are covered as
one Unicore sentence, since the hand-off comes at the end of `command`. -/
theorem handOff_run {p : Params} (hcap : 8 ≤ p.nmeaTermCap) {done : List Byte} {s t : State} (bs : List Byte)
    (h : At p (xorAll done) false 0 .none done s) (hcr : (0x0D : Byte) ∉ bs) (hrun : Runs s bs t)
    (ht : t.proto = .unicore) : t.a.ck = xorAll (uniCovered false (done ++ bs)) := by
  induction bs generalizing s done with
  | nil =>
    obtain rfl := (runs_nil s t).mp hrun
    cases h.proto.symm.trans ht
  | cons b bs ih =>
    rw [List.mem_cons, not_or] at hcr
    obtain ⟨hb, hbs⟩ := hcr
    rw [h.runs_cons] at hrun
    have hcommand (hkept : KeptCommand s) : done = commandText :=
      (take_eq_command hcap done).mp (h.keptCommand_iff.mp hkept).2
    have huni (hdelim : b = 0x2C ∨ b = 0x2A) (hkept : KeptCommand s) :=
      (unicore_run bs (after_keeps_input _ _) (taking_handOff h.proto hdelim hkept) hbs hrun).2
    by_cases hcomma : b = 0x2C
    · subst hcomma
      by_cases hkept : KeptCommand s
      · have hck : t.a.ck = uniChecksum (s.n.ck ^^^ 0x2C) false false bs := by
          have htaking : taking s 0x2C = _ := Nmea.after_nComma_handOff (s := s.consume []) hkept
          rw [huni (.inl rfl) hkept, htaking]
          rfl
        rw [hck, h.ck_eq, hcommand hkept, (uniCovered_command bs).1, xorAll_append, xorAll_cons, ← BitVec.xor_assoc]
        rfl
      · cases (nmea_stays bs (h.comma hkept) (satInc_ne_zero _) hbs hrun).symm.trans ht
    by_cases hstar : b = 0x2A
    · subst hstar
      by_cases hkept : KeptCommand s
      · have hck : t.a.ck = s.n.ck := by
          have htaking : taking s 0x2A = _ := Nmea.after_nStar_handOff (s := s.consume []) hkept
          rw [huni (.inr rfl) hkept, htaking]
          rfl
        rw [hck, h.ck_eq, hcommand hkept, (uniCovered_command bs).2]
      · cases (nmea_stays bs (h.starByte hkept) (satInc_ne_zero _) hbs hrun).symm.trans ht
    · have hnext := h.char (wfNmeaChar_of hcomma hstar (Ne.symm hb))
      have hck : folded (xorAll done) false b = xorAll (done ++ [b]) := by
        rw [xorAll_append, xorAll_cons]; exact (congrArg (xorAll done ^^^ ·) BitVec.xor_zero).symm
      rw [hck] at hnext
      rw [List.append_cons]
      exact ih hnext hbs hrun

/-- Settles O50: from the dollar on, with an empty term 0. -/
theorem unicoreChecksumCoverage : Obligations.UnicoreChecksumCoverage := by
  intro s t body hidle hcap hcr hrun ht
  obtain ⟨m, hm, hdollar⟩ := dollar_runs hidle
  exact handOff_run (done := []) hcap body hm hcr ((hdollar body t).mp hrun) ht

/-! ## A whole sentence -/

/-- The first term of a body (41_nmea.md R120). -/
def firstTerm (body : List Byte) : List Byte := body.takeWhile (· ≠ 0x2C)

theorem firstTerm_append {done : List Byte} (h : (0x2C : Byte) ∉ done) (bs : List Byte) :
    firstTerm (done ++ bs) = done ++ firstTerm bs :=
  List.takeWhile_append_of_pos fun _ hx => decide_eq_true fun e => h (e ▸ hx)

/-- After the first term the rest of a body is only folded: the type stays. -/
theorem later_run {p : Params} {ck : Byte} {tnum : TermNo} {ty : SentenceType} {text : List Byte} {s : State}
    (bs : List Byte) (h : At p ck false tnum ty text s) (hlater : tnum ≠ 0)
    (hcr : (0x0D : Byte) ∉ bs) (hstar : (0x2A : Byte) ∉ bs) :
    ∃ m tnum' text', Runs s bs m ∧ tnum' ≠ 0 ∧ At p (ck ^^^ xorAll bs) false tnum' ty text' m := by
  induction bs generalizing s ck tnum text with
  | nil =>
    refine ⟨s, tnum, text, (runs_nil s s).mpr rfl, hlater, ?_⟩
    rwa [xorAll, List.foldl_nil, show ck ^^^ 0 = ck from BitVec.xor_zero]
  | cons b bs ih =>
    rw [List.mem_cons, not_or] at hcr hstar
    rw [xorAll_cons, ← BitVec.xor_assoc]
    simp only [h.runs_cons]
    by_cases hcomma : b = 0x2C
    · subst hcomma
      have hnext := h.comma fun hk => hlater (h.keptCommand_iff.mp hk).1
      rw [h.typeAfter_eq, if_neg hlater] at hnext
      exact ih hnext (satInc_ne_zero _) hcr.2 hstar.2
    · exact ih (h.char (wfNmeaChar_of hcomma (Ne.symm hstar.1) (Ne.symm hcr.1))) hlater hcr.2 hstar.2

/-- A body whose first term is not `command` runs inside NMEA; the delimiter that follows it leaves the type
of its first term. -/
theorem body_run {p : Params} (hcap : 8 ≤ p.nmeaTermCap) {done : List Byte} {s : State} (bs : List Byte)
    (h : At p (xorAll done) false 0 .none done s) (hdone : (0x2C : Byte) ∉ done)
    (hfirst : firstTerm (done ++ bs) ≠ commandText) (hcr : (0x0D : Byte) ∉ bs) (hstar : (0x2A : Byte) ∉ bs) :
    ∃ m tnum ty text, Runs s bs m ∧ At p (xorAll (done ++ bs)) false tnum ty text m ∧ ¬ KeptCommand m ∧
      Text.typeAfter m = typeOfText ((firstTerm (done ++ bs)).take p.nmeaTermCap) := by
  have hkept : KeptCommand s → done = commandText := fun hk =>
    (take_eq_command hcap done).mp (h.keptCommand_iff.mp hk).2
  induction bs generalizing s done with
  | nil =>
    rw [firstTerm_append hdone, show firstTerm [] = [] from rfl, List.append_nil] at hfirst ⊢
    refine ⟨s, 0, .none, done, (runs_nil s s).mpr rfl, h, fun hk => hfirst (hkept hk), ?_⟩
    rw [h.typeAfter_eq, if_pos rfl]
  | cons b bs ih =>
    rw [List.mem_cons, not_or] at hcr hstar
    simp only [h.runs_cons]
    by_cases hcomma : b = 0x2C
    · subst hcomma
      rw [firstTerm_append hdone, show firstTerm (0x2C :: bs) = [] from rfl, List.append_nil] at hfirst ⊢
      have hnext := h.comma fun hk => hfirst (hkept hk)
      rw [h.typeAfter_eq, if_pos rfl] at hnext
      obtain ⟨m, tnum, text, hrun, hlater, hm⟩ := later_run bs hnext (satInc_ne_zero _) hcr.2 hstar.2
      refine ⟨m, tnum, typeOfText (done.take p.nmeaTermCap), text, hrun, ?_,
        fun hk => hlater (hm.keptCommand_iff.mp hk).1, ?_⟩
      · rwa [xorAll_append, xorAll_cons, ← BitVec.xor_assoc]
      · rw [hm.typeAfter_eq, if_neg hlater]
    · have hnext := h.char (wfNmeaChar_of hcomma (Ne.symm hstar.1) (Ne.symm hcr.1))
      have hck : folded (xorAll done) false b = xorAll (done ++ [b]) := by
        rw [xorAll_append, xorAll_cons]; exact (congrArg (xorAll done ^^^ ·) BitVec.xor_zero).symm
      rw [hck] at hnext
      rw [List.append_cons] at hfirst ⊢
      refine ih hnext ?_ hfirst hcr.2 hstar.2 fun hk => ?_
      · rw [List.mem_append, List.mem_singleton]
        exact not_or.mpr ⟨hdone, Ne.symm hcomma⟩
      · exact (take_eq_command hcap _).mp (hnext.keptCommand_iff.mp hk).2

/-- The star and two characters of a checksum term. -/
theorem checksumTerm_run {p : Params} {ck : Byte} {tnum : TermNo} {ty : SentenceType} {text : List Byte} {s : State}
    (h : At p ck false tnum ty text s) (hkept : ¬ KeptCommand s) {c0 c1 : Byte} (h0 : wfNmeaChar c0 = true)
    (h1 : wfNmeaChar c1 = true) :
    ∃ m, Runs s [0x2A, c0, c1] m ∧ At p ck true (satInc tnum) (Text.typeAfter s) [c0, c1] m := by
  have hstar := h.starByte hkept
  have hfirst := hstar.char h0
  refine ⟨_, ?_, hfirst.char h1⟩
  rw [h.runs_cons, hstar.runs_cons, hfirst.runs_cons, runs_nil]

/-- Two characters that are the hexadecimal digits of a checksum (30_encoding.md R89). -/
def HexPair (c0 c1 ck : Byte) : Prop :=
  ∃ hi lo : Byte, hexval c0 = some hi ∧ hexval c1 = some lo ∧ ck.toNat = 16 * hi.toNat + lo.toNat

/-- The received checksum of a term of two characters (30_encoding.md R89). -/
theorem At.receivedMatches_iff {p : Params} {ck : Byte} {tnum : TermNo} {ty : SentenceType} {c0 c1 : Byte}
    {s : State} (hcap : 8 ≤ p.nmeaTermCap) (h : At p ck true tnum ty [c0, c1] s) :
    ReceivedMatches s.n.toTermBuf .nmeaTerm s.n.ck s.n.star ↔
      HexPair c0 c1 ck := by
  have htake : [c0, c1].take p.nmeaTermCap = [c0, c1] :=
    List.take_of_length_le (Nat.le_trans (by decide : 2 ≤ 8) hcap)
  have hidx : s.n.tidx = 2 := by rw [h.keeps.tidx_eq, htake]; rfl
  have htext : s.n.term.bytes .nmeaTerm 0 2 = [c0, c1] := by
    rw [← htake, ← h.keeps, TermBuf.text, hidx]
  have hc0 : s.n.term.byteAt .nmeaTerm 0 = c0 := by
    rw [← Text.bytes_getD s.n.term .nmeaTerm (by decide : 0 < 2), htext]; rfl
  have hc1 : s.n.term.byteAt .nmeaTerm 1 = c1 := by
    rw [← Text.bytes_getD s.n.term .nmeaTerm (by decide : 1 < 2), htext]; rfl
  rw [ReceivedMatches, hc0, hc1, h.star_eq, h.ck_eq]
  exact ⟨fun ⟨_, _, hdigits⟩ => hdigits, fun hdigits => ⟨rfl, hidx, hdigits⟩⟩

/-- The CR of a sentence with a checksum term of two characters (41_nmea.md R124). -/
theorem At.cr {p : Params} {ck : Byte} {tnum : TermNo} {ty : SentenceType} {c0 c1 : Byte}
    {s : State} (hcap : 8 ≤ p.nmeaTermCap) (h : At p ck true tnum ty [c0, c1] s) :
    ∃ t, Runs s [0x0D] t ∧ Idle t ∧ t.termOut = none ∧ t.ack = none ∧
      (HexPair c0 c1 ck →
        t.evt = some { kind := .dataParsed, proto := .nmea, msg := .nmea ty, frame := [] }) ∧
      (¬ HexPair c0 c1 ck → t.evt = none) := by
  obtain ⟨hvalid, hinvalid⟩ := Text.nmeaCrReportsValidSentence (s.consume [])
  have hmatch := h.receivedMatches_iff hcap
  refine ⟨_, runs_one h.input (context_nmea h.proto) 0x0D, ⟨rfl, rfl, rfl, after_keeps_input _ _⟩,
    Ports.after_termOut_keeps (i := .nCr) _ (by decide), Ports.after_ack_keeps (i := .nCr) _ (by decide),
    fun hyes => ?_, fun hno => ?_⟩
  · have hafter : after (decode .nmea 0x0D) (s.consume []) = _ := after_of_exec (hvalid (hmatch.mpr hyes)).1
    rw [hafter, ← h.type_eq]
    rfl
  · have hafter : after (decode .nmea 0x0D) (s.consume []) = _ := after_of_exec (hinvalid (mt hmatch.mp hno)).1
    rw [hafter]
    rfl

/-- Settles O51: the dollar, the body, the checksum term and the CR. -/
theorem nmeaSentenceReceived : Obligations.NmeaSentenceReceived := by
  intro s body c0 c1 hidle _ hcap hcr hstar typeTerm hfirst hc0 hc1
  have hwf {c : Byte} (hc : c ∉ [(0x2C : Byte), 0x2A, 0x0D]) : wfNmeaChar c = true := by
    simp only [List.mem_cons, List.not_mem_nil, or_false, not_or] at hc
    exact wfNmeaChar_of hc.1 hc.2.1 hc.2.2
  obtain ⟨m0, hm0, hdollar⟩ := dollar_runs hidle
  obtain ⟨m1, tnum, ty, text, hbody, hm1, hkept, htype⟩ :=
    body_run (done := []) hcap body hm0 List.not_mem_nil hfirst hcr hstar
  obtain ⟨m2, hterm, hm2⟩ := checksumTerm_run hm1 hkept (hwf hc0) (hwf hc1)
  rw [htype] at hm2
  obtain ⟨t, hend, hidle', htermOut, hack, hvalid, hinvalid⟩ := hm2.cr hcap
  have hrun : Runs s (0x24 :: body ++ [0x2A, c0, c1, 0x0D]) t := by
    refine (hdollar _ t).mpr (runs_append hm0.input hbody ?_)
    exact runs_append (xs := [0x2A, c0, c1]) hm1.input hterm hend
  refine ⟨t, hrun, hidle', htermOut, hack, fun h l hh hl heq => ?_, fun h l hh hl hne => ?_, fun hbad => ?_⟩
  · exact hvalid ⟨h, l, hh, hl, heq.symm⟩
  · refine hinvalid fun ⟨h', l', hh', hl', heq⟩ => hne ?_
    rw [hh] at hh'; rw [hl] at hl'
    cases hh'; cases hl'
    exact heq.symm
  · refine hinvalid fun ⟨h', l', hh', hl', _⟩ => ?_
    obtain hno | hno := hbad
    · cases hno.symm.trans hh'
    · cases hno.symm.trans hl'

end Sys2Proof.Sentence
